-- ==== Sys2Proof/Word.lean ====
section
/-! DEFINITION. The words of TSPARSE: bytes of a frame and of the payload buffer, 32-bit bus words, single bits. -/

namespace Sys2Proof

/-- A byte of a frame or of the payload buffer (rule R10: 8 bits, unsigned). -/
abbrev Byte := BitVec 8

/-- A host bus word, the width of every register (rules R7 BUS_WIDTH, R19, R58). -/
abbrev Word := BitVec 32

/-- A one-bit field (rule R8). -/
abbrev Bit := BitVec 1

end Sys2Proof
end

