-- ==== Sys2Proof/Config.lean ====
section
/-! DEFINITION. What the spec fixes for every TSPARSE block (rules R7, R16) and the values it leaves open:
BASE and LATENCY are OPEN parameters (rule R7), a read of volatile state while busy is any value (rule R138).
Every `opaque` constant here is a free value: nothing can be proved about it. The lookup tables of rules R127
and R128 are in `Sys2Proof.Machine.Operands`. -/

namespace Sys2Proof.Config

/-- FRAME_BYTES: the fixed frame length (rules R7, R72). -/
def frameBytes : Nat := 188

/-- PAYLOAD_BUF_BYTES (rules R7, R49). -/
def payloadBufBytes : Nat := 4096

/-- REG_SPACE: the bytes of the register block (rules R7, R57). -/
def regSpace : Nat := 0x2000

/-- The constant that ID reads (rules R7, R20). -/
def idValue : Word := 0x54535031#32

/-- The sync byte value that SYNC_BYTE_ERR compares with (rules R7, R106).
UNVERIFIED: the spec marks it as general knowledge (GK2; log entry 9). -/
def syncByte : Byte := 0x47#8

/-- BASE in units of REG_SPACE: a free value (rules R7, R63; IB3; log entry 6). -/
opaque baseIndex : Nat

/-- BASE, the byte address of offset 0: any multiple of 0x2000 (rule R7). -/
def base : Nat := baseIndex * regSpace

/-- LATENCY of the command issued when the draw counter holds the argument, counted in moves of the machine
between the CMD write and the engine step: a free value, finite and unbounded (rules R137, R169; IB4;
log entry 1). -/
opaque latency : Nat → Nat

/-- The word that a read of volatile state returns while BUSY = 1, one draw per read: a free value
(rules R54, R138; IB1; log entry 3). -/
opaque busyRead : Nat → Word

/-- The SIZE that FSIZE would write where the quotient has no divisor or does not fit 16 bits: no reachable
state is there (rules R129, R130), so the spec states no value and this is a free one (log entry 10).
The arguments are KBPS, HZ and PADDING. -/
opaque frameSizeOutOfRange : BitVec 16 → BitVec 16 → Bit → BitVec 16

end Sys2Proof.Config
end

