-- ==== Sys2Proof/Syntax.lean ====
section
/-! DEFINITION. The operations of spec/opcode_table.json, one constructor a row, with the fields of the formats
they are encoded in (30_encoding.md rules R72 to R79, R86). -/

namespace Sys2Proof

/-- The fields of the TS header word H (format TSHDR, rule R74). -/
structure TsHeader where
  /-- SYNC, H[31:24]. -/
  sync : BitVec 8
  /-- TEI (error), H[23]. -/
  tei : Bit
  /-- PUSI (unit-start), H[22]. -/
  pusi : Bit
  /-- TP (priority), H[21]. -/
  tp : Bit
  /-- PID, H[20:8]. -/
  pid : BitVec 13
  /-- TSC (scrambling), H[7:6]. -/
  tsc : BitVec 2
  /-- AFC (adaptation-field-control), H[5:4]. -/
  afc : BitVec 2
  /-- CC (continuity counter), H[3:0]. -/
  cc : BitVec 4
  deriving DecidableEq, Repr

/-- The fields of an audio frame header after its sync (format AUDHDR, rule R78, A[20:0]). -/
structure AudCodes where
  /-- version, A[20:19]. -/
  version : BitVec 2
  /-- layer, A[18:17]. -/
  layer : BitVec 2
  /-- protection, A[16]. -/
  protection : Bit
  /-- bitrate-index, A[15:12]. -/
  brIndex : BitVec 4
  /-- sampling-rate-index, A[11:10]. -/
  srIndex : BitVec 2
  /-- padding, A[9]. -/
  padding : Bit
  /-- the spare bit (PRIVATE in AUD_FIELDS), A[8]. -/
  spare : Bit
  /-- channel-mode, A[7:6] (general knowledge of the spec, GK7). -/
  channelMode : BitVec 2
  /-- mode extension, A[5:4] (GK7). -/
  modeExt : BitVec 2
  /-- copyright, A[3] (GK7). -/
  copyright : Bit
  /-- original, A[2] (GK7). -/
  original : Bit
  /-- emphasis, A[1:0] (GK7). -/
  emphasis : BitVec 2
  deriving DecidableEq, Repr

/-- The fields of the audio header word A (format AUDHDR, rule R78). -/
structure AudHeader where
  /-- sync, A[31:21]; 0x7FF in a header that is one. -/
  sync : BitVec 11
  /-- A[20:0]. -/
  codes : AudCodes
  deriving DecidableEq, Repr

/-- The fields of the PES header that the block decodes (format PES, rule R77, frame bytes 6 to 14). -/
structure PesHeader where
  /-- start-code prefix, f[6..8]. -/
  startCode : BitVec 24
  /-- stream id, f[9]. -/
  streamId : Byte
  /-- declared PES packet length, f[10..11]. -/
  packetLength : BitVec 16
  /-- raw header-data length, f[14]. -/
  hdlRaw : Byte
  deriving DecidableEq, Repr

/-- The commands that can be pending (rules R51, R73). -/
inductive Command where
  | nop
  | decodeFrame
  | rsmReset
  | clearSticky
  deriving DecidableEq, Repr

/-- One constructor per row of spec/opcode_table.json, in the table's order. A constructor carries the fields of
its own format's word: a host transaction its offset and data word (format BUS), a reserved command its opcode
(format CMD), a frame operation the header fields (format TSHDR), and so on. Every other byte an operation reads
is read from the frame buffer or from the payload buffer, which State holds. -/
inductive Instr where
  /-- RD: a host read below the PAYLOAD window; `off` is offset[11:0]. -/
  | rd (off : BitVec 12)
  /-- RD_PAYLOAD: a host read of the PAYLOAD window; `off` is offset[11:0], word k = off[11:2]. -/
  | rdPayload (off : BitVec 12)
  /-- WR_CMD: a host write to CMD. -/
  | wrCmd (v : Word)
  /-- WR_TARGET_PID: a host write to TARGET_PID. -/
  | wrTargetPid (v : Word)
  /-- PUSH8: a host write to FRAME_DATA8. -/
  | push8 (v : Word)
  /-- PUSH32: a host write to FRAME_DATA32. -/
  | push32 (v : Word)
  /-- WR_IGNORED: a host write to any other offset. -/
  | wrIgnored (off : BitVec 13) (v : Word)
  /-- NOP: the engine step of opcode 0x00. -/
  | nop
  /-- DECODE_FRAME: the engine step of opcode 0x01. -/
  | decodeFrame
  /-- RSM_RESET: the engine step of opcode 0x02. -/
  | rsmReset
  /-- CLEAR_STICKY: the engine step of opcode 0x03. -/
  | clearSticky
  /-- Reserved opcodes 0x04 to 0x07. -/
  | reserved0407 (op : BitVec 8)
  /-- Reserved opcodes 0x08 to 0x0F. -/
  | reserved080f (op : BitVec 8)
  /-- Reserved opcodes 0x10 to 0x1F. -/
  | reserved101f (op : BitVec 8)
  /-- Reserved opcodes 0x20 to 0x3F. -/
  | reserved203f (op : BitVec 8)
  /-- Reserved opcodes 0x40 to 0x7F. -/
  | reserved407f (op : BitVec 8)
  /-- Reserved opcodes 0x80 to 0xFF. -/
  | reserved80ff (op : BitVec 8)
  /-- TS_EXTRACT. -/
  | tsExtract (h : TsHeader)
  /-- AF_DECODE. -/
  | afDecode (h : TsHeader)
  /-- AF_ABSENT. -/
  | afAbsent (h : TsHeader)
  /-- PCR_DECODE. -/
  | pcrDecode (h : TsHeader)
  /-- RSM_NOT_TRACKED. -/
  | rsmNotTracked (h : TsHeader)
  /-- RSM_START. -/
  | rsmStart (h : TsHeader)
  /-- RSM_IDLE. -/
  | rsmIdle (h : TsHeader)
  /-- RSM_CONTINUE. -/
  | rsmContinue (h : TsHeader)
  /-- RSM_END. -/
  | rsmEnd (h : TsHeader)
  /-- RSM_DISC. -/
  | rsmDisc (h : TsHeader)
  /-- PES_DECODE. -/
  | pesDecode (p : PesHeader)
  /-- AUD_SHORT: the payload buffer holds no whole header word, so there is no field to carry. -/
  | audShort
  /-- AUD_SYNC_MISS. -/
  | audSyncMiss (a : AudHeader)
  /-- AUD_FIELDS. -/
  | audFields (a : AudHeader)
  /-- BR_LOOKUP. -/
  | brLookup (a : AudHeader)
  /-- SR_LOOKUP. -/
  | srLookup (a : AudHeader)
  /-- FSIZE. -/
  | fsize (a : AudHeader)
  deriving DecidableEq, Repr

end Sys2Proof
end

