-- ==== Sys2Proof/WellFormed.lean ====
section
/-! DEFINITION. When a term of `Instr` stands for a word of its row: the fixed bits of the row in
spec/opcode_table.json and the row's condition on the word itself hold of its fields. -/

namespace Sys2Proof

/-- The offsets that a write acts on: CMD, TARGET_PID, FRAME_DATA8, FRAME_DATA32 (rules R19, R61). -/
def writable (off : BitVec 13) : Bool :=
  let o := off &&& 0x1FFC#13
  o == 0x0004#13 || o == 0x000C#13 || o == 0x0014#13 || o == 0x0018#13

/-- The audio sync pattern (rules R78, R124). -/
def audSync : BitVec 11 := 0x7FF#11

/-- A term is well formed when its fields meet its row's fixed bits (table columns match and mask) and the part
of its row's condition that reads only the word. -/
def Instr.wf : Instr → Bool
  | .rd _ | .rdPayload _ | .wrCmd _ | .wrTargetPid _ | .push8 _ | .push32 _ => true
  | .wrIgnored off _ => !writable off
  | .nop | .decodeFrame | .rsmReset | .clearSticky => true
  | .reserved0407 op => op &&& 0xFC#8 == 0x04#8
  | .reserved080f op => op &&& 0xF8#8 == 0x08#8
  | .reserved101f op => op &&& 0xF0#8 == 0x10#8
  | .reserved203f op => op &&& 0xE0#8 == 0x20#8
  | .reserved407f op => op &&& 0xC0#8 == 0x40#8
  | .reserved80ff op => op &&& 0x80#8 == 0x80#8
  | .tsExtract _ => true
  | .afDecode h => h.afc.getLsbD 1
  | .afAbsent h => !h.afc.getLsbD 1
  | .pcrDecode h => h.afc.getLsbD 1
  | .rsmNotTracked _ => true
  | .rsmStart h => h.pusi == 1#1
  | .rsmIdle h => h.pusi == 0#1
  | .rsmContinue h => h.cc != 15#4
  | .rsmEnd h => h.cc == 15#4
  | .rsmDisc _ => true
  | .pesDecode _ => true
  | .audShort => true
  | .audSyncMiss a => a.sync != audSync
  | .audFields a => a.sync == audSync
  | .brLookup a => a.sync == audSync
  | .srLookup a => a.sync == audSync
  | .fsize a => a.sync == audSync

end Sys2Proof
end

