-- ==== Sys2Proof/Decode.lean ====
section
/-! DEFINITION. From words to operations and back (30_encoding.md rules R72 to R86). A word reaches the decoder in
one of the formats of rule R72; decoding is total and refuses by name. The encoder stands after it. -/

namespace Sys2Proof

/-! ## Fields of the formats -/

/-- The fields of the TS header word H (rule R74). -/
def TsHeader.unpack (w : Word) : TsHeader where
  sync := w.extractLsb' 24 8
  tei := w.extractLsb' 23 1
  pusi := w.extractLsb' 22 1
  tp := w.extractLsb' 21 1
  pid := w.extractLsb' 8 13
  tsc := w.extractLsb' 6 2
  afc := w.extractLsb' 4 2
  cc := w.extractLsb' 0 4

/-- The TS header word of the fields (rule R74: SYNC most significant, CC least). -/
def TsHeader.pack (h : TsHeader) : Word :=
  h.sync ++ h.tei ++ h.pusi ++ h.tp ++ h.pid ++ h.tsc ++ h.afc ++ h.cc

/-- The codes of the audio header word A below its sync (rule R78). -/
def AudCodes.unpack (w : Word) : AudCodes where
  version := w.extractLsb' 19 2
  layer := w.extractLsb' 17 2
  protection := w.extractLsb' 16 1
  brIndex := w.extractLsb' 12 4
  srIndex := w.extractLsb' 10 2
  padding := w.extractLsb' 9 1
  spare := w.extractLsb' 8 1
  channelMode := w.extractLsb' 6 2
  modeExt := w.extractLsb' 4 2
  copyright := w.extractLsb' 3 1
  original := w.extractLsb' 2 1
  emphasis := w.extractLsb' 0 2

/-- The fields of the audio header word A (rule R78). -/
def AudHeader.unpack (w : Word) : AudHeader where
  sync := w.extractLsb' 21 11
  codes := AudCodes.unpack w

/-- The audio header word of the fields (rule R78). -/
def AudHeader.pack (a : AudHeader) : Word :=
  a.sync ++ a.codes.version ++ a.codes.layer ++ a.codes.protection ++ a.codes.brIndex ++ a.codes.srIndex ++
    a.codes.padding ++ a.codes.spare ++ a.codes.channelMode ++ a.codes.modeExt ++ a.codes.copyright ++
    a.codes.original ++ a.codes.emphasis

/-- The PES header fields of the nine frame bytes f[6] to f[14], f[6] most significant (rule R77). Bytes f[12] and
f[13], bits 23 to 8, are not decoded. -/
def PesHeader.unpack (p : BitVec 72) : PesHeader where
  startCode := p.extractLsb' 48 24
  streamId := p.extractLsb' 40 8
  packetLength := p.extractLsb' 24 16
  hdlRaw := p.extractLsb' 0 8

/-- The nine frame bytes of the PES header fields, the two bytes that are not decoded written as zero. -/
def PesHeader.pack (p : PesHeader) : BitVec 72 :=
  p.startCode ++ p.streamId ++ p.packetLength ++ 0#16 ++ p.hdlRaw

/-! ## Words as they reach the decoder -/

/-- The frame operations whose format is TSHDR: several of them run on one header word, so the dispatch of rule R82
names the operation beside the word (log entry 11). -/
inductive TsOp where
  | extract | afDecode | afAbsent | pcrDecode | notTracked | start | idle | continues | ends | disc
  deriving DecidableEq, Repr

/-- The audio operations of rule R83, whose format is AUDHDR. -/
inductive AudOp where
  | short | syncMiss | fields | brLookup | srLookup | fsize
  deriving DecidableEq, Repr

/-- A word in one of the formats of rule R72. -/
inductive Packet where
  /-- Format BUS (rule R86): the key `dir << 13 | offset`, and the data word. -/
  | bus (key : BitVec 14) (data : Word)
  /-- Format CMD (rule R73): a command word. -/
  | cmd (w : Word)
  /-- Format TSHDR (rule R74): the header word, for the operation that the dispatch selects. -/
  | ts (op : TsOp) (w : Word)
  /-- Format PES (rule R77): frame bytes 6 to 14. -/
  | pes (w : BitVec 72)
  /-- Format AUDHDR (rule R78): the audio header word, for the operation that the dispatch selects. -/
  | aud (op : AudOp) (w : Word)
  deriving DecidableEq, Repr

/-- Why the decoder refuses a packet. -/
inductive Reject where
  /-- The word does not have the fixed bits of the named row of the table, or fails the row's condition on it. -/
  | notThisRow (mnemonic : String)
  deriving DecidableEq, Repr

/-! ## The decoder -/

/-- The command of a defined opcode; none for the reserved opcodes 0x04 to 0xFF (rules R73, R140). -/
def commandOf (op : BitVec 8) : Option Command :=
  if op = 0x00#8 then some .nop
  else if op = 0x01#8 then some .decodeFrame
  else if op = 0x02#8 then some .rsmReset
  else if op = 0x03#8 then some .clearSticky
  else none

/-- The opcode of a command (rule R73). -/
def Command.opcode : Command → BitVec 8
  | .nop => 0x00#8
  | .decodeFrame => 0x01#8
  | .rsmReset => 0x02#8
  | .clearSticky => 0x03#8

/-- The command word of a command: its opcode in bits 7 to 0, bits 31 to 8 written 0 (rule R73). -/
def Command.word (c : Command) : Word := c.opcode.setWidth 32

/-- The operation that performs a command (rules R141 to R144). -/
def Command.instr : Command → Instr
  | .nop => .nop
  | .decodeFrame => .decodeFrame
  | .rsmReset => .rsmReset
  | .clearSticky => .clearSticky

/-- The table's row for a reserved opcode (rules R84 (a), R145). -/
def reservedInstr (op : BitVec 8) : Instr :=
  if op &&& 0x80#8 = 0x80#8 then .reserved80ff op
  else if op &&& 0xC0#8 = 0x40#8 then .reserved407f op
  else if op &&& 0xE0#8 = 0x20#8 then .reserved203f op
  else if op &&& 0xF0#8 = 0x10#8 then .reserved101f op
  else if op &&& 0xF8#8 = 0x08#8 then .reserved080f op
  else .reserved0407 op

/-- OPCODE of a command word: bits 7 to 0; the others are ignored (rules R21, R73). -/
def opcodeOf (w : Word) : BitVec 8 := w.extractLsb' 0 8

/-- Decode a command word (rule R73). Every word has a row. -/
def decodeCmd (w : Word) : Instr :=
  match commandOf (opcodeOf w) with
  | some c => c.instr
  | none => reservedInstr (opcodeOf w)

/-- Decode a host bus transaction from its key `dir << 13 | offset` and its data word (rules R58, R86): offset bits
1 to 0 are ignored. Every key has a row. -/
def decodeBus (key : BitVec 14) (data : Word) : Instr :=
  if key.getLsbD 13 = false then
    if key.getLsbD 12 = false then .rd (key.extractLsb' 0 12) else .rdPayload (key.extractLsb' 0 12)
  else if key &&& 0x3FFC#14 = 0x2004#14 then .wrCmd data
  else if key &&& 0x3FFC#14 = 0x200C#14 then .wrTargetPid data
  else if key &&& 0x3FFC#14 = 0x2014#14 then .push8 data
  else if key &&& 0x3FFC#14 = 0x2018#14 then .push32 data
  else .wrIgnored (key.extractLsb' 0 13) data

/-- The operation named beside a header word, with the word's fields. -/
def TsOp.instr (op : TsOp) (h : TsHeader) : Instr :=
  match op with
  | .extract => .tsExtract h
  | .afDecode => .afDecode h
  | .afAbsent => .afAbsent h
  | .pcrDecode => .pcrDecode h
  | .notTracked => .rsmNotTracked h
  | .start => .rsmStart h
  | .idle => .rsmIdle h
  | .continues => .rsmContinue h
  | .ends => .rsmEnd h
  | .disc => .rsmDisc h

/-- The row's mnemonic in spec/opcode_table.json. -/
def TsOp.mnemonic : TsOp → String
  | .extract => "TS_EXTRACT"
  | .afDecode => "AF_DECODE"
  | .afAbsent => "AF_ABSENT"
  | .pcrDecode => "PCR_DECODE"
  | .notTracked => "RSM_NOT_TRACKED"
  | .start => "RSM_START"
  | .idle => "RSM_IDLE"
  | .continues => "RSM_CONTINUE"
  | .ends => "RSM_END"
  | .disc => "RSM_DISC"

/-- The operation named beside an audio header word, with the word's fields. -/
def AudOp.instr (op : AudOp) (a : AudHeader) : Instr :=
  match op with
  | .short => .audShort
  | .syncMiss => .audSyncMiss a
  | .fields => .audFields a
  | .brLookup => .brLookup a
  | .srLookup => .srLookup a
  | .fsize => .fsize a

/-- The row's mnemonic in spec/opcode_table.json. -/
def AudOp.mnemonic : AudOp → String
  | .short => "AUD_SHORT"
  | .syncMiss => "AUD_SYNC_MISS"
  | .fields => "AUD_FIELDS"
  | .brLookup => "BR_LOOKUP"
  | .srLookup => "SR_LOOKUP"
  | .fsize => "FSIZE"

/-- Accept an operation whose word meets its row; refuse it by its row's name otherwise. -/
def checkRow (mnemonic : String) (i : Instr) : Except Reject Instr :=
  if i.wf then .ok i else .error (.notThisRow mnemonic)

/-- Decode a packet (rules R72 to R86). Bus keys and command words always have a row; a header word is refused for
an operation whose fixed bits it lacks. -/
def decode : Packet → Except Reject Instr
  | .bus key data => .ok (decodeBus key data)
  | .cmd w => .ok (decodeCmd w)
  | .ts op w => checkRow op.mnemonic (op.instr (TsHeader.unpack w))
  | .pes w => .ok (.pesDecode (PesHeader.unpack w))
  | .aud op w => checkRow op.mnemonic (op.instr (AudHeader.unpack w))

/-! ## The encoder -/

/-- The key of a transaction: `dir << 13 | offset`, W = 1 and R = 0 (rule R86). -/
def busKey (write : Bool) (off : BitVec 13) : BitVec 14 := BitVec.ofBool write ++ off

/-- The packet of a reserved command word with the given opcode; bits 31 to 8 are written 0 (rule R73). -/
def cmdPacket (op : BitVec 8) : Packet := .cmd (op.setWidth 32)

/-- The words of an operation, in its format. Bits that the format ignores are written 0. -/
def encode : Instr → Packet
  | .rd off => .bus (busKey false (0#1 ++ off)) 0#32
  | .rdPayload off => .bus (busKey false (1#1 ++ off)) 0#32
  | .wrCmd v => .bus (busKey true 0x0004#13) v
  | .wrTargetPid v => .bus (busKey true 0x000C#13) v
  | .push8 v => .bus (busKey true 0x0014#13) v
  | .push32 v => .bus (busKey true 0x0018#13) v
  | .wrIgnored off v => .bus (busKey true off) v
  | .nop => .cmd (Command.word .nop)
  | .decodeFrame => .cmd (Command.word .decodeFrame)
  | .rsmReset => .cmd (Command.word .rsmReset)
  | .clearSticky => .cmd (Command.word .clearSticky)
  | .reserved0407 op => cmdPacket op
  | .reserved080f op => cmdPacket op
  | .reserved101f op => cmdPacket op
  | .reserved203f op => cmdPacket op
  | .reserved407f op => cmdPacket op
  | .reserved80ff op => cmdPacket op
  | .tsExtract h => .ts .extract h.pack
  | .afDecode h => .ts .afDecode h.pack
  | .afAbsent h => .ts .afAbsent h.pack
  | .pcrDecode h => .ts .pcrDecode h.pack
  | .rsmNotTracked h => .ts .notTracked h.pack
  | .rsmStart h => .ts .start h.pack
  | .rsmIdle h => .ts .idle h.pack
  | .rsmContinue h => .ts .continues h.pack
  | .rsmEnd h => .ts .ends h.pack
  | .rsmDisc h => .ts .disc h.pack
  | .pesDecode p => .pes p.pack
  | .audShort => .aud .short 0#32
  | .audSyncMiss a => .aud .syncMiss a.pack
  | .audFields a => .aud .fields a.pack
  | .brLookup a => .aud .brLookup a.pack
  | .srLookup a => .aud .srLookup a.pack
  | .fsize a => .aud .fsize a.pack

/-! ## Words of the opcode table -/

/-- The packet of a word whose bits are numbered as spec/opcode_table.json numbers them, by the number of bits the
table gives its row in whole bytes: 16 for a bus key (data word of zeros), 8 for an opcode, 24 or 32 for a header
word, 0 for the PES row, which the table gives no bits. Rows that share a word (log entry 8): an 8-bit word is
read as an opcode, a 24-bit header word as the START or IDLE row its PUSI bit selects, a 32-bit word with the audio
sync pattern as AUD_FIELDS and any other as TS_EXTRACT. -/
def tablePacket (nbits w : Nat) : Option Packet :=
  if 2 ^ nbits ≤ w then none
  else if nbits = 0 then some (.pes 0#72)
  else if nbits = 8 then some (.cmd (BitVec.ofNat 32 w))
  else if nbits = 16 then if w < 2 ^ 14 then some (.bus (BitVec.ofNat 14 w) 0#32) else none
  else if nbits = 24 then
    some (.ts (if (TsHeader.unpack (BitVec.ofNat 32 w)).pusi = 1#1 then .start else .idle) (BitVec.ofNat 32 w))
  else if nbits = 32 then
    if (AudHeader.unpack (BitVec.ofNat 32 w)).sync = audSync then some (.aud .fields (BitVec.ofNat 32 w))
    else some (.ts .extract (BitVec.ofNat 32 w))
  else none

/-- The operation that the decoder reads from a word of the opcode table. -/
def decodeTableWord (nbits w : Nat) : Option Instr :=
  match tablePacket nbits w with
  | none => none
  | some p =>
    match decode p with
    | .ok i => some i
    | .error _ => none

end Sys2Proof
end

