-- ==== Sys2Proof/Machine/State.lean ====
section
/-! DEFINITION. The state of a TSPARSE block (10_state.md), plain data, and its value after reset (rule R56).
Registers are held by their fields at their exact widths, so reserved bits have nowhere to be and read 0
(rule R55); the words that the host reads are views of them (`Machine/Operands.lean`). -/

namespace Sys2Proof.Machine

/-! ## Names -/

/-- RSM_STATE.PHASE (rules R39, R50). -/
inductive Phase where
  | waiting | start | continuing | ended
  deriving DecidableEq, Repr

/-- RSM_STATE.EVENT: what the last decoded frame did (rule R39); `noEvent` is NONE. -/
inductive Event where
  | noEvent | notTracked | start | continued | ended | idle | disc
  deriving DecidableEq, Repr

/-- STATUS.LAST_RESULT (rules R22, R147); `noResult` is NONE. -/
inductive Result where
  | noResult | ok | shortRead | badCmd
  deriving DecidableEq, Repr

/-- The conditions with a sticky STATUS bit, in bit order from bit 8 (rule R149). -/
inductive Cause where
  | unitEnded | disc | syncByteErr | fillOvf | wrBusy | pesOverrun | shortRead | badCmd | afNegStuff
  deriving DecidableEq, Repr

/-- AUD_BITRATE.KIND (rule R44); `noHeader` is NONE. -/
inductive BitrateKind where
  | noHeader | numeric | free | bad | unresolved
  deriving DecidableEq, Repr

/-- AUD_SRATE.KIND (rule R45); `noHeader` is NONE. -/
inductive SrateKind where
  | noHeader | numeric | reserved
  deriving DecidableEq, Repr

/-! ## Record registers: they describe the last decoded frame (rules R14, R53, R108) -/

/-- AF_INFO (rule R29). -/
structure AfInfo where
  valid : Bool
  pcrValid : Bool
  length : Byte
  flags : Byte
  deriving DecidableEq, Repr

/-- The five PCR registers (rules R31 to R34). -/
structure PcrRegs where
  baseHi : Bit
  baseLo : Word
  ext : BitVec 9
  ticksHi : BitVec 10
  ticksLo : Word
  deriving DecidableEq, Repr

/-- The record registers (rule R14). -/
structure Record where
  /-- TS_HDR (rule R27). -/
  tsHdr : Word
  /-- TS_FIELDS (rule R28). -/
  ts : TsHeader
  /-- AF_INFO (rule R29). -/
  af : AfInfo
  /-- AF_STUFF, sign-extended (rule R30). -/
  afStuff : Word
  /-- The PCR registers (rules R31 to R34). -/
  pcr : PcrRegs
  /-- PES_INFO.ATTACHED (rule R35). -/
  attached : Bool
  /-- RSM_STATE.EVENT (rule R39). -/
  event : Event
  /-- LAST_APPEND (rule R41). -/
  lastAppend : BitVec 8
  deriving DecidableEq, Repr

/-! ## Unit registers: they describe the current unit (rules R14, R53) -/

/-- The PES unit registers: PES_INFO.VALID and STREAM_ID, PES_START_CODE, PES_LENGTH, PES_HDL
(rules R35 to R38). -/
structure PesRegs where
  valid : Bool
  streamId : Byte
  startCode : BitVec 24
  length : BitVec 16
  hdl : BitVec 9
  deriving DecidableEq, Repr

/-- AUD_FIELDS (rule R43): three flags and the header's codes. -/
structure AudFields where
  valid : Bool
  attempted : Bool
  short : Bool
  codes : AudCodes
  deriving DecidableEq, Repr

/-- AUD_BITRATE (rule R44). -/
structure Bitrate where
  kind : BitrateKind
  kbps : BitVec 16
  deriving DecidableEq, Repr

/-- AUD_SRATE (rule R45). -/
structure Srate where
  kind : SrateKind
  hz : BitVec 16
  deriving DecidableEq, Repr

/-- AUD_FSIZE (rule R46). -/
structure FrameSize where
  valid : Bool
  size : BitVec 16
  deriving DecidableEq, Repr

/-- The audio unit registers (rules R42 to R46). -/
structure AudRegs where
  raw : Word
  fields : AudFields
  bitrate : Bitrate
  srate : Srate
  fsize : FrameSize
  deriving DecidableEq, Repr

/-! ## What the host and the platform do -/

/-- A host bus transaction `(dir, offset, data)` (rule R86); `data` is the word written by a write and unused by a
read. -/
structure Access where
  write : Bool
  offset : BitVec 13
  data : Word
  deriving DecidableEq, Repr

/-- A move of the host or of the platform: a bus access, or the reset input (rules R65, R160). -/
inductive HostMove where
  | access (a : Access)
  | reset
  deriving DecidableEq, Repr

/-! ## The state -/

/-- All the state of the block, then the model's own four fields. -/
structure State where
  /-- The pending command; STATUS.BUSY is 1 iff it is some (rules R22, R51). -/
  pending : Option Command
  /-- STATUS.LAST_RESULT (rule R22). -/
  lastResult : Result
  /-- STATUS[16:8], the sticky bits (rules R22, R149). -/
  sticky : BitVec 9
  /-- TARGET_PID.PID (rule R23). -/
  targetPid : BitVec 13
  /-- FRAME_FILL.FILL, 0 to 188 (rule R24; log entry 12). -/
  fill : Nat
  /-- The frame buffer, in the canonical form of `Memory.wf` (rule R48). -/
  fb : List Host.Cell
  /-- The record registers (rule R14). -/
  record : Record
  /-- RSM_STATE.PHASE (rule R50). -/
  phase : Phase
  /-- RSM_STATE.LAST_CC (rule R50). -/
  lastCc : BitVec 4
  /-- BUF_LEN, 0 to 3117 (rules R40, R52; log entry 12). -/
  bufLen : Nat
  /-- The payload buffer, in the canonical form of `Memory.wf` (rule R49). -/
  buf : List Host.Cell
  /-- The PES unit registers (rules R35 to R38). -/
  pes : PesRegs
  /-- The audio unit registers (rules R42 to R46). -/
  aud : AudRegs
  /-- The model's own: the moves of the host and the platform still to come, in issue order (rule R65;
  log entry 1). -/
  host : List HostMove
  /-- The model's own: how many more moves the pending command's engine step waits (LATENCY, rule R169;
  log entry 1). -/
  latency : Nat
  /-- The model's own: how many free values have been drawn (log entry 5). -/
  draws : Nat
  /-- The model's own: the data word that the last read transaction returned (rule R86; log entry 4). -/
  rdata : Word
  deriving DecidableEq, Repr

/-! ## Reset values (rule R56) -/

/-- A header with every field 0. -/
def TsHeader.zero : TsHeader :=
  { sync := 0, tei := 0, pusi := 0, tp := 0, pid := 0, tsc := 0, afc := 0, cc := 0 }

/-- Audio codes with every field 0. -/
def AudCodes.zero : AudCodes :=
  { version := 0, layer := 0, protection := 0, brIndex := 0, srIndex := 0, padding := 0, spare := 0,
    channelMode := 0, modeExt := 0, copyright := 0, original := 0, emphasis := 0 }

/-- AF_INFO = 0. -/
def AfInfo.zero : AfInfo := { valid := false, pcrValid := false, length := 0, flags := 0 }

/-- The PCR registers, all 0. -/
def PcrRegs.zero : PcrRegs := { baseHi := 0, baseLo := 0, ext := 0, ticksHi := 0, ticksLo := 0 }

/-- The record registers, all 0 (EVENT NONE). -/
def Record.zero : Record :=
  { tsHdr := 0, ts := TsHeader.zero, af := AfInfo.zero, afStuff := 0, pcr := PcrRegs.zero, attached := false,
    event := .noEvent, lastAppend := 0 }

/-- The PES unit registers, all 0. -/
def PesRegs.zero : PesRegs := { valid := false, streamId := 0, startCode := 0, length := 0, hdl := 0 }

/-- AUD_FIELDS = 0. -/
def AudFields.zero : AudFields := { valid := false, attempted := false, short := false, codes := AudCodes.zero }

/-- The audio unit registers, all 0 (KIND NONE). -/
def AudRegs.zero : AudRegs :=
  { raw := 0, fields := AudFields.zero, bitrate := { kind := .noHeader, kbps := 0 },
    srate := { kind := .noHeader, hz := 0 }, fsize := { valid := false, size := 0 } }

/-- The block right after reset (rules R56, R160): no command pending, STATUS 0, TARGET_PID 0x1FFF, FRAME_FILL 0,
every record and unit register 0, PHASE Waiting, LAST_CC 0, BUF_LEN 0. The two buffers list nothing (their
contents are unspecified and never visible, rule R161; log entry 2). No host move is waiting (log entry 5). -/
def State.reset : State where
  pending := none
  lastResult := .noResult
  sticky := 0
  targetPid := 0x1FFF#13
  fill := 0
  fb := []
  record := Record.zero
  phase := .waiting
  lastCc := 0
  bufLen := 0
  buf := []
  pes := PesRegs.zero
  aud := AudRegs.zero
  host := []
  latency := 0
  draws := 0
  rdata := 0

/-! ## How a step can stop -/

/-- The faults of the machine: none. The spec gives the block no trap, no fault and no stuck state: every
condition is a sticky bit and the run goes on (rules R151, R173; part 1 of 93_implementation_defined.md has no
fault row). With no constructor, no meaning can raise one; that is safe. -/
inductive Fault where
  deriving DecidableEq, Repr

/-- The refusals of the machine. -/
inductive Refusal where
  /-- An operation that has no meaning yet: raised only by a refused arm of `exec`, of which there is none. Safe:
  nothing can be proved about a run past it. -/
  | notModelled (mnemonic : String)
  deriving DecidableEq, Repr

end Sys2Proof.Machine
end

