-- ==== Sys2Proof/Machine/Flags.lean ====
section
/-! DEFINITION. The sticky conditions and the STATUS word (rules R22, R149, R150). There are no arithmetic flags:
this is every flag computation of the spec. -/

namespace Sys2Proof.Machine

/-- The position of a condition in STATUS[16:8]: its cause code less 8 (rule R149). -/
def Cause.index : Cause → Nat
  | .unitEnded => 0
  | .disc => 1
  | .syncByteErr => 2
  | .fillOvf => 3
  | .wrBusy => 4
  | .pesOverrun => 5
  | .shortRead => 6
  | .badCmd => 7
  | .afNegStuff => 8

/-- The cause code of a condition: its STATUS bit number (rule R149). -/
def Cause.code (c : Cause) : Nat := c.index + 8

/-- `raise STATUS.X`: the bit becomes 1; one that is already 1 stays 1 (rules R10, R150). -/
def raise (c : Cause) (s : State) : State := { s with sticky := s.sticky ||| (1#9 <<< c.index) }

/-- Raise a condition when a test holds. -/
def raiseIf (b : Bool) (c : Cause) (s : State) : State := if b then raise c s else s

/-- Whether a condition's sticky bit is 1. -/
def raised (c : Cause) (s : State) : Bool := s.sticky.getLsbD c.index

/-- STATUS.BUSY: 1 iff a command is pending (rules R22, R51). -/
def busy (s : State) : Bool := s.pending.isSome

/-- The code of LAST_RESULT (rule R22). -/
def Result.code : Result → BitVec 2
  | .noResult => 0#2
  | .ok => 1#2
  | .shortRead => 2#2
  | .badCmd => 3#2

/-- The STATUS word (rule R22): sticky bits in 16:8, LAST_RESULT in 2:1, BUSY in 0. -/
def statusWord (s : State) : Word :=
  0#15 ++ s.sticky ++ 0#5 ++ s.lastResult.code ++ BitVec.ofBool (busy s)

end Sys2Proof.Machine
end

