-- ==== Sys2Proof/Machine/Ops.lean ====
section
/-! DEFINITION. The named operations over the two buffers and the registers: reading and writing a byte, the
primitives of 40_bitfield.md, appending to the payload buffer, pushing a frame byte, the busy guard of writes, the
record attachments, retiring a command. The block takes no exception and returns from none (rules R151, R154): what
other machines do there, `raise` does here. -/

namespace Sys2Proof.Machine

/-! ## Bytes of a buffer -/

/-- What a byte that the list does not hold reads as: 0 (rule R161 allows it; log entry 2). -/
def unlisted : Byte := 0#8

/-- The byte at index `a` of a buffer. -/
def readByte : List Host.Cell → Nat → Byte
  | [], _ => unlisted
  | c :: m, a => if c.1 = a then c.2 else readByte m a

/-- A cell put in front of a list, unless it holds what an unlisted byte reads as. -/
def consCell (a : Nat) (b : Byte) (m : List Host.Cell) : List Host.Cell :=
  if b = unlisted then m else (a, b) :: m

/-- Write the byte at index `a` of a buffer, keeping its canonical form. -/
def writeByte : List Host.Cell → Nat → Byte → List Host.Cell
  | [], a, b => consCell a b []
  | c :: m, a, b =>
    if a < c.1 then consCell a b (c :: m)
    else if a = c.1 then consCell a b m
    else c :: writeByte m a b

/-- Write bytes from index `a` on, first byte at `a`. -/
def writeBytes : List Host.Cell → Nat → List Byte → List Host.Cell
  | m, _, [] => m
  | m, a, b :: bs => writeBytes (writeByte m a b) (a + 1) bs

/-- The canonical form of a buffer: indexes strictly rising, no byte listed that reads as if unlisted. -/
abbrev Memory.wf (m : List Host.Cell) : Prop :=
  m.Pairwise (fun c d => c.1 < d.1) ∧ ∀ c ∈ m, c.2 ≠ unlisted

/-- Every listed index is below `n`. -/
abbrev Memory.below (n : Nat) (m : List Host.Cell) : Prop := ∀ c ∈ m, c.1 < n

/-! ## Primitives of 40_bitfield.md -/

/-- `bits(f, i, hi, lo)` (rule R89). -/
def bits (m : List Host.Cell) (i hi lo : Nat) : BitVec (hi - lo + 1) := (readByte m i).extractLsb hi lo

/-- `be(f, i, n)`: the n bytes from index i, the first most significant (rule R90). -/
def be (m : List Host.Cell) (i : Nat) : (n : Nat) → BitVec (8 * n)
  | 0 => 0#0
  | n + 1 => be m i n ++ readByte m (i + n)

/-- Bytes i to j - 1 of a buffer, none when i ≥ j: what `append(i, j)` appends (rule R10). -/
def slice (m : List Host.Cell) (i j : Nat) : List Byte := (List.range' i (j - i)).map (readByte m)

/-! ## Fields of the frame in the frame buffer -/

/-- The header word H = be(f, 0, 4) of the frame (rules R72, R74). -/
def headerWord (s : State) : Word := be s.fb 0 4

/-- The header fields of the frame. -/
def header (s : State) : TsHeader := TsHeader.unpack (headerWord s)

/-- PID = bits(f, 1, 4, 0) ++ f[2] (rule R91). -/
def framePid (m : List Host.Cell) : BitVec 13 := bits m 1 4 0 ++ readByte m 2

/-- PCR base = be(f, 6, 4) ++ f[10][7] (rules R76, R91). UNVERIFIED: the bit layout is the spec's general knowledge
(GK4; log entry 9). -/
def pcrBase (m : List Host.Cell) : BitVec 33 := be m 6 4 ++ bits m 10 7 7

/-- PCR extension = f[10][0] ++ f[11] (rules R76, R91; GK4; log entry 9). -/
def pcrExt (m : List Host.Cell) : BitVec 9 := bits m 10 0 0 ++ readByte m 11

/-- The PES header fields of the frame, from its bytes 6 to 14 (rules R77, R104). -/
def framePes (s : State) : PesHeader := PesHeader.unpack (be s.fb 6 9)

/-! ## Operations on the state -/

/-- `append(i, j)`: append bytes to the payload buffer, buf[BUF_LEN] first (rules R10, R49). -/
def appendBytes (bs : List Byte) (s : State) : State :=
  { s with buf := writeBytes s.buf s.bufLen bs, bufLen := s.bufLen + bs.length }

/-- Push one frame byte: into fb[FILL] while FILL < 188; otherwise it is discarded with FILL_OVF (rule R134). -/
def pushByte (b : Byte) (s : State) : State :=
  if s.fill < Config.frameBytes then { s with fb := writeByte s.fb s.fill b, fill := s.fill + 1 }
  else raise .fillOvf s

/-- Push bytes in order, each as `pushByte` (rule R135). -/
def pushBytes (bs : List Byte) (s : State) : State := bs.foldl (fun t b => pushByte b t) s

/-- A write to CMD, TARGET_PID, FRAME_DATA8 or FRAME_DATA32: while BUSY = 1 it is ignored in whole and raises
WR_BUSY (rule R139). -/
def guardWrite (f : State → State) (s : State) : State := if busy s then raise .wrBusy s else f s

/-- A reserved opcode: LAST_RESULT BAD_CMD and STATUS.BAD_CMD, nothing else (rule R145). -/
def badCommand (s : State) : State := raise .badCmd { s with lastResult := .badCmd }

/-- Issue a command: it becomes pending, and the time to its engine step is drawn (rules R140, R169;
log entry 1). -/
def issue (c : Command) (s : State) : State :=
  { s with pending := some c, latency := Config.latency s.draws, draws := s.draws + 1 }

/-- The end of an engine step: LAST_RESULT, and no command pending (rules R137, R147). -/
def retire (r : Result) (s : State) : State := { s with lastResult := r, pending := none }

/-- A read returns a word (rule R86). -/
def respond (v : Word) (s : State) : State := { s with rdata := v }

/-- A read of volatile state while BUSY = 1 returns any value: a fresh free value (rule R138; log entry 3). -/
def respondFree (s : State) : State := { s with rdata := Config.busyRead s.draws, draws := s.draws + 1 }

/-- The record attachments of a decoded frame: its event, whether it made a Start, how many bytes it appended
(rule R110). -/
def attach (e : Event) (n : Nat) (s : State) : State :=
  { s with record := { s.record with event := e, attached := e == .start, lastAppend := BitVec.ofNat 8 n } }

/-- Reset of the block (rule R160): every piece of state at its reset value, a pending command lost. The host's
moves still to come, the draw counter and the word on the read bus are not the block's and stay. -/
def resetBlock (s : State) : State :=
  { State.reset with host := s.host, draws := s.draws, rdata := s.rdata }

/-! ## The address decode outside the block -/

/-- The offset of a platform byte address in the register block, none outside it (rules R19, R63; log entry 6). -/
def offsetOf (addr : Nat) : Option (BitVec 13) :=
  if Config.base ≤ addr ∧ addr < Config.base + Config.regSpace then some (BitVec.ofNat 13 (addr - Config.base))
  else none

end Sys2Proof.Machine
end

