-- ==== Sys2Proof/Machine/Operands.lean ====
section
/-! DEFINITION. What an access can name and how: the register map (rules R19 to R47), the views of the registers as
bus words, the PAYLOAD window, the lookup tables of the audio decoder (rules R127, R128), the frame-size quotient
(rule R129), the stuffing count (rule R96), and the observations that the spec defines over registers (rules R79,
R99, R132). -/

namespace Sys2Proof.Machine

/-! ## Codes of the named fields -/

/-- PHASE code (rule R39). -/
def Phase.code : Phase → BitVec 2
  | .waiting => 0#2
  | .start => 1#2
  | .continuing => 2#2
  | .ended => 3#2

/-- EVENT code (rules R39, R110). -/
def Event.code : Event → BitVec 3
  | .noEvent => 0#3
  | .notTracked => 1#3
  | .start => 2#3
  | .continued => 3#3
  | .ended => 4#3
  | .idle => 5#3
  | .disc => 6#3

/-- AUD_BITRATE.KIND code (rule R44). -/
def BitrateKind.code : BitrateKind → BitVec 3
  | .noHeader => 0#3
  | .numeric => 1#3
  | .free => 2#3
  | .bad => 3#3
  | .unresolved => 4#3

/-- AUD_SRATE.KIND code (rule R45). -/
def SrateKind.code : SrateKind → BitVec 2
  | .noHeader => 0#2
  | .numeric => 1#2
  | .reserved => 2#2

/-! ## Registers as bus words -/

/-- TS_FIELDS (rule R28). -/
def tsFieldsWord (h : TsHeader) : Word :=
  h.sync ++ h.cc ++ h.afc ++ h.tsc ++ h.tp ++ h.pusi ++ h.tei ++ h.pid

/-- AF_INFO (rule R29). -/
def afInfoWord (a : AfInfo) : Word :=
  0#8 ++ a.flags ++ a.length ++ 0#6 ++ BitVec.ofBool a.pcrValid ++ BitVec.ofBool a.valid

/-- PES_INFO (rule R35). -/
def pesInfoWord (p : PesRegs) (attached : Bool) : Word :=
  0#16 ++ p.streamId ++ 0#6 ++ BitVec.ofBool p.valid ++ BitVec.ofBool attached

/-- RSM_STATE (rule R39). -/
def rsmWord (s : State) : Word :=
  0#21 ++ s.record.event.code ++ s.lastCc ++ 0#2 ++ s.phase.code

/-- AUD_FIELDS (rule R43). -/
def audFieldsWord (f : AudFields) : Word :=
  0#4 ++ f.codes.emphasis ++ f.codes.original ++ f.codes.copyright ++ f.codes.modeExt ++ f.codes.channelMode ++
    f.codes.spare ++ f.codes.padding ++ f.codes.srIndex ++ f.codes.brIndex ++ 0#3 ++ f.codes.protection ++
    f.codes.layer ++ f.codes.version ++ 0#1 ++ BitVec.ofBool f.short ++ BitVec.ofBool f.attempted ++
    BitVec.ofBool f.valid

/-- AUD_BITRATE (rule R44). -/
def bitrateWord (b : Bitrate) : Word := 0#13 ++ b.kind.code ++ b.kbps

/-- AUD_SRATE (rule R45). -/
def srateWord (r : Srate) : Word := 0#14 ++ r.kind.code ++ r.hz

/-- AUD_FSIZE (rule R46). -/
def fsizeWord (z : FrameSize) : Word := 0#15 ++ BitVec.ofBool z.valid ++ z.size

/-! ## The register map -/

/-- The word index of an offset below the PAYLOAD window, or of one inside it: bits 1 to 0 are ignored
(rule R58). -/
def wordIndex (off : BitVec 12) : Nat := (off.extractLsb' 2 10).toNat

/-- The register at word index k of offsets 0x0000 to 0x0FFC as a read returns it (rules R19 to R46). Write-only
registers and reserved offsets read 0 (rule R55). -/
def regWord (k : Nat) (s : State) : Word :=
  match k with
  | 0 => Config.idValue
  | 1 => 0
  | 2 => statusWord s
  | 3 => s.targetPid.setWidth 32
  | 4 => (BitVec.ofNat 8 s.fill).setWidth 32
  | 5 => 0
  | 6 => 0
  | 7 => 0
  | 8 => s.record.tsHdr
  | 9 => tsFieldsWord s.record.ts
  | 10 => afInfoWord s.record.af
  | 11 => s.record.afStuff
  | 12 => s.record.pcr.baseHi.setWidth 32
  | 13 => s.record.pcr.baseLo
  | 14 => s.record.pcr.ext.setWidth 32
  | 15 => s.record.pcr.ticksHi.setWidth 32
  | 16 => s.record.pcr.ticksLo
  | 17 => pesInfoWord s.pes s.record.attached
  | 18 => s.pes.startCode.setWidth 32
  | 19 => s.pes.length.setWidth 32
  | 20 => s.pes.hdl.setWidth 32
  | 21 => rsmWord s
  | 22 => (BitVec.ofNat 13 s.bufLen).setWidth 32
  | 23 => s.record.lastAppend.setWidth 32
  | 24 => s.aud.raw
  | 25 => audFieldsWord s.aud.fields
  | 26 => bitrateWord s.aud.bitrate
  | 27 => srateWord s.aud.srate
  | 28 => fsizeWord s.aud.fsize
  | _ => 0

/-- Whether the register at word index k is one that reads as any value while BUSY = 1: the record registers, the
unit registers, RSM_STATE, BUF_LEN and LAST_APPEND, which are offsets 0x0020 to 0x0070 (rules R54, R138). -/
def volatileReg (k : Nat) : Bool := decide (8 ≤ k ∧ k ≤ 28)

/-- p(i): buf[i] below BUF_LEN and 0x00 from there on (rule R47). -/
def payloadByte (s : State) (i : Nat) : Byte := if i < s.bufLen then readByte s.buf i else 0#8

/-- The word k of the PAYLOAD window (rule R47), big-endian (rule R60). -/
def payloadWord (k : Nat) (s : State) : Word :=
  payloadByte s (4 * k) ++ payloadByte s (4 * k + 1) ++ payloadByte s (4 * k + 2) ++ payloadByte s (4 * k + 3)

/-! ## The adaptation field and the PES header -/

/-- The stuffing count f[4] - 1 - 6 * PCR (rule R96). -/
def stuffing (length : Byte) (pcr : Bool) : Int := (length.toNat : Int) - 1 - (if pcr then 6 else 0)

/-- ticks = base * 300 + ext, exact in 42 bits (rule R98). -/
def ticks (base : BitVec 33) (ext : BitVec 9) : BitVec 42 := BitVec.ofNat 42 (base.toNat * 300 + ext.toNat)

/-- HDL = f[14] + 9, 9 to 264 (rule R102). -/
def headerDataLength (hdlRaw : Byte) : BitVec 9 := hdlRaw.setWidth 9 + 9#9

/-! ## The audio tables -/

/-- The columns of the bitrate table (rules R125, R127). -/
inductive BitrateCol where
  | v1l1 | v1l2 | v1l3 | v2l1 | v2l2 | v2l3
  deriving DecidableEq, Repr

/-- col(v, l); none for the reserved version 1 and the reserved layer 0 (rule R125). -/
def bitrateCol (version layer : BitVec 2) : Option BitrateCol :=
  if version = 1#2 ∨ layer = 0#2 then none
  else if version = 3#2 then
    if layer = 3#2 then some .v1l1 else if layer = 2#2 then some .v1l2 else some .v1l3
  else
    if layer = 3#2 then some .v2l1 else if layer = 2#2 then some .v2l2 else some .v2l3

/-- A column of BITRATE, the entries for indexes 1 to 14 in kbit/s (rule R127). UNVERIFIED: every value is the spec's
general knowledge (GK9; log entry 9). -/
def bitrateColumn : BitrateCol → List Nat
  | .v1l1 => [32, 64, 96, 128, 160, 192, 224, 256, 288, 320, 352, 384, 416, 448]
  | .v1l2 => [32, 48, 56, 64, 80, 96, 112, 128, 160, 192, 224, 256, 320, 384]
  | .v1l3 => [32, 40, 48, 56, 64, 80, 96, 112, 128, 160, 192, 224, 256, 320]
  | .v2l1 => [32, 48, 56, 64, 80, 96, 112, 128, 144, 160, 176, 192, 224, 256]
  | .v2l2 => [8, 16, 24, 32, 40, 48, 56, 64, 80, 96, 112, 128, 144, 160]
  | .v2l3 => [8, 16, 24, 32, 40, 48, 56, 64, 80, 96, 112, 128, 144, 160]

/-- BITRATE[i][col] for i = 1 to 14 (rule R127). -/
def bitrateTable (i : Nat) (c : BitrateCol) : Nat := (bitrateColumn c).getD (i - 1) 0

/-- A row of SRATE, the entries for s = 0 to 2 in Hz: the columns v = 3, v = 2, v = 0 (rule R128). UNVERIFIED: every
value is the spec's general knowledge (GK10; log entry 9). -/
def srateRow (srIndex : BitVec 2) : Nat × Nat × Nat :=
  if srIndex = 0#2 then (44100, 22050, 11025)
  else if srIndex = 1#2 then (48000, 24000, 12000)
  else (32000, 16000, 8000)

/-- SRATE[s][v]; none for version 1 and for index 3 (rules R126, R128). -/
def srateTable (srIndex version : BitVec 2) : Option Nat :=
  if srIndex = 3#2 ∨ version = 1#2 then none
  else if version = 3#2 then some (srateRow srIndex).1
  else if version = 2#2 then some (srateRow srIndex).2.1
  else some (srateRow srIndex).2.2

/-- The bitrate lookup (rule R125): FREE, BAD, UNRESOLVED in that order of precedence, otherwise the table. -/
def lookupBitrate (i : BitVec 4) (version layer : BitVec 2) : Bitrate :=
  if i = 0#4 then { kind := .free, kbps := 0 }
  else if i = 15#4 then { kind := .bad, kbps := 0 }
  else match bitrateCol version layer with
    | none => { kind := .unresolved, kbps := 0 }
    | some c => { kind := .numeric, kbps := BitVec.ofNat 16 (bitrateTable i.toNat c) }

/-- The sample-rate lookup (rule R126). -/
def lookupSrate (srIndex version : BitVec 2) : Srate :=
  match srateTable srIndex version with
  | none => { kind := .reserved, hz := 0 }
  | some r => { kind := .numeric, hz := BitVec.ofNat 16 r }

/-- (144 * KBPS * 1000) div HZ + PADDING (rules R129, R133). -/
def frameSizeNat (kbps hz : BitVec 16) (padding : Bit) : Nat :=
  144 * kbps.toNat * 1000 / hz.toNat + padding.toNat

/-- The frame size as AUD_FSIZE holds it (rules R129, R130): a free value where there is no divisor or the quotient
does not fit 16 bits, which no reachable state has (log entry 10). -/
def frameSize (b : Bitrate) (r : Srate) (padding : Bit) : FrameSize :=
  if b.kind = .numeric ∧ r.kind = .numeric then
    { valid := true,
      size := if r.hz = 0#16 ∨ 2 ^ 16 ≤ frameSizeNat b.kbps r.hz padding
        then Config.frameSizeOutOfRange b.kbps r.hz padding
        else BitVec.ofNat 16 (frameSizeNat b.kbps r.hz padding) }
  else { valid := false, size := 0 }

/-! ## Observations that the spec defines over registers -/

/-- The 42-bit ticks that PCR_TICKS_HI and PCR_TICKS_LO show (rule R34). -/
def pcrTicks (s : State) : Nat := (s.record.pcr.ticksHi ++ s.record.pcr.ticksLo).toNat

/-- The PCR in seconds, the exact rational ticks / 27000000 (rule R99); the block has no register for it. -/
def pcrSeconds (s : State) : Rat := (pcrTicks s : Rat) / 27000000

/-- The outcomes of the audio decode that the registers tell apart (rule R132). -/
inductive AudioOutcome where
  | noDecode | tooShort | syncMiss | found
  deriving DecidableEq, Repr

/-- The outcome of the audio decode of the current unit (rule R132). -/
def audioOutcome (s : State) : AudioOutcome :=
  if s.aud.fields.attempted = false then .noDecode
  else if s.aud.fields.short then .tooShort
  else if s.aud.fields.valid then .found
  else .syncMiss

/-- The name of a version code (rule R79). UNVERIFIED but for code 3: general knowledge (GK8; log entry 9). -/
def versionName (v : BitVec 2) : String :=
  if v = 3#2 then "MPEG Version 1" else if v = 2#2 then "MPEG Version 2"
  else if v = 0#2 then "MPEG Version 2.5" else "reserved"

/-- The name of a layer code (rule R79). UNVERIFIED but for code 1: general knowledge (GK8; log entry 9). -/
def layerName (l : BitVec 2) : String :=
  if l = 3#2 then "Layer I" else if l = 2#2 then "Layer II" else if l = 1#2 then "Layer III" else "reserved"

/-- What a protection code means (rule R79; GK14). -/
def protectionName (p : Bit) : String := if p = 0#1 then "a CRC follows" else "none"

/-- The name of a channel-mode code (rule R79; GK8). -/
def channelModeName (m : BitVec 2) : String :=
  if m = 0#2 then "stereo" else if m = 1#2 then "joint stereo" else if m = 2#2 then "dual channel"
  else "single channel"

/-- The name of an emphasis code (rule R79; GK8, GK12). -/
def emphasisName (e : BitVec 2) : String :=
  if e = 0#2 then "none" else if e = 1#2 then "50/15 ms" else if e = 2#2 then "reserved" else "CCITT J.17"

end Sys2Proof.Machine
end

