-- ==== Sys2Proof/Machine/Adaptation.lean ====
section
/-! DEFINITION. The adaptation field and PCR decode (41_adaptation_field.md). -/

namespace Sys2Proof.Machine

/-- PCR_DECODE: base, extension and ticks from f[6] to f[11] (rules R97, R98). -/
def pcrDecode (s : State) : State :=
  let base := pcrBase s.fb
  let ext := pcrExt s.fb
  let t := ticks base ext
  { s with record := { s.record with
      pcr := { baseHi := base.extractLsb' 32 1, baseLo := base.extractLsb' 0 32, ext := ext,
               ticksHi := t.extractLsb' 32 10, ticksLo := t.extractLsb' 0 32 } } }

/-- The PCR registers of a frame with no PCR (rules R94, R95, R108). -/
def pcrClear (s : State) : State := { s with record := { s.record with pcr := PcrRegs.zero } }

/-- AF_DECODE: length f[4], flags f[5], the stuffing count, and the PCR where its flag f[5][4] is set; nothing
checks the length (rules R94, R96, R100). -/
def afDecode (s : State) : State :=
  let length := readByte s.fb 4
  let flags := readByte s.fb 5
  let pcr := flags.getLsbD 4
  let n := stuffing length pcr
  let t := raiseIf (decide (n < 0)) .afNegStuff
    { s with record := { s.record with
        af := { valid := true, pcrValid := pcr, length := length, flags := flags },
        afStuff := BitVec.ofInt 32 n } }
  if pcr then pcrDecode t else pcrClear t

/-- AF_ABSENT: AF_INFO, AF_STUFF and the PCR registers become 0 (rule R95). -/
def afAbsent (s : State) : State :=
  pcrClear { s with record := { s.record with af := AfInfo.zero, afStuff := 0 } }

/-- AF_DECODE. -/
def execAfDecode (_h : TsHeader) (s : State) : Host.Outcome State Fault Refusal := .next (afDecode s)

/-- AF_ABSENT. -/
def execAfAbsent (_h : TsHeader) (s : State) : Host.Outcome State Fault Refusal := .next (afAbsent s)

/-- PCR_DECODE. -/
def execPcrDecode (_h : TsHeader) (s : State) : Host.Outcome State Fault Refusal := .next (pcrDecode s)

end Sys2Proof.Machine
end

