-- ==== Sys2Proof/Machine/Audio.lean ====
section
/-! DEFINITION. The MPEG audio frame-header decode (45_audio_header.md). -/

namespace Sys2Proof.Machine

/-- AUD_SHORT: every audio register 0 but ATTEMPTED and SHORT (rule R123). -/
def audShort (s : State) : State :=
  { s with aud := { AudRegs.zero with
      fields := { AudFields.zero with attempted := true, short := true } } }

/-- AUD_SYNC_MISS: AUD_RAW keeps the word, AUD_FIELDS is ATTEMPTED only, the others 0 (rules R123, R124). -/
def audSyncMiss (a : AudHeader) (s : State) : State :=
  { s with aud := { AudRegs.zero with
      raw := a.pack, fields := { AudFields.zero with attempted := true } } }

/-- BR_LOOKUP (rule R125). -/
def brLookup (a : AudHeader) (s : State) : State :=
  { s with aud := { s.aud with bitrate := lookupBitrate a.codes.brIndex a.codes.version a.codes.layer } }

/-- SR_LOOKUP (rule R126). -/
def srLookup (a : AudHeader) (s : State) : State :=
  { s with aud := { s.aud with srate := lookupSrate a.codes.srIndex a.codes.version } }

/-- FSIZE, from AUD_BITRATE, AUD_SRATE and PADDING (rule R129). -/
def fsize (a : AudHeader) (s : State) : State :=
  { s with aud := { s.aud with fsize := frameSize s.aud.bitrate s.aud.srate a.codes.padding } }

/-- AUD_FIELDS: the header's codes, then BR_LOOKUP, SR_LOOKUP and FSIZE (rules R123, R124). -/
def audFields (a : AudHeader) (s : State) : State :=
  fsize a (srLookup a (brLookup a
    { s with aud := { AudRegs.zero with
        raw := a.pack, fields := { valid := true, attempted := true, short := false, codes := a.codes } } }))

/-- The audio header of the payload buffer, A = b[0] ++ b[1] ++ b[2] ++ b[3] (rules R78, R83). -/
def payloadHeader (s : State) : AudHeader := AudHeader.unpack (be s.buf 0 4)

/-- AUDIO_DECODE: which of the three outcomes (rules R83, R123, R124). -/
def audioDecode (s : State) : State :=
  if s.bufLen < 4 then audShort s
  else if (payloadHeader s).sync = audSync then audFields (payloadHeader s) s
  else audSyncMiss (payloadHeader s) s

/-- AUD_SHORT. -/
def execAudShort (s : State) : Host.Outcome State Fault Refusal := .next (audShort s)

/-- AUD_SYNC_MISS. -/
def execAudSyncMiss (a : AudHeader) (s : State) : Host.Outcome State Fault Refusal := .next (audSyncMiss a s)

/-- AUD_FIELDS. -/
def execAudFields (a : AudHeader) (s : State) : Host.Outcome State Fault Refusal := .next (audFields a s)

/-- BR_LOOKUP. -/
def execBrLookup (a : AudHeader) (s : State) : Host.Outcome State Fault Refusal := .next (brLookup a s)

/-- SR_LOOKUP. -/
def execSrLookup (a : AudHeader) (s : State) : Host.Outcome State Fault Refusal := .next (srLookup a s)

/-- FSIZE. -/
def execFsize (a : AudHeader) (s : State) : Host.Outcome State Fault Refusal := .next (fsize a s)

end Sys2Proof.Machine
end

