-- ==== Sys2Proof/Machine/Pes.lean ====
section
/-! DEFINITION. The PES header decode (42_pes_header.md). -/

namespace Sys2Proof.Machine

/-- PES_DECODE: the unit registers from the header's fields; nothing is checked (rules R101 to R103). -/
def pesDecode (p : PesHeader) (s : State) : State :=
  { s with pes := { valid := true, streamId := p.streamId, startCode := p.startCode, length := p.packetLength,
                    hdl := headerDataLength p.hdlRaw } }

/-- PES_DECODE. -/
def execPesDecode (p : PesHeader) (s : State) : Host.Outcome State Fault Refusal := .next (pesDecode p s)

end Sys2Proof.Machine
end

