-- ==== Sys2Proof/Machine/Reassembly.lean ====
section
/-! DEFINITION. The PES reassembly state machine (44_reassembly.md): the six RSM_ operations, each with the record
attachments of rule R110, and the dispatch that selects one. -/

namespace Sys2Proof.Machine

/-- RSM_NOT_TRACKED (rule R112). -/
def rsmNotTracked (s : State) : State := attach .notTracked 0 s

/-- RSM_IDLE (rule R118). -/
def rsmIdle (s : State) : State := attach .idle 0 s

/-- RSM_DISC: no transition, no append, STATUS.DISC (rule R117). -/
def rsmDisc (s : State) : State := attach .disc 0 (raise .disc s)

/-- Append the frame's bytes 4 to 187 (rules R115, R116). -/
def appendFrame (s : State) : State := appendBytes (slice s.fb 4 Config.frameBytes) s

/-- RSM_CONTINUE (rule R115). -/
def rsmContinue (h : TsHeader) (s : State) : State :=
  attach .continued 184 { appendFrame s with lastCc := h.cc, phase := .continuing }

/-- RSM_END (rule R116). -/
def rsmEnd (h : TsHeader) (s : State) : State :=
  attach .ended 184 (raise .unitEnded { appendFrame s with lastCc := h.cc, phase := .ended })

/-- The payload offset of a Start frame, 6 + HDL = 15 + f[14] (rule R114). -/
def startOffset (p : PesRegs) : Nat := 6 + p.hdl.toNat

/-- What a Start frame appends: from its payload offset to the end of the frame, or nothing with PES_OVERRUN where
the offset lies past the end (rules R113, R114; 90_conflicts.md C9). -/
def startAppend (s : State) : State :=
  if startOffset s.pes ≤ Config.frameBytes then
    appendBytes (slice s.fb (startOffset s.pes) Config.frameBytes) s
  else raise .pesOverrun s

/-- RSM_START: the PES header, the counter, a new payload buffer with the Start frame's bytes, PHASE Start, then
the audio decode on those bytes (rule R113). -/
def rsmStart (h : TsHeader) (s : State) : State :=
  let t := audioDecode { startAppend { pesDecode (framePes s) s with lastCc := h.cc, bufLen := 0 } with
    phase := .start }
  attach .start t.bufLen t

/-- (LAST_CC + 1) mod 16 (rule R120). -/
def nextCc (s : State) : BitVec 4 := s.lastCc + 1#4

/-- Which of the six operations a frame runs: on its header, TARGET_PID, PHASE and LAST_CC (rule R82, the dispatch
of 44_reassembly.md). -/
def rsmOp (h : TsHeader) (s : State) : TsOp :=
  if h.pid ≠ s.targetPid then .notTracked
  else match s.phase with
    | .waiting | .ended => if h.pusi = 1#1 then .start else .idle
    | .start | .continuing =>
      if h.cc = nextCc s then (if h.cc = 15#4 then .ends else .continues) else .disc

/-- Run the selected operation. -/
def reassemble (h : TsHeader) (s : State) : State :=
  if h.pid ≠ s.targetPid then rsmNotTracked s
  else match s.phase with
    | .waiting | .ended => if h.pusi = 1#1 then rsmStart h s else rsmIdle s
    | .start | .continuing =>
      if h.cc = nextCc s then (if h.cc = 15#4 then rsmEnd h s else rsmContinue h s) else rsmDisc s

/-- RSM_NOT_TRACKED. -/
def execRsmNotTracked (_h : TsHeader) (s : State) : Host.Outcome State Fault Refusal := .next (rsmNotTracked s)

/-- RSM_START. -/
def execRsmStart (h : TsHeader) (s : State) : Host.Outcome State Fault Refusal := .next (rsmStart h s)

/-- RSM_IDLE. -/
def execRsmIdle (_h : TsHeader) (s : State) : Host.Outcome State Fault Refusal := .next (rsmIdle s)

/-- RSM_CONTINUE. -/
def execRsmContinue (h : TsHeader) (s : State) : Host.Outcome State Fault Refusal := .next (rsmContinue h s)

/-- RSM_END. -/
def execRsmEnd (h : TsHeader) (s : State) : Host.Outcome State Fault Refusal := .next (rsmEnd h s)

/-- RSM_DISC. -/
def execRsmDisc (_h : TsHeader) (s : State) : Host.Outcome State Fault Refusal := .next (rsmDisc s)

end Sys2Proof.Machine
end

