-- ==== Sys2Proof/Machine/TsPacket.lean ====
section
/-! DEFINITION. The TS packet decode (43_ts_packet.md): TS_EXTRACT. -/

namespace Sys2Proof.Machine

/-- TS_EXTRACT and the sync check that follows it (rules R105, R106). -/
def tsExtract (h : TsHeader) (s : State) : State :=
  raiseIf (h.sync != Config.syncByte) .syncByteErr
    { s with record := { s.record with tsHdr := h.pack, ts := h } }

/-- TS_EXTRACT. -/
def execTsExtract (h : TsHeader) (s : State) : Host.Outcome State Fault Refusal := .next (tsExtract h s)

end Sys2Proof.Machine
end

