-- ==== Sys2Proof/Machine/Commands.lean ====
section
/-! DEFINITION. The commands (46_host_commands.md section 4): the engine step of each of the four defined opcodes,
and the reserved opcodes, which are refused at once with a report. Each engine step does the whole of its command
and ends with no command pending (rule R137). -/

namespace Sys2Proof.Machine

/-- Step 2 of the frame decode: the adaptation field is present iff AFC ≥ 2, that is iff f[3][5] = 1
(rules R80, R107). -/
def adaptation (h : TsHeader) (s : State) : State := if h.afc.getLsbD 1 then afDecode s else afAbsent s

/-- The frame decode of the 188 bytes in the frame buffer, in the order of rule R107. -/
def frameDecode (s : State) : State :=
  let h := header s
  reassemble h (adaptation h (tsExtract h s))

/-- The engine step of DECODE_FRAME (rule R141): the frame decode when FILL = 188, a ShortRead otherwise; FILL
becomes 0 in both cases. -/
def decodeFrame (s : State) : State :=
  if s.fill = Config.frameBytes then retire .ok { frameDecode s with fill := 0 }
  else retire .shortRead { raise .shortRead s with fill := 0 }

/-- The engine step of RSM_RESET (rule R143). -/
def rsmReset (s : State) : State :=
  retire .ok { s with
    phase := .waiting, lastCc := 0, bufLen := 0, pes := PesRegs.zero, aud := AudRegs.zero,
    record := { s.record with event := .noEvent, attached := false } }

/-- The engine step of CLEAR_STICKY (rule R144). -/
def clearSticky (s : State) : State := retire .ok { s with sticky := 0 }

/-- NOP (rule R142). -/
def execNop (s : State) : Host.Outcome State Fault Refusal := .next (retire .ok s)

/-- DECODE_FRAME. -/
def execDecodeFrame (s : State) : Host.Outcome State Fault Refusal := .next (decodeFrame s)

/-- RSM_RESET. -/
def execRsmReset (s : State) : Host.Outcome State Fault Refusal := .next (rsmReset s)

/-- CLEAR_STICKY. -/
def execClearSticky (s : State) : Host.Outcome State Fault Refusal := .next (clearSticky s)

/-- Reserved opcodes 0x04 to 0x07 (rule R145; R139 while busy). -/
def execReserved0407 (_op : BitVec 8) (s : State) : Host.Outcome State Fault Refusal := .next (guardWrite badCommand s)

/-- Reserved opcodes 0x08 to 0x0F (rule R145; R139 while busy). -/
def execReserved080f (_op : BitVec 8) (s : State) : Host.Outcome State Fault Refusal := .next (guardWrite badCommand s)

/-- Reserved opcodes 0x10 to 0x1F (rule R145; R139 while busy). -/
def execReserved101f (_op : BitVec 8) (s : State) : Host.Outcome State Fault Refusal := .next (guardWrite badCommand s)

/-- Reserved opcodes 0x20 to 0x3F (rule R145; R139 while busy). -/
def execReserved203f (_op : BitVec 8) (s : State) : Host.Outcome State Fault Refusal := .next (guardWrite badCommand s)

/-- Reserved opcodes 0x40 to 0x7F (rule R145; R139 while busy). -/
def execReserved407f (_op : BitVec 8) (s : State) : Host.Outcome State Fault Refusal := .next (guardWrite badCommand s)

/-- Reserved opcodes 0x80 to 0xFF (rule R145; R139 while busy). -/
def execReserved80ff (_op : BitVec 8) (s : State) : Host.Outcome State Fault Refusal := .next (guardWrite badCommand s)

end Sys2Proof.Machine
end

