-- ==== Sys2Proof/Machine/Bus.lean ====
section
/-! DEFINITION. The host bus transactions (46_host_commands.md sections 1, 2, 4 and 5, rules R47, R55, R58). -/

namespace Sys2Proof.Machine

/-- RD (rules R138, R146): the register at the word offset; while BUSY = 1 a volatile one reads as any value. -/
def execRd (off : BitVec 12) (s : State) : Host.Outcome State Fault Refusal :=
  .next (if busy s && volatileReg (wordIndex off) then respondFree s else respond (regWord (wordIndex off) s) s)

/-- RD_PAYLOAD (rules R47, R138): the window's word; while BUSY = 1 any value. -/
def execRdPayload (off : BitVec 12) (s : State) : Host.Outcome State Fault Refusal :=
  .next (if busy s then respondFree s else respond (payloadWord (wordIndex off) s) s)

/-- What a command word does when nothing is pending: a defined opcode becomes pending, a reserved one is refused
with a report (rules R140, R145). -/
def command (op : BitVec 8) (s : State) : State :=
  match commandOf op with
  | some c => issue c s
  | none => badCommand s

/-- WR_CMD (rules R139, R140). -/
def execWrCmd (v : Word) (s : State) : Host.Outcome State Fault Refusal :=
  .next (guardWrite (command (opcodeOf v)) s)

/-- WR_TARGET_PID (rules R136, R139): bits 31 to 13 are ignored. -/
def execWrTargetPid (v : Word) (s : State) : Host.Outcome State Fault Refusal :=
  .next (guardWrite (fun t => { t with targetPid := v.extractLsb' 0 13 }) s)

/-- PUSH8 (rules R134, R139): bits 31 to 8 are ignored. -/
def execPush8 (v : Word) (s : State) : Host.Outcome State Fault Refusal :=
  .next (guardWrite (pushByte (v.extractLsb' 0 8)) s)

/-- The four bytes of a bus word, bits 31 to 24 first (rules R60, R135). -/
def wordBytes (v : Word) : List Byte :=
  [v.extractLsb' 24 8, v.extractLsb' 16 8, v.extractLsb' 8 8, v.extractLsb' 0 8]

/-- PUSH32 (rules R135, R139). -/
def execPush32 (v : Word) (s : State) : Host.Outcome State Fault Refusal :=
  .next (guardWrite (pushBytes (wordBytes v)) s)

/-- WR_IGNORED: a write to a read-only register, to the PAYLOAD window or to a reserved offset has no effect and
raises nothing, busy or not (rules R55, R61, R139). -/
def execWrIgnored (_off : BitVec 13) (_v : Word) (s : State) : Host.Outcome State Fault Refusal := .next s

end Sys2Proof.Machine
end

