-- ==== Sys2Proof/Machine/Dispatch.lean ====
section
/-! DEFINITION. From an operation to its meaning, one arm a row of spec/opcode_table.json. -/

namespace Sys2Proof.Machine

/-- The meaning of an operation. -/
def exec (i : Instr) (s : State) : Host.Outcome State Fault Refusal :=
  match i with
  | .rd off => Sys2Proof.Machine.execRd off s
  | .rdPayload off => Sys2Proof.Machine.execRdPayload off s
  | .wrCmd v => Sys2Proof.Machine.execWrCmd v s
  | .wrTargetPid v => Sys2Proof.Machine.execWrTargetPid v s
  | .push8 v => Sys2Proof.Machine.execPush8 v s
  | .push32 v => Sys2Proof.Machine.execPush32 v s
  | .wrIgnored off v => Sys2Proof.Machine.execWrIgnored off v s
  | .nop => Sys2Proof.Machine.execNop s
  | .decodeFrame => Sys2Proof.Machine.execDecodeFrame s
  | .rsmReset => Sys2Proof.Machine.execRsmReset s
  | .clearSticky => Sys2Proof.Machine.execClearSticky s
  | .reserved0407 op => Sys2Proof.Machine.execReserved0407 op s
  | .reserved080f op => Sys2Proof.Machine.execReserved080f op s
  | .reserved101f op => Sys2Proof.Machine.execReserved101f op s
  | .reserved203f op => Sys2Proof.Machine.execReserved203f op s
  | .reserved407f op => Sys2Proof.Machine.execReserved407f op s
  | .reserved80ff op => Sys2Proof.Machine.execReserved80ff op s
  | .tsExtract h => Sys2Proof.Machine.execTsExtract h s
  | .afDecode h => Sys2Proof.Machine.execAfDecode h s
  | .afAbsent h => Sys2Proof.Machine.execAfAbsent h s
  | .pcrDecode h => Sys2Proof.Machine.execPcrDecode h s
  | .rsmNotTracked h => Sys2Proof.Machine.execRsmNotTracked h s
  | .rsmStart h => Sys2Proof.Machine.execRsmStart h s
  | .rsmIdle h => Sys2Proof.Machine.execRsmIdle h s
  | .rsmContinue h => Sys2Proof.Machine.execRsmContinue h s
  | .rsmEnd h => Sys2Proof.Machine.execRsmEnd h s
  | .rsmDisc h => Sys2Proof.Machine.execRsmDisc h s
  | .pesDecode p => Sys2Proof.Machine.execPesDecode p s
  | .audShort => Sys2Proof.Machine.execAudShort s
  | .audSyncMiss a => Sys2Proof.Machine.execAudSyncMiss a s
  | .audFields a => Sys2Proof.Machine.execAudFields a s
  | .brLookup a => Sys2Proof.Machine.execBrLookup a s
  | .srLookup a => Sys2Proof.Machine.execSrLookup a s
  | .fsize a => Sys2Proof.Machine.execFsize a s

end Sys2Proof.Machine
end

