-- ==== Sys2Proof/Machine/Fetch.lean ====
section
/-! DEFINITION. Which agent moves next, the words of the operation that its move is, and how a word of the opcode
table is placed so that it is the next move (rules R15, R65, R137, R169; log entries 1 and 8). The block fetches no
program (rules R18, R68): what it runs next is the host's next transaction or the pending command. -/

namespace Sys2Proof.Machine

/-- A move of the whole machine. -/
inductive Move where
  /-- The engine performs the pending command (rule R137). -/
  | engine (c : Command)
  /-- The host or the platform makes its next move (rules R65, R160). -/
  | host (m : HostMove)
  /-- Nobody moves: time passes. -/
  | idle
  deriving DecidableEq, Repr

/-- The next move: the engine's when a command is pending and its time has come, otherwise the host's next move,
and none where the host has none (rules R15, R137, R169). -/
def nextMove (s : State) : Move :=
  match s.pending, s.latency, s.host with
  | some c, 0, _ => .engine c
  | _, _, m :: _ => .host m
  | _, _, [] => .idle

/-- The host's move is taken off its list, and a pending command's engine step comes one move closer. -/
def advance (s : State) : State :=
  { s with host := s.host.tail, latency := if busy s then s.latency - 1 else s.latency }

/-- The words of the operation that the next move is: the pending command's word, or the transaction. -/
def fetch (s : State) : Option Packet :=
  match nextMove s with
  | .engine c => some (.cmd c.word)
  | .host (.access a) => some (.bus (busKey a.write a.offset) a.data)
  | .host .reset => none
  | .idle => none

/-- The operation of a host transaction. -/
def accessInstr (a : Access) : Instr := decodeBus (busKey a.write a.offset) a.data

/-- The operation of a pending command. -/
def commandInstr (c : Command) : Instr := decodeCmd c.word

/-! ## Frame operations of one DECODE_FRAME -/

/-- The packets of the operations that a decoded frame runs, in order: TS_EXTRACT, AF_DECODE or AF_ABSENT, one RSM_
operation (rules R82, R107). -/
def framePackets (s : State) : List Packet :=
  [.ts .extract (headerWord s),
   .ts (if (header s).afc.getLsbD 1 then .afDecode else .afAbsent) (headerWord s),
   .ts (rsmOp (header s) s) (headerWord s)]

/-- The packet of the audio operation that AUDIO_DECODE runs on the payload buffer (rule R83). -/
def audioPacket (s : State) : Packet :=
  if s.bufLen < 4 then .aud .short 0#32
  else if (payloadHeader s).sync = audSync then .aud .fields (be s.buf 0 4)
  else .aud .syncMiss (be s.buf 0 4)

/-- Run operations one after another until one does not answer a next state. -/
def execAll : List Instr → State → Host.Outcome State Fault Refusal
  | [], s => .next s
  | i :: is, s =>
    match exec i s with
    | .next t => execAll is t
    | .fault r => .fault r
    | .refused r => .refused r

/-! ## Placing a word -/

/-- A host transaction put in front of the host's moves; a command whose time has come waits for it. -/
def placeAccess (a : Access) (s : State) : State :=
  { s with host := .access a :: s.host, latency := if busy s && s.latency == 0 then 1 else s.latency }

/-- A full frame buffer and DECODE_FRAME pending with its time come. -/
def placeFrame (bytes : List Byte) (s : State) : State :=
  { s with fb := writeBytes [] 0 bytes, fill := Config.frameBytes, pending := some .decodeFrame, latency := 0 }

/-- A Start frame of the tracked stream: header 47 40 00 10, bytes 4 to 13 zero, then f[14] and what follows. -/
def placeStart (tail : List Byte) (s : State) : State :=
  placeFrame ([0x47#8, 0x40#8, 0x00#8, 0x10#8] ++ List.replicate 10 0#8 ++ tail)
    { s with targetPid := 0, phase := .waiting }

/-- The state in which the dispatch of rule R82 selects the named operation for a header. -/
def placeCondition (op : TsOp) (h : TsHeader) (s : State) : State :=
  match op with
  | .extract | .afDecode | .afAbsent | .pcrDecode => s
  | .notTracked => { s with targetPid := h.pid + 1#13 }
  | .start | .idle => { s with targetPid := h.pid, phase := .waiting }
  | .continues | .ends => { s with targetPid := h.pid, phase := .continuing, lastCc := h.cc - 1#4 }
  | .disc => { s with targetPid := h.pid, phase := .continuing, lastCc := h.cc }

/-- A packet placed so that the next step runs it: a transaction as the host's next move; a defined command as the
pending one with its time come; a reserved opcode as a write to CMD with nothing pending; a frame or audio
operation in a full frame, every other byte zero, that DECODE_FRAME decodes with it (log entry 8). -/
def place (p : Packet) (s : State) : State :=
  match p with
  | .bus key data =>
    placeAccess { write := key.getLsbD 13, offset := key.extractLsb' 0 13, data := data } s
  | .cmd w =>
    match commandOf (opcodeOf w) with
    | some c => { s with pending := some c, latency := 0 }
    | none => placeAccess { write := true, offset := 0x0004#13, data := w } { s with pending := none }
  | .ts op w =>
    placeFrame (wordBytes w ++ (if op = .pcrDecode then [0#8, 0x10#8] else []))
      (placeCondition op (TsHeader.unpack w) s)
  | .pes _ => placeStart [] s
  | .aud op w => placeStart ((if op = .short then 0xFF#8 else 0#8) :: wordBytes w) s

end Sys2Proof.Machine
end

