-- ==== Sys2Proof/Machine/Step.lean ====
section
/-! DEFINITION. One step of the machine: the next move, and how a word of the opcode table becomes it. -/

namespace Sys2Proof.Machine

/-- One step (rules R65, R137): the engine performs the pending command, or the host's next transaction takes
effect, or the reset input is asserted, or time passes. -/
def step (s : State) : Host.Outcome State Fault Refusal :=
  match nextMove s with
  | .engine c => exec (commandInstr c) s
  | .host (.access a) => exec (accessInstr a) (advance s)
  | .host .reset => .next (resetBlock (advance s))
  | .idle => .next (advance s)

/-- `s` with a word of the opcode table placed as the next move (log entry 8); `s` itself where the table has no
row of that many bits. -/
def State.withFetchWord (s : State) (nbits w : Nat) : State :=
  match tablePacket nbits w with
  | none => s
  | some p => place p s

end Sys2Proof.Machine
end

