-- ==== Sys2Proof/Machine/Assembler.lean ====
section
/-! DEFINITION. The assembler syntax of rules R87 and R88: each line as the host transactions it stands for. The
block sees only the transactions. -/

namespace Sys2Proof.Machine

/-- A read transaction `R offset` (rule R86). -/
def readAt (off : BitVec 13) : Access := { write := false, offset := off, data := 0 }

/-- A write transaction `W offset data` (rule R86). -/
def writeAt (off : BitVec 13) (v : Word) : Access := { write := true, offset := off, data := v }

/-- The lines of rule R87, registers named by their offsets. -/
inductive AsmLine where
  | rd (off : BitVec 13)
  | wr (off : BitVec 13) (imm : Word)
  | cmd (op : BitVec 8)
  | push8 (imm : BitVec 8)
  | push32 (imm : Word)
  | setpid (imm : Word)
  deriving DecidableEq, Repr

/-- The transaction of a line (rule R87). -/
def AsmLine.access : AsmLine → Access
  | .rd off => readAt off
  | .wr off imm => writeAt off imm
  | .cmd op => writeAt 0x0004#13 (op.setWidth 32)
  | .push8 imm => writeAt 0x0014#13 (imm.setWidth 32)
  | .push32 imm => writeAt 0x0018#13 imm
  | .setpid imm => writeAt 0x000C#13 imm

/-- `wait`: the host's loop of STATUS reads, of which the block sees the reads; how many is the host's
(rule R88; log entry 13). -/
def asmWait (reads : Nat) : List Access := List.replicate reads (readAt 0x0008#13)

/-- `decode`: `cmd DECODE_FRAME`, then `wait` (rule R88). -/
def asmDecode (reads : Nat) : List Access := AsmLine.access (.cmd 0x01#8) :: asmWait reads

/-- `frame B0 … B187`: one `push32` line for each four bytes, the first most significant (rule R88). -/
def asmFrame : List Byte → List Access
  | a :: b :: c :: d :: rest => AsmLine.access (.push32 (a ++ b ++ c ++ d)) :: asmFrame rest
  | _ => []

/-- `rdbuf k`: `rd 0x1000 + 4k` (rule R88). -/
def asmRdbuf (k : BitVec 10) : Access := readAt (1#1 ++ k ++ 0#2)

/-- A platform bus access as the block sees it: none when its address is outside the register block
(rules R19, R63; log entry 6). -/
def platformAccess (write : Bool) (addr : Nat) (v : Word) : Option Access :=
  (offsetOf addr).map fun off => { write := write, offset := off, data := v }

end Sys2Proof.Machine
end

