-- ==== Sys2Proof/Safety.lean ====
section
/-! DEFINITION. What holds in every state of a run, in the terms that the statements use: the canonical form of the
two buffers, the capacity bound of a unit (rule R52), the agreement of the record registers with one frame
(rule R108) and of the unit registers with one unit (rules R53, R131), what the host can see of two states
(rule R161), and sequences of decoded frames (rule R120). -/

namespace Sys2Proof.Machine

/-! ## Invariants -/

/-- The buffers are in canonical form, and only the 188 bytes of the frame buffer are ever written (rule R48). -/
def MemoryInv (s : State) : Prop :=
  Memory.wf s.fb ∧ Memory.wf s.buf ∧ Memory.below Config.frameBytes s.fb ∧ s.fill ≤ Config.frameBytes

/-- The most bytes that a unit can hold in a phase, after LAST_CC (rule R52): none before the first Start, 173
after a Start, 184 more for each accepted counter, 3117 at the end. -/
def unitBound (p : Phase) (lastCc : BitVec 4) : Nat :=
  match p with
  | .waiting => 0
  | .start => 173
  | .continuing => 173 + 184 * (lastCc.toNat + 1)
  | .ended => 3117

/-- The reassembly state: the capacity bound of rule R52 holds, no byte past it was ever written, and a unit in
Continuing never stands at counter 15, one in Ended always does (rules R115, R116, R120). -/
def ReassemblyInv (s : State) : Prop :=
  s.bufLen ≤ unitBound s.phase s.lastCc ∧ Memory.below 3117 s.buf ∧
    (s.phase = .waiting → s.lastCc = 0#4) ∧ (s.phase = .continuing → s.lastCc ≠ 15#4) ∧
    (s.phase = .ended → s.lastCc = 15#4)

/-- The record registers agree with one frame: TS_HDR is TS_FIELDS packed (rule R93), AF_INFO is valid iff AFC ≥ 2
and is 0 otherwise (rule R29), AF_STUFF is the stuffing count (rule R96), the PCR registers are 0 without a PCR and
the ticks are base * 300 + ext (rules R31 to R34, R98), ATTACHED is 1 iff the event is START (rule R35), and
LAST_APPEND is what the event appends (rule R41). -/
def RecordInv (r : Record) : Prop :=
  r.tsHdr = r.ts.pack ∧
    r.af.valid = r.ts.afc.getLsbD 1 ∧
    r.af.pcrValid = (r.af.valid && r.af.flags.getLsbD 4) ∧
    (r.af.valid = false → r.af = AfInfo.zero ∧ r.afStuff = 0#32) ∧
    (r.af.valid = true → r.afStuff.toInt = stuffing r.af.length r.af.pcrValid) ∧
    (r.af.pcrValid = false → r.pcr = PcrRegs.zero) ∧
    (r.pcr.ticksHi ++ r.pcr.ticksLo).toNat = (r.pcr.baseHi ++ r.pcr.baseLo).toNat * 300 + r.pcr.ext.toNat ∧
    r.attached = (r.event == .start) ∧
    (r.event = .start → r.lastAppend.toNat ≤ 173) ∧
    (r.event = .continued ∨ r.event = .ended → r.lastAppend = 184#8) ∧
    (r.event = .notTracked ∨ r.event = .idle ∨ r.event = .disc → r.lastAppend = 0#8) ∧
    r.lastAppend.toNat ≤ 184

/-- The audio registers agree with one decode (rules R43 to R46, R132): all 0 before it; ATTEMPTED and SHORT only;
ATTEMPTED only with the raw word of a sync miss; or a header whose codes AUD_RAW holds, with the two lookups of its
codes and the frame size of both. -/
def AudioInv (a : AudRegs) : Prop :=
  (a.fields.attempted = false → a = AudRegs.zero) ∧
    (a.fields.short = true → a.raw = 0#32 ∧ a.fields.valid = false) ∧
    (a.fields.attempted = true → a.fields.short = false →
      (a.fields.valid = true ↔ (AudHeader.unpack a.raw).sync = audSync)) ∧
    (a.fields.valid = false →
      a.fields.codes = AudCodes.zero ∧ a.bitrate = AudRegs.zero.bitrate ∧ a.srate = AudRegs.zero.srate ∧
        a.fsize = AudRegs.zero.fsize) ∧
    (a.fields.valid = true →
      a.fields.codes = AudCodes.unpack a.raw ∧
        a.bitrate = lookupBitrate a.fields.codes.brIndex a.fields.codes.version a.fields.codes.layer ∧
        a.srate = lookupSrate a.fields.codes.srIndex a.fields.codes.version ∧
        (a.fsize.valid = true ↔ a.bitrate.kind = .numeric ∧ a.srate.kind = .numeric) ∧
        (a.fsize.valid = true →
          a.fsize.size.toNat = frameSizeNat a.bitrate.kbps a.srate.hz a.fields.codes.padding) ∧
        (a.fsize.valid = false → a.fsize.size = 0#16))

/-- The unit registers agree with one unit: a PES header is valid and an audio decode was attempted iff a unit has
started since reset or RSM_RESET (rules R35, R43, R53), PES_HDL is between 9 and 264 (rule R38). -/
def UnitInv (s : State) : Prop :=
  (s.pes.valid = true ↔ s.phase ≠ .waiting) ∧
    (s.pes.valid = false → s.pes = PesRegs.zero) ∧
    (s.pes.valid = true → 9 ≤ s.pes.hdl.toNat ∧ s.pes.hdl.toNat ≤ 264) ∧
    s.aud.fields.attempted = s.pes.valid ∧ AudioInv s.aud

/-! ## What the host can see -/

/-- Two states that differ only where the spec leaves bytes unspecified and never visible: in the frame buffer from
FILL on, and in the payload buffer from BUF_LEN on (rules R47 to R49, R161). -/
def SameVisible (s t : State) : Prop :=
  t = { s with fb := t.fb, buf := t.buf } ∧
    Memory.wf s.fb ∧ Memory.wf t.fb ∧ Memory.wf s.buf ∧ Memory.wf t.buf ∧
    (∀ i, i < s.fill → readByte s.fb i = readByte t.fb i) ∧
    (∀ i, i < s.bufLen → readByte s.buf i = readByte t.buf i)

/-! ## Sequences -/

/-- The outcome is a next state with a property. -/
def Yields (o : Host.Outcome State Fault Refusal) (P : State → Prop) : Prop := ∃ t, o = .next t ∧ P t

/-- The sticky bits are those of `s`, with those of the listed conditions raised besides (rule R150). -/
def StickyIs (t s : State) (cs : List Cause) : Prop :=
  ∀ c, raised c t = (raised c s || cs.contains c)

/-- The block ignores a write in whole and raises WR_BUSY (rule R139). -/
def IgnoredBusy (i : Instr) (s : State) : Prop :=
  Yields (exec i s) fun t => t = { s with sticky := t.sticky } ∧ StickyIs t s [.wrBusy]

/-- The next move is the engine's: the pending command's time has come (rule R137). -/
def EngineMoves (s : State) (c : Command) : Prop := s.pending = some c ∧ s.latency = 0

/-- The next move is the host's or the platform's (rules R65, R160). -/
def HostMoves (s : State) (m : HostMove) : Prop :=
  (s.pending = none ∨ s.latency ≠ 0) ∧ s.host.head? = some m

/-- The state with a full frame in the frame buffer, ready for the engine step of DECODE_FRAME. -/
def loadFrame (f : List Host.Cell) (s : State) : State :=
  { s with fb := f, fill := Config.frameBytes, pending := some .decodeFrame }

/-- Decode frames one after another, each an engine step of DECODE_FRAME (rule R163, step 4). -/
def runFrames : List (List Host.Cell) → State → Host.Outcome State Fault Refusal
  | [], s => .next s
  | f :: fs, s =>
    match exec .decodeFrame (loadFrame f s) with
    | .next t => runFrames fs t
    | .fault r => .fault r
    | .refused r => .refused r

/-- How many accepted frames end a unit that stands at a counter: the first accepted counter 15 ends it, and the
counter that follows 15 is 0 (rule R120). -/
def framesToEnd (lastCc : BitVec 4) : Nat := if lastCc = 15#4 then 16 else 15 - lastCc.toNat

/-- The header fields of a frame. -/
def headerOf (f : List Host.Cell) : TsHeader := TsHeader.unpack (be f 0 4)

/-- The frames are of the tracked stream and their counters follow `cc` one by one, modulo 16 (rule R120). -/
def InSequence (pid : BitVec 13) : BitVec 4 → List (List Host.Cell) → Prop
  | _, [] => True
  | cc, f :: fs => (headerOf f).pid = pid ∧ (headerOf f).cc = cc + 1#4 ∧ InSequence pid (cc + 1#4) fs

/-- Run host transactions one after another. -/
def runAccesses (as : List Access) (s : State) : Host.Outcome State Fault Refusal := execAll (as.map accessInstr) s

/-- Take moves of the whole machine one after another. -/
def runMoves : Nat → State → Host.Outcome State Fault Refusal
  | 0, s => .next s
  | n + 1, s =>
    match step s with
    | .next t => runMoves n t
    | .fault r => .fault r
    | .refused r => .refused r

/-! ## The register map, field by field -/

/-- A field of a register: the register's offset, the field's lowest bit and width, and its value. -/
structure FieldRow where
  off : BitVec 12
  lo : Nat
  width : Nat
  value : Nat

/-- The fields of the registers from ID to FRAME_FILL (rules R20 to R24). -/
def controlFields (s : State) : List FieldRow :=
  [⟨0x000#12, 0, 32, 0x54535031⟩,
   ⟨0x008#12, 0, 1, if s.pending = none then 0 else 1⟩,
   ⟨0x008#12, 1, 2, match s.lastResult with | .noResult => 0 | .ok => 1 | .shortRead => 2 | .badCmd => 3⟩,
   ⟨0x008#12, 8, 1, (raised .unitEnded s).toNat⟩,
   ⟨0x008#12, 9, 1, (raised .disc s).toNat⟩,
   ⟨0x008#12, 10, 1, (raised .syncByteErr s).toNat⟩,
   ⟨0x008#12, 11, 1, (raised .fillOvf s).toNat⟩,
   ⟨0x008#12, 12, 1, (raised .wrBusy s).toNat⟩,
   ⟨0x008#12, 13, 1, (raised .pesOverrun s).toNat⟩,
   ⟨0x008#12, 14, 1, (raised .shortRead s).toNat⟩,
   ⟨0x008#12, 15, 1, (raised .badCmd s).toNat⟩,
   ⟨0x008#12, 16, 1, (raised .afNegStuff s).toNat⟩,
   ⟨0x00C#12, 0, 13, s.targetPid.toNat⟩,
   ⟨0x010#12, 0, 8, s.fill⟩]

/-- The fields of the record registers (rules R27 to R35, R39, R41). -/
def recordFields (s : State) : List FieldRow :=
  [⟨0x020#12, 0, 32, s.record.tsHdr.toNat⟩,
   ⟨0x024#12, 0, 13, s.record.ts.pid.toNat⟩,
   ⟨0x024#12, 13, 1, s.record.ts.tei.toNat⟩,
   ⟨0x024#12, 14, 1, s.record.ts.pusi.toNat⟩,
   ⟨0x024#12, 15, 1, s.record.ts.tp.toNat⟩,
   ⟨0x024#12, 16, 2, s.record.ts.tsc.toNat⟩,
   ⟨0x024#12, 18, 2, s.record.ts.afc.toNat⟩,
   ⟨0x024#12, 20, 4, s.record.ts.cc.toNat⟩,
   ⟨0x024#12, 24, 8, s.record.ts.sync.toNat⟩,
   ⟨0x028#12, 0, 1, s.record.af.valid.toNat⟩,
   ⟨0x028#12, 1, 1, s.record.af.pcrValid.toNat⟩,
   ⟨0x028#12, 8, 8, s.record.af.length.toNat⟩,
   ⟨0x028#12, 16, 8, s.record.af.flags.toNat⟩,
   ⟨0x02C#12, 0, 32, s.record.afStuff.toNat⟩,
   ⟨0x030#12, 0, 1, s.record.pcr.baseHi.toNat⟩,
   ⟨0x034#12, 0, 32, s.record.pcr.baseLo.toNat⟩,
   ⟨0x038#12, 0, 9, s.record.pcr.ext.toNat⟩,
   ⟨0x03C#12, 0, 10, s.record.pcr.ticksHi.toNat⟩,
   ⟨0x040#12, 0, 32, s.record.pcr.ticksLo.toNat⟩,
   ⟨0x044#12, 0, 1, s.record.attached.toNat⟩,
   ⟨0x054#12, 8, 3, match s.record.event with
     | .noEvent => 0 | .notTracked => 1 | .start => 2 | .continued => 3 | .ended => 4 | .idle => 5 | .disc => 6⟩,
   ⟨0x05C#12, 0, 8, s.record.lastAppend.toNat⟩]

/-- The fields of the unit registers and of the reassembly state (rules R35 to R40, R42 to R46). -/
def unitFields (s : State) : List FieldRow :=
  [⟨0x044#12, 1, 1, s.pes.valid.toNat⟩,
   ⟨0x044#12, 8, 8, s.pes.streamId.toNat⟩,
   ⟨0x048#12, 0, 24, s.pes.startCode.toNat⟩,
   ⟨0x04C#12, 0, 16, s.pes.length.toNat⟩,
   ⟨0x050#12, 0, 9, s.pes.hdl.toNat⟩,
   ⟨0x054#12, 0, 2, match s.phase with | .waiting => 0 | .start => 1 | .continuing => 2 | .ended => 3⟩,
   ⟨0x054#12, 4, 4, s.lastCc.toNat⟩,
   ⟨0x058#12, 0, 13, s.bufLen⟩,
   ⟨0x060#12, 0, 32, s.aud.raw.toNat⟩,
   ⟨0x064#12, 0, 1, s.aud.fields.valid.toNat⟩,
   ⟨0x064#12, 1, 1, s.aud.fields.attempted.toNat⟩,
   ⟨0x064#12, 2, 1, s.aud.fields.short.toNat⟩,
   ⟨0x064#12, 4, 2, s.aud.fields.codes.version.toNat⟩,
   ⟨0x064#12, 6, 2, s.aud.fields.codes.layer.toNat⟩,
   ⟨0x064#12, 8, 1, s.aud.fields.codes.protection.toNat⟩,
   ⟨0x064#12, 12, 4, s.aud.fields.codes.brIndex.toNat⟩,
   ⟨0x064#12, 16, 2, s.aud.fields.codes.srIndex.toNat⟩,
   ⟨0x064#12, 18, 1, s.aud.fields.codes.padding.toNat⟩,
   ⟨0x064#12, 19, 1, s.aud.fields.codes.spare.toNat⟩,
   ⟨0x064#12, 20, 2, s.aud.fields.codes.channelMode.toNat⟩,
   ⟨0x064#12, 22, 2, s.aud.fields.codes.modeExt.toNat⟩,
   ⟨0x064#12, 24, 1, s.aud.fields.codes.copyright.toNat⟩,
   ⟨0x064#12, 25, 1, s.aud.fields.codes.original.toNat⟩,
   ⟨0x064#12, 26, 2, s.aud.fields.codes.emphasis.toNat⟩,
   ⟨0x068#12, 0, 16, s.aud.bitrate.kbps.toNat⟩,
   ⟨0x068#12, 16, 3, match s.aud.bitrate.kind with
     | .noHeader => 0 | .numeric => 1 | .free => 2 | .bad => 3 | .unresolved => 4⟩,
   ⟨0x06C#12, 0, 16, s.aud.srate.hz.toNat⟩,
   ⟨0x06C#12, 16, 2, match s.aud.srate.kind with | .noHeader => 0 | .numeric => 1 | .reserved => 2⟩,
   ⟨0x070#12, 0, 16, s.aud.fsize.size.toNat⟩,
   ⟨0x070#12, 16, 1, s.aud.fsize.valid.toNat⟩]

/-- The reserved bits of the register at a word index (rules R22 to R46, R55): the bits that no field of the rule
of that register takes, and every bit of a write-only or reserved word. -/
def reservedBits (k : Nat) : Word :=
  match k with
  | 0 => 0x00000000#32
  | 2 => 0xFFFE00F8#32
  | 3 => 0xFFFFE000#32
  | 4 => 0xFFFFFF00#32
  | 8 => 0x00000000#32
  | 9 => 0x00000000#32
  | 10 => 0xFF0000FC#32
  | 11 => 0x00000000#32
  | 12 => 0xFFFFFFFE#32
  | 13 => 0x00000000#32
  | 14 => 0xFFFFFE00#32
  | 15 => 0xFFFFFC00#32
  | 16 => 0x00000000#32
  | 17 => 0xFFFF00FC#32
  | 18 => 0xFF000000#32
  | 19 => 0xFFFF0000#32
  | 20 => 0xFFFFFE00#32
  | 21 => 0xFFFFF80C#32
  | 22 => 0xFFFFE000#32
  | 23 => 0xFFFFFF00#32
  | 24 => 0x00000000#32
  | 25 => 0xF0000E08#32
  | 26 => 0xFFF80000#32
  | 27 => 0xFFFC0000#32
  | 28 => 0xFFFE0000#32
  | _ => 0xFFFFFFFF#32

end Sys2Proof.Machine
end

