-- ==== Sys2Proof/Certificates/Slice0/Obligations.lean ====
section
/-! DEFINITION. The statements for the provers, each a proposition about the model that formalises rules of spec/.
A byte of a frame is written `readByte m i` (f[i] of the frame buffer m), a field of a bus word by its bits. A frame
of an operation is the equation `t = { s with … }`: what it does not name is unchanged. -/

open Sys2Proof Sys2Proof.Machine

/-! ## Encoding -/

/-- Decoding the words of a well-formed operation gives the operation back, every operand at every value
(30_encoding.md, rules R72 to R78, R86). -/
def Obligations.DecodeEncodeRoundTrip : Prop :=
  ∀ i : Instr, i.wf = true → decode (encode i) = .ok i

/-- What the decoder accepts is well formed: it has its row's fixed bits (rules R72 to R86). -/
def Obligations.DecodedOperationsAreWellFormed : Prop :=
  ∀ (p : Packet) (i : Instr), decode p = .ok i → i.wf = true

/-- After a decoded frame TS_HDR is the first four frame bytes, and the fields of TS_FIELDS re-assembled give TS_HDR
again (rule R93). -/
def Obligations.HeaderWordRoundTrip : Prop :=
  ∀ s : State, s.fill = 188 → Yields (exec .decodeFrame s) fun t =>
    t.record.tsHdr = be s.fb 0 4 ∧
      t.record.ts.sync.toNat * 2 ^ 24 + t.record.ts.tei.toNat * 2 ^ 23 + t.record.ts.pusi.toNat * 2 ^ 22 +
        t.record.ts.tp.toNat * 2 ^ 21 + t.record.ts.pid.toNat * 2 ^ 8 + t.record.ts.tsc.toNat * 2 ^ 6 +
        t.record.ts.afc.toNat * 2 ^ 4 + t.record.ts.cc.toNat = t.record.tsHdr.toNat

/-- A transaction acts on the word at `offset & 0x1FFC`: offset bits 1 to 0 change nothing (rule R58). -/
def Obligations.OffsetLowBitsIgnored : Prop :=
  ∀ (write : Bool) (off off' : BitVec 13) (v : Word) (s : State), off &&& 0x1FFC#13 = off' &&& 0x1FFC#13 →
    exec (accessInstr ⟨write, off, v⟩) s = exec (accessInstr ⟨write, off', v⟩) s

/-- A command word selects its operation by bits 7 to 0 alone (rule R73). -/
def Obligations.CommandWordDecodes : Prop :=
  ∀ w : Word,
    decode (.cmd w) = .ok
      (let op := BitVec.ofNat 8 (w.toNat % 256)
       if w.toNat % 256 = 0x00 then .nop
       else if w.toNat % 256 = 0x01 then .decodeFrame
       else if w.toNat % 256 = 0x02 then .rsmReset
       else if w.toNat % 256 = 0x03 then .clearSticky
       else if w.toNat % 256 < 0x08 then .reserved0407 op
       else if w.toNat % 256 < 0x10 then .reserved080f op
       else if w.toNat % 256 < 0x20 then .reserved101f op
       else if w.toNat % 256 < 0x40 then .reserved203f op
       else if w.toNat % 256 < 0x80 then .reserved407f op
       else .reserved80ff op)

/-- Words written out from the encodings decode to the operations they stand for (rules R73, R74, R77, R78, R86). -/
def Obligations.SampleWordsDecode : Prop :=
  decode (.bus 0b0_0000000001000#14 0#32) = .ok (.rd 0x008#12) ∧
    decode (.bus 0b0_1000000000100#14 0#32) = .ok (.rdPayload 0x004#12) ∧
    decode (.bus 0b1_0000000010100#14 0x147#32) = .ok (.push8 0x147#32) ∧
    decode (.cmd 0x00000101#32) = .ok .decodeFrame ∧
    decode (.ts .start 0b01000111_0_1_0_0000001000100_00_11_0000#32) =
      .ok (.rsmStart { sync := 0x47, tei := 0, pusi := 1, tp := 0, pid := 0x044, tsc := 0, afc := 3, cc := 0 }) ∧
    decode (.ts .start 0x47004430#32) = .error (.notThisRow "RSM_START") ∧
    decode (.pes 0x000001_C0_0B40_8080_05#72) =
      .ok (.pesDecode { startCode := 0x000001, streamId := 0xC0, packetLength := 0x0B40, hdlRaw := 0x05 }) ∧
    decode (.aud .fields 0b11111111111_11_01_1_1001_00_0_0_01_10_0_1_00#32) =
      .ok (.audFields { sync := 0x7FF, codes := { version := 3, layer := 1, protection := 1, brIndex := 9, srIndex := 0, padding := 0, spare := 0, channelMode := 1, modeExt := 2, copyright := 0, original := 1, emphasis := 0 } })

/-! ## Steps and the two agents -/

/-- A step runs the operation that the next move's words decode to: the pending command in the state as it is, a
transaction after it is taken off the host's list (and a pending command has come one move closer). Where the next
move is neither, it is a reset or nobody's; with nothing pending and no move of the host, all state holds (rules R65,
R137, R159; log entry 1). -/
def Obligations.StepRunsTheFetchedOperation : Prop :=
  ∀ s : State,
    (∀ p i, fetch s = some p → decode p = .ok i → i.wf = true →
      (∀ c, EngineMoves s c → step s = exec i s) ∧
        (∀ m, HostMoves s m → step s = exec i { s with
            host := s.host.tail, latency := if s.pending = none then s.latency else s.latency - 1 })) ∧
      (∀ c, EngineMoves s c → fetch s = some (.cmd c.word)) ∧
      (∀ a, HostMoves s (.access a) → fetch s = some (.bus (busKey a.write a.offset) a.data)) ∧
      (fetch s = none → HostMoves s .reset ∨ s.host = []) ∧
      (s.pending = none → s.host = [] → step s = .next s)

/-- Every step answers a next state, and so does every operation in every state: no sequence of accesses makes the
block undefined (rules R151, R173). -/
def Obligations.StepAlwaysContinues : Prop :=
  (∀ s : State, ∃ t, step s = .next t) ∧ ∀ (i : Instr) (s : State), ∃ t, exec i s = .next t

/-- A pending command is performed after the moves that LATENCY gives it, whatever the host does meanwhile but reset
the block: the moves before it leave it pending, the next one is its engine step, and then no command is pending
(rules R137, R169). The count of moves is the model's (log entry 1). -/
def Obligations.PendingCommandCompletes : Prop :=
  ∀ (s : State) (c : Command), s.pending = some c → HostMove.reset ∉ s.host.take s.latency →
    Yields (runMoves s.latency s) fun u =>
      EngineMoves u c ∧ step u = exec c.instr u ∧ Yields (step u) fun t => t.pending = none

/-- While a command waits for its engine step, a transaction leaves everything alone but the read bus, the free-value
counter and WR_BUSY: the frame buffer, the frame's length, TARGET_PID and the command cannot change (rules R68, R139,
R172). -/
def Obligations.BusyHostChangesNothing : Prop :=
  ∀ (s : State) (c : Command) (a : Access), s.pending = some c → HostMoves s (.access a) →
    Yields (step s) fun t =>
      t = { s with host := s.host.tail, latency := s.latency - 1, rdata := t.rdata, draws := t.draws,
                   sticky := t.sticky } ∧
        ∀ k, k ≠ .wrBusy → raised k t = raised k s

/-- Reset puts every piece of state at its reset value; a pending command is lost without effect (rule R160). The first
clause says more than the spec: that both buffers list nothing is the model's choice where rule R161 leaves their
contents unspecified (log entry 2), and so are the latency count of 0 and that the host's later moves stay (log
entry 5). It says nothing of the draw counter and the read bus. The clauses after it are the spec's. -/
def Obligations.ResetEvent : Prop :=
  ∀ s : State, HostMoves s .reset → Yields (step s) fun t =>
    t = { State.reset with host := s.host.tail, draws := t.draws, rdata := t.rdata } ∧
      t.pending = none ∧ (∀ c, raised c t = false) ∧ t.targetPid.toNat = 0x1FFF ∧ t.fill = 0 ∧
      t.phase = .waiting ∧ t.lastCc = 0#4 ∧ t.bufLen = 0 ∧
      ∀ k, regWord k t = if k = 0 then 0x54535031#32 else if k = 3 then 0x00001FFF#32 else 0#32

/-- The registers right after reset (rule R56). -/
def Obligations.ResetValues : Prop :=
  State.reset.pending = none ∧
    (∀ k, regWord k State.reset = if k = 0 then 0x54535031#32 else if k = 3 then 0x00001FFF#32 else 0#32) ∧
    ∀ k, payloadWord k State.reset = 0#32

/-- Offsets are relative to BASE, a multiple of 0x2000; an address outside the block's 0x2000 bytes is none of its
offsets (rules R7, R19, R63). -/
def Obligations.AddressDecode : Prop :=
  Config.base % 0x2000 = 0 ∧
    (∀ off : BitVec 13, offsetOf (Config.base + off.toNat) = some off) ∧
    ∀ addr, addr < Config.base ∨ Config.base + 0x2000 ≤ addr → offsetOf addr = none

/-! ## Writes of the host -/

/-- PUSH8 (rule R134). -/
def Obligations.Push8Result : Prop :=
  ∀ (v : Word) (s : State), Memory.wf s.fb →
    (s.pending = none → s.fill < 188 → Yields (exec (.push8 v) s) fun t =>
      t = { s with fb := t.fb, fill := s.fill + 1 } ∧
        ∀ i, readByte t.fb i = if i = s.fill then BitVec.ofNat 8 (v.toNat % 256) else readByte s.fb i) ∧
    (s.pending = none → 188 ≤ s.fill → Yields (exec (.push8 v) s) fun t =>
      t = { s with sticky := t.sticky } ∧ StickyIs t s [.fillOvf]) ∧
    (s.pending ≠ none → IgnoredBusy (.push8 v) s)

/-- PUSH32: four bytes, bits 31 to 24 first, each as a PUSH8; those past byte 187 are discarded with FILL_OVF
(rule R135). -/
def Obligations.Push32Result : Prop :=
  ∀ (v : Word) (s : State), Memory.wf s.fb →
    (s.pending = none → Yields (exec (.push32 v) s) fun t =>
      t = { s with fb := t.fb, fill := s.fill + min 4 (188 - s.fill), sticky := t.sticky } ∧
        StickyIs t s (if s.fill ≤ 184 then [] else [.fillOvf]) ∧
        ∀ i, readByte t.fb i =
          if s.fill ≤ i ∧ i < s.fill + min 4 (188 - s.fill) then BitVec.ofNat 8 (v.toNat / 256 ^ (3 - (i - s.fill)))
          else readByte s.fb i) ∧
    (s.pending ≠ none → IgnoredBusy (.push32 v) s)

/-- `frame B0 … B187` is 47 PUSH32 lines, and from FILL 0 they put exactly those bytes into the frame buffer
(rules R60, R88, R135). -/
def Obligations.FrameLinesFillTheBuffer : Prop :=
  ∀ (bs : List Byte) (s : State), bs.length = 188 → Memory.wf s.fb → s.pending = none → s.fill = 0 →
    (asmFrame bs).length = 47 ∧
      Yields (runAccesses (asmFrame bs) s) fun t =>
        t = { s with fb := t.fb, fill := 188 } ∧
          ∀ i, readByte t.fb i = if h : i < bs.length then bs[i] else readByte s.fb i

/-- WR_TARGET_PID: PID becomes bits 12 to 0, nothing else changes (rule R136). -/
def Obligations.WriteTargetPidResult : Prop :=
  ∀ (v : Word) (s : State),
    (s.pending = none →
      exec (.wrTargetPid v) s = .next { s with targetPid := BitVec.ofNat 13 (v.toNat % 8192) }) ∧
    (s.pending ≠ none → IgnoredBusy (.wrTargetPid v) s)

/-- WR_CMD: a defined opcode becomes pending; a reserved one is refused; while busy the write is ignored. A write to
CMD is the only way to start the engine (rule R140). -/
def Obligations.CommandIssue : Prop :=
  (∀ (v : Word) (s : State),
    (s.pending = none → v.toNat % 256 ≤ 3 → Yields (exec (.wrCmd v) s) fun t =>
      t = { s with pending := t.pending, latency := t.latency, draws := t.draws } ∧
        t.pending = (if v.toNat % 256 = 0 then some .nop else if v.toNat % 256 = 1 then some .decodeFrame
          else if v.toNat % 256 = 2 then some .rsmReset else some .clearSticky)) ∧
    (s.pending = none → 3 < v.toNat % 256 → Yields (exec (.wrCmd v) s) fun t =>
      t = { s with lastResult := .badCmd, sticky := t.sticky } ∧ StickyIs t s [.badCmd]) ∧
    (s.pending ≠ none → IgnoredBusy (.wrCmd v) s)) ∧
  ∀ s t : State, step s = .next t → s.pending = none → t.pending ≠ none →
    ∃ a, s.host.head? = some (.access a) ∧ a.write = true ∧ a.offset &&& 0x1FFC#13 = 0x0004#13 ∧
      a.data.toNat % 256 ≤ 3

/-- The reserved opcodes, all six rows: refused at once with LAST_RESULT BAD_CMD and STATUS.BAD_CMD, nothing else;
while busy the write is ignored (rule R145). -/
def Obligations.ReservedOpcodeRefused : Prop :=
  ∀ (op : BitVec 8) (i : Instr) (s : State),
    i ∈ [.reserved0407 op, .reserved080f op, .reserved101f op, .reserved203f op, .reserved407f op,
         .reserved80ff op] →
    (s.pending = none → Yields (exec i s) fun t =>
      t = { s with lastResult := .badCmd, sticky := t.sticky } ∧ StickyIs t s [.badCmd]) ∧
    (s.pending ≠ none → IgnoredBusy i s)

/-- Writes while BUSY = 1: to CMD, TARGET_PID, FRAME_DATA8 and FRAME_DATA32 they are ignored in whole and raise
WR_BUSY, whatever opcode CMD gets; every other write is ignored as always and raises nothing (rule R139). -/
def Obligations.WritesWhileBusy : Prop :=
  ∀ (off : BitVec 13) (v : Word) (s : State), s.pending ≠ none →
    (off &&& 0x1FFC#13 ∈ [0x0004#13, 0x000C#13, 0x0014#13, 0x0018#13] →
      IgnoredBusy (accessInstr ⟨true, off, v⟩) s) ∧
    (off &&& 0x1FFC#13 ∉ [0x0004#13, 0x000C#13, 0x0014#13, 0x0018#13] →
      exec (accessInstr ⟨true, off, v⟩) s = .next s)

/-- Reserved and read-only space: a write to any offset but the four writable ones has no effect, write-only
registers and reserved offsets read 0, the reserved bits of every register read 0 and those of TARGET_PID ignore
writes (rule R55). -/
def Obligations.ReservedSpaceReadsZero : Prop :=
  (∀ (off : BitVec 13) (v : Word) (s : State), writable off = false →
    accessInstr ⟨true, off, v⟩ = .wrIgnored off v ∧ exec (.wrIgnored off v) s = .next s) ∧
  (∀ (off : BitVec 12) (s : State), off.toNat / 4 ∈ [1, 5, 6, 7] ∨ 0x074 ≤ off.toNat →
    exec (.rd off) s = .next { s with rdata := 0#32 }) ∧
  (∀ (off : BitVec 12) (s : State), s.pending = none → Yields (exec (.rd off) s) fun t =>
    t = { s with rdata := t.rdata } ∧ t.rdata &&& reservedBits (off.toNat / 4) = 0#32) ∧
  ∀ (v w : Word) (s : State), v &&& 0x1FFF#32 = w &&& 0x1FFF#32 →
    exec (.wrTargetPid v) s = exec (.wrTargetPid w) s

/-! ## Reads of the host -/

/-- RD while BUSY = 0 returns the register at the word offset and has no other effect; read again, it returns the same
word (rules R58, R61, R146). RD_PAYLOAD likewise. -/
def Obligations.IdleReadsRepeat : Prop :=
  ∀ (off : BitVec 12) (s : State), s.pending = none →
    exec (.rd off) s = .next { s with rdata := regWord (off.toNat / 4) s } ∧
      ∀ i ∈ [Instr.rd off, Instr.rdPayload off], Yields (exec i s) fun t =>
        t = { s with rdata := t.rdata } ∧ exec i t = .next t

/-- Every field of every register stands at its bits of the word that a read returns (rules R19 to R46). FILL and
BUF_LEN are the premises' bounds, which `MemoryInv` and `ReassemblyInv` give in every state of a run. -/
def Obligations.RegisterFieldsRead : Prop :=
  ∀ (s : State) (r : FieldRow), s.pending = none → s.fill ≤ 188 → s.bufLen ≤ 3117 →
    r ∈ controlFields s ++ recordFields s ++ unitFields s →
    Yields (exec (.rd r.off) s) fun t => t.rdata.toNat / 2 ^ r.lo % 2 ^ r.width = r.value

/-- STATUS reads the same fields while BUSY = 1, BUSY among them; so do ID, TARGET_PID and FRAME_FILL. The record
registers, the unit registers, RSM_STATE, BUF_LEN, LAST_APPEND and the PAYLOAD window read as any value (the next
free value), with no side effect on the block and no WR_BUSY; write-only and reserved offsets read 0 (rule R138). -/
def Obligations.ReadsWhileBusy : Prop :=
  ∀ (off : BitVec 12) (s : State), s.pending ≠ none →
    (0x020 ≤ off.toNat → off.toNat < 0x074 →
      exec (.rd off) s = .next { s with rdata := Config.busyRead s.draws, draws := s.draws + 1 }) ∧
    exec (.rdPayload off) s = .next { s with rdata := Config.busyRead s.draws, draws := s.draws + 1 } ∧
    (off.toNat / 4 ∈ [1, 5, 6, 7] ∨ 0x074 ≤ off.toNat → exec (.rd off) s = .next { s with rdata := 0#32 }) ∧
    ∀ r ∈ controlFields s, s.fill ≤ 188 → Yields (exec (.rd r.off) s) fun t =>
      t = { s with rdata := t.rdata } ∧ t.rdata.toNat / 2 ^ r.lo % 2 ^ r.width = r.value

/-- The PAYLOAD window: byte j of word k, the first most significant, is buf[4k + j] below BUF_LEN and 0 from there
on; a write to it is ignored; while BUSY = 1 a read returns any value (rule R47). -/
def Obligations.PayloadWindowRead : Prop :=
  ∀ (off : BitVec 12) (s : State),
    (s.pending = none → Yields (exec (.rdPayload off) s) fun t =>
      t = { s with rdata := t.rdata } ∧
        ∀ j < 4, t.rdata.extractLsb' (8 * (3 - j)) 8 =
          if 4 * (off.toNat / 4) + j < s.bufLen then readByte s.buf (4 * (off.toNat / 4) + j) else 0#8) ∧
    (∀ v, exec (accessInstr ⟨true, 1#1 ++ off, v⟩) s = .next s) ∧
    (s.pending ≠ none → Yields (exec (.rdPayload off) s) fun t =>
      t = { s with rdata := Config.busyRead s.draws, draws := s.draws + 1 })

/-! ## Engine steps of the commands -/

/-- NOP: LAST_RESULT becomes OK, the command is no longer pending, nothing else changes (rules R137, R142). -/
def Obligations.NopCommand : Prop :=
  ∀ s : State, exec .nop s = .next { s with lastResult := .ok, pending := none }

/-- CLEAR_STICKY: STATUS[16:8] becomes 0, a WR_BUSY raised while it was pending included (rules R137, R144). -/
def Obligations.ClearStickyCommand : Prop :=
  ∀ s : State, Yields (exec .clearSticky s) fun t =>
    t = { s with sticky := t.sticky, lastResult := .ok, pending := none } ∧ ∀ c, raised c t = false

/-- RSM_RESET: the reassembly back at Waiting, the unit registers, EVENT and ATTACHED 0, the payload window empty; not
TARGET_PID, FRAME_FILL, the frame buffer, the sticky bits or any other record register (rules R137, R143). -/
def Obligations.RsmResetCommand : Prop :=
  ∀ s : State, Yields (exec .rsmReset s) fun t =>
    t = { s with
      phase := .waiting, lastCc := 0#4, bufLen := 0, pes := t.pes, aud := t.aud,
      record := { s.record with event := .noEvent, attached := false }, lastResult := .ok, pending := none } ∧
      (∀ k ∈ [17, 18, 19, 20, 21, 22, 24, 25, 26, 27, 28], regWord k t = 0#32) ∧ ∀ k, payloadWord k t = 0#32

/-- DECODE_FRAME. With a full frame buffer it runs TS_EXTRACT, then AF_DECODE or AF_ABSENT, then exactly one RSM_
operation, each decoded from the frame's header word, selected by that word, TARGET_PID and the reassembly state
before the frame; then LAST_RESULT OK. With any other fill it is a ShortRead: LAST_RESULT and SHORT_READ, nothing
decoded. FILL becomes 0 in both cases (rules R107, R141). -/
def Obligations.DecodeFrameCommand : Prop :=
  ∀ s : State,
    (s.fill = 188 →
      let h := headerOf s.fb
      let af : Instr := if 2 ≤ h.afc.toNat then .afDecode h else .afAbsent h
      let rsm : Instr :=
        if h.pid ≠ s.targetPid then .rsmNotTracked h
        else if s.phase = .waiting ∨ s.phase = .ended then
          if h.pusi = 1#1 then .rsmStart h else .rsmIdle h
        else if h.cc.toNat = (s.lastCc.toNat + 1) % 16 then
          if h.cc = 15#4 then .rsmEnd h else .rsmContinue h
        else .rsmDisc h
      (framePackets s).mapM decode = .ok [.tsExtract h, af, rsm] ∧
        Yields (execAll [.tsExtract h, af, rsm] s) fun t =>
          exec .decodeFrame s = .next { t with lastResult := .ok, fill := 0, pending := none }) ∧
    (s.fill ≠ 188 → Yields (exec .decodeFrame s) fun t =>
      t = { s with lastResult := .shortRead, sticky := t.sticky, fill := 0, pending := none } ∧
        StickyIs t s [.shortRead])

/-- Every decoded frame rewrites every record register: what they held before does not matter, and a field that the
frame does not have is 0 (rule R108). -/
def Obligations.FreshRecordPerFrame : Prop :=
  ∀ (s : State) (r : Record), s.fill = 188 →
    exec .decodeFrame { s with record := r } = exec .decodeFrame s ∧
      Yields (exec .decodeFrame s) fun t =>
        (t.record.ts.afc.toNat < 2 → t.record.af = AfInfo.zero ∧ t.record.afStuff = 0#32) ∧
          (t.record.ts.afc.toNat < 2 ∨ t.record.af.flags.getLsbD 4 = false → t.record.pcr = PcrRegs.zero) ∧
          (t.record.event ≠ .start → t.record.attached = false) ∧
          (t.record.event = .start → t.record.lastAppend.toNat = t.bufLen) ∧
          (t.record.event = .notTracked ∨ t.record.event = .idle ∨ t.record.event = .disc →
            t.record.lastAppend = 0#8 ∧ t.bufLen = s.bufLen)

/-! ## Frame operations: header, adaptation field, PCR -/

/-- TS_EXTRACT: TS_HDR and every field of TS_FIELDS from the frame's first four bytes; besides them at most
SYNC_BYTE_ERR changes (rule R105). -/
def Obligations.TsExtractResult : Prop :=
  (∀ (h : TsHeader) (s : State), Yields (exec (.tsExtract h) s) fun t =>
    t = { s with record := { s.record with tsHdr := h.pack, ts := h }, sticky := t.sticky } ∧
      ∀ c, c ≠ .syncByteErr → raised c t = raised c s) ∧
  ∀ (f : List Host.Cell), decode (.ts .extract (be f 0 4)) = .ok (.tsExtract (headerOf f)) ∧
    (headerOf f).pack = be f 0 4 ∧
    (headerOf f).sync = readByte f 0 ∧
    (headerOf f).tei.toNat = (readByte f 1).toNat / 128 ∧
    (headerOf f).pusi.toNat = (readByte f 1).toNat / 64 % 2 ∧
    (headerOf f).tp.toNat = (readByte f 1).toNat / 32 % 2 ∧
    (headerOf f).pid.toNat = (readByte f 1).toNat % 32 * 256 + (readByte f 2).toNat ∧
    (headerOf f).tsc.toNat = (readByte f 3).toNat / 64 ∧
    (headerOf f).afc.toNat = (readByte f 3).toNat / 16 % 4 ∧
    (headerOf f).cc.toNat = (readByte f 3).toNat % 16

/-- SYNC_BYTE_ERR is raised exactly by a first byte other than 0x47, and the frame is decoded whatever it is. The value
0x47 is the spec's general knowledge (GK2; log entry 9). -/
def Obligations.SyncByteCheck : Prop :=
  ∀ (h : TsHeader) (s : State), Yields (exec (.tsExtract h) s) fun t =>
    StickyIs t s (if h.sync.toNat = 0x47 then [] else [.syncByteErr]) ∧ t.record.ts = h

/-- AF_DECODE: presence, length f[4] and flags f[5], the signed stuffing count, the PCR where its flag is 1 and zeros
where it is 0; the length is not checked; and when it is selected: by f[3][5] = 1 (rules R94, R96). -/
def Obligations.AfDecodeResult : Prop :=
  ∀ (h : TsHeader) (s : State), Yields (exec (.afDecode h) s) fun t =>
    let pcr := (readByte s.fb 5).getLsbD 4
    let stuffing : Int := ((readByte s.fb 4).toNat : Int) - 1 - 6 * (if pcr then 1 else 0)
    t = { s with
      record := { s.record with
        af := { valid := true, pcrValid := pcr, length := readByte s.fb 4, flags := readByte s.fb 5 },
        afStuff := t.record.afStuff, pcr := t.record.pcr },
      sticky := t.sticky } ∧
      t.record.afStuff.toInt = stuffing ∧ -7 ≤ stuffing ∧ stuffing ≤ 254 ∧
      StickyIs t s (if stuffing < 0 then [.afNegStuff] else []) ∧
      (pcr = true → Yields (exec (.pcrDecode h) s) fun u => t.record.pcr = u.record.pcr) ∧
      (pcr = false → ∀ k ∈ [12, 13, 14, 15, 16], regWord k t = 0#32) ∧
      ((framePackets s)[1]? = some (.ts .afDecode (headerWord s)) ↔ (readByte s.fb 3).getLsbD 5 = true)

/-- AF_ABSENT: AF_INFO, AF_STUFF and the PCR registers become 0, nothing else changes; selected by f[3][5] = 0
(rule R95). -/
def Obligations.AfAbsentResult : Prop :=
  ∀ (h : TsHeader) (s : State), Yields (exec (.afAbsent h) s) fun t =>
    t = { s with record := { s.record with
      af := t.record.af, afStuff := t.record.afStuff, pcr := t.record.pcr } } ∧
      (∀ k ∈ [10, 11, 12, 13, 14, 15, 16], regWord k t = 0#32) ∧
      ((framePackets s)[1]? = some (.ts .afAbsent (headerWord s)) ↔ (readByte s.fb 3).getLsbD 5 = false)

/-- PCR_DECODE: the base and the extension from f[6] to f[11], bits f[10][6:1] ignored; the frame says what else
changes: nothing. The layout of the six bytes is the spec's general knowledge (rule R97, GK4; log entry 9). -/
def Obligations.PcrDecodeResult : Prop :=
  ∀ (h : TsHeader) (s : State), Yields (exec (.pcrDecode h) s) fun t =>
    t = { s with record := { s.record with pcr := t.record.pcr } } ∧
      (t.record.pcr.baseHi ++ t.record.pcr.baseLo).toNat =
        (readByte s.fb 6).toNat * 2 ^ 25 + (readByte s.fb 7).toNat * 2 ^ 17 + (readByte s.fb 8).toNat * 2 ^ 9 +
          (readByte s.fb 9).toNat * 2 + (readByte s.fb 10).toNat / 128 ∧
      t.record.pcr.ext.toNat = (readByte s.fb 10).toNat % 2 * 256 + (readByte s.fb 11).toNat

/-- The ticks are base * 300 + ext exactly, without wrap, at most 2576980377811 (rule R98); the PCR in seconds is the
exact rational ticks / 27000000 of the two tick registers (rule R99). -/
def Obligations.PcrTicksExact : Prop :=
  (∀ (h : TsHeader) (s : State), Yields (exec (.pcrDecode h) s) fun t =>
    pcrTicks t = (t.record.pcr.baseHi ++ t.record.pcr.baseLo).toNat * 300 + t.record.pcr.ext.toNat ∧
      pcrTicks t ≤ 2576980377811 ∧ 2576980377811 < 2 ^ 42) ∧
    ∀ s : State, pcrSeconds s * 27000000 = ((regWord 15 s).toNat * 2 ^ 32 + (regWord 16 s).toNat : Nat)

/-! ## Frame operations: PES header and reassembly -/

/-- PES_DECODE: the unit registers from frame bytes 6 to 14, HDL = f[14] + 9 from 9 to 264 (rules R101, R102). -/
def Obligations.PesDecodeResult : Prop :=
  (∀ (p : PesHeader) (s : State), Yields (exec (.pesDecode p) s) fun t =>
    t = { s with pes := t.pes } ∧ t.pes.valid = true ∧ t.pes.startCode = p.startCode ∧
      t.pes.streamId = p.streamId ∧ t.pes.length = p.packetLength ∧ t.pes.hdl.toNat = p.hdlRaw.toNat + 9 ∧
      9 ≤ t.pes.hdl.toNat ∧ t.pes.hdl.toNat ≤ 264) ∧
  ∀ f : List Host.Cell, ∃ p : PesHeader,
    decode (.pes (be f 6 9)) = .ok (.pesDecode p) ∧ p.startCode = be f 6 3 ∧ p.streamId = readByte f 9 ∧
      p.packetLength = be f 10 2 ∧ p.hdlRaw = readByte f 14

/-- RSM_NOT_TRACKED, RSM_IDLE and RSM_DISC: no transition, no append; the event, ATTACHED 0 and LAST_APPEND 0, and DISC
for the last; and when each is selected (rules R112, R117, R118). -/
def Obligations.ReassemblyReportsOnly : Prop :=
  ∀ (h : TsHeader) (s : State),
    exec (.rsmNotTracked h) s = .next
      { s with record := { s.record with event := .notTracked, lastAppend := 0#8, attached := false } } ∧
    exec (.rsmIdle h) s = .next
      { s with record := { s.record with event := .idle, lastAppend := 0#8, attached := false } } ∧
    (Yields (exec (.rsmDisc h) s) fun t =>
      t = { s with record := { s.record with event := .disc, lastAppend := 0#8, attached := false },
                   sticky := t.sticky } ∧ StickyIs t s [.disc]) ∧
    (rsmOp h s = .notTracked ↔ h.pid ≠ s.targetPid) ∧
    (rsmOp h s = .idle ↔ h.pid = s.targetPid ∧ (s.phase = .waiting ∨ s.phase = .ended) ∧ h.pusi = 0#1) ∧
    (rsmOp h s = .disc ↔ h.pid = s.targetPid ∧ (s.phase = .start ∨ s.phase = .continuing) ∧
      h.cc.toNat ≠ (s.lastCc.toNat + 1) % 16)

/-- RSM_CONTINUE: the frame's bytes 4 to 187 are appended, LAST_CC is the frame's counter, PHASE is Continuing; and when
it is selected (rule R115). -/
def Obligations.RsmContinueResult : Prop :=
  ∀ (h : TsHeader) (s : State), Memory.wf s.buf →
    (Yields (exec (.rsmContinue h) s) fun t =>
      t = { s with
        buf := t.buf, bufLen := s.bufLen + 184, lastCc := h.cc, phase := .continuing,
        record := { s.record with event := .continued, lastAppend := 184#8, attached := false } } ∧
        ∀ i, readByte t.buf i =
          if s.bufLen ≤ i ∧ i < s.bufLen + 184 then readByte s.fb (4 + (i - s.bufLen)) else readByte s.buf i) ∧
    (rsmOp h s = .continues ↔ h.pid = s.targetPid ∧ (s.phase = .start ∨ s.phase = .continuing) ∧
      h.cc.toNat = (s.lastCc.toNat + 1) % 16 ∧ h.cc.toNat ≠ 15)

/-- RSM_END: as RSM_CONTINUE, but PHASE is Ended and UNIT_ENDED is raised; selected by counter 15 after LAST_CC 14
(rule R116). -/
def Obligations.RsmEndResult : Prop :=
  ∀ (h : TsHeader) (s : State), Memory.wf s.buf →
    (Yields (exec (.rsmEnd h) s) fun t =>
      t = { s with
        buf := t.buf, bufLen := s.bufLen + 184, lastCc := h.cc, phase := .ended, sticky := t.sticky,
        record := { s.record with event := .ended, lastAppend := 184#8, attached := false } } ∧
        StickyIs t s [.unitEnded] ∧
        ∀ i, readByte t.buf i =
          if s.bufLen ≤ i ∧ i < s.bufLen + 184 then readByte s.fb (4 + (i - s.bufLen)) else readByte s.buf i) ∧
    (rsmOp h s = .ends ↔ h.pid = s.targetPid ∧ (s.phase = .start ∨ s.phase = .continuing) ∧
      s.lastCc.toNat = 14 ∧ h.cc.toNat = 15)

/-- RSM_START: the PES header, LAST_CC the frame's counter, a new payload buffer with the frame's bytes from offset
15 + f[14] on (none, and PES_OVERRUN, where that lies past 188), PHASE Start, the event with ATTACHED 1 and the number
of bytes appended, and then the audio operation that the new buffer selects, whose result the audio registers hold (a
second run of it changes nothing); and when it is selected (rules R113, R114). -/
def Obligations.RsmStartResult : Prop :=
  ∀ (h : TsHeader) (s : State), Memory.wf s.buf →
    (Yields (exec (.rsmStart h) s) fun t =>
      let n := (readByte s.fb 14).toNat
      t = { s with
        pes := t.pes, lastCc := h.cc, bufLen := 173 - n, buf := t.buf, phase := .start, aud := t.aud,
        sticky := t.sticky,
        record := { s.record with event := .start, attached := true, lastAppend := BitVec.ofNat 8 (173 - n) } } ∧
        (∃ p, decode (.pes (be s.fb 6 9)) = .ok (.pesDecode p) ∧
          Yields (exec (.pesDecode p) s) fun u => t.pes = u.pes) ∧
        StickyIs t s (if 174 ≤ n then [.pesOverrun] else []) ∧
        (∀ i, readByte t.buf i = if i < 173 - n then readByte s.fb (15 + n + i) else readByte s.buf i) ∧
        ∃ i, decode (audioPacket t) = .ok i ∧ exec i t = .next t) ∧
    (rsmOp h s = .start ↔ h.pid = s.targetPid ∧ (s.phase = .waiting ∨ s.phase = .ended) ∧ h.pusi = 1#1)

/-- A unit ends at the first accepted counter 15: from Start or Continuing at counter s, frames of the tracked stream
with consecutive counters end it after exactly 15 - s of them, 16 where s is 15, and not before; every one of them
appends 184 bytes (rule R120). -/
def Obligations.UnitEndsAtFifteen : Prop :=
  ∀ (fs : List (List Host.Cell)) (s : State), s.phase = .start ∨ s.phase = .continuing →
    InSequence s.targetPid s.lastCc fs →
    (fs.length = framesToEnd s.lastCc → Yields (runFrames fs s) fun t =>
      t.phase = .ended ∧ t.lastCc = 15#4 ∧ raised .unitEnded t = true ∧ t.bufLen = s.bufLen + 184 * fs.length) ∧
    (fs.length < framesToEnd s.lastCc → fs ≠ [] → Yields (runFrames fs s) fun t =>
      t.phase = .continuing ∧ t.lastCc.toNat = (s.lastCc.toNat + fs.length) % 16 ∧
        raised .unitEnded t = raised .unitEnded s ∧ t.bufLen = s.bufLen + 184 * fs.length)

/-- The payload buffer only grows: but for a Start, RSM_RESET and reset, a step keeps BUF_LEN and every byte below it
or appends after them; and no frame restarts a unit in Start or Continuing, whatever its PUSI (rules R49, R119). -/
def Obligations.BufferOnlyGrows : Prop :=
  ∀ s t : State, step s = .next t →
    (¬ EngineMoves s .rsmReset → ¬ HostMoves s .reset →
      ¬ (EngineMoves s .decodeFrame ∧ t.record.event = .start ∧ s.fill = 188) →
      s.bufLen ≤ t.bufLen ∧ ∀ i, i < s.bufLen → readByte t.buf i = readByte s.buf i) ∧
    (EngineMoves s .decodeFrame → s.fill = 188 → s.phase = .start ∨ s.phase = .continuing →
      t.record.event ≠ .start ∧ t.pes = s.pes ∧ t.aud = s.aud)

/-! ## Audio operations -/

/-- AUDIO_DECODE selects AUD_SHORT below four bytes, AUD_FIELDS where the sync is 0x7FF and AUD_SYNC_MISS otherwise, on
the header word of the payload buffer's first four bytes; AUD_SHORT leaves ATTEMPTED and SHORT only, AUD_SYNC_MISS
ATTEMPTED and the raw word only (rules R123, R124). -/
def Obligations.AudShortAndSyncMiss : Prop :=
  (∀ s : State,
    decode (audioPacket s) = .ok
      (if s.bufLen < 4 then .audShort
       else if (readByte s.buf 0).toNat * 8 + (readByte s.buf 1).toNat / 32 = 0x7FF
         then .audFields (AudHeader.unpack (be s.buf 0 4))
         else .audSyncMiss (AudHeader.unpack (be s.buf 0 4)))) ∧
  (∀ s : State, Yields (exec .audShort s) fun t =>
    t = { s with aud := t.aud } ∧ regWord 24 t = 0#32 ∧ regWord 25 t = 0x00000006#32 ∧ regWord 26 t = 0#32 ∧
      regWord 27 t = 0#32 ∧ regWord 28 t = 0#32) ∧
  ∀ (a : AudHeader) (s : State), Yields (exec (.audSyncMiss a) s) fun t =>
    t = { s with aud := t.aud } ∧ regWord 24 t = a.pack ∧ regWord 25 t = 0x00000002#32 ∧ regWord 26 t = 0#32 ∧
      regWord 27 t = 0#32 ∧ regWord 28 t = 0#32

/-- AUD_FIELDS: VALID and ATTEMPTED without SHORT, the raw word and every code; then BR_LOOKUP, SR_LOOKUP and FSIZE,
whose results the registers hold (running them again changes nothing); and where each code stands in the four bytes.
The fourth byte's layout is the spec's general knowledge (rules R78, R124, GK7; log entry 9). -/
def Obligations.AudFieldsResult : Prop :=
  (∀ (a : AudHeader) (s : State), Yields (exec (.audFields a) s) fun t =>
    t = { s with aud := t.aud } ∧ t.aud.raw = a.pack ∧
      t.aud.fields = { valid := true, attempted := true, short := false, codes := a.codes } ∧
      execAll [.brLookup a, .srLookup a, .fsize a] t = .next t) ∧
  ∀ b : List Host.Cell,
    let a := AudHeader.unpack (be b 0 4)
    a.pack = be b 0 4 ∧ a.sync.toNat = (readByte b 0).toNat * 8 + (readByte b 1).toNat / 32 ∧
      a.codes.version.toNat = (readByte b 1).toNat / 8 % 4 ∧ a.codes.layer.toNat = (readByte b 1).toNat / 2 % 4 ∧
      a.codes.protection.toNat = (readByte b 1).toNat % 2 ∧ a.codes.brIndex.toNat = (readByte b 2).toNat / 16 ∧
      a.codes.srIndex.toNat = (readByte b 2).toNat / 4 % 4 ∧ a.codes.padding.toNat = (readByte b 2).toNat / 2 % 2 ∧
      a.codes.spare.toNat = (readByte b 2).toNat % 2 ∧ a.codes.channelMode.toNat = (readByte b 3).toNat / 64 ∧
      a.codes.modeExt.toNat = (readByte b 3).toNat / 16 % 4 ∧
      a.codes.copyright.toNat = (readByte b 3).toNat / 8 % 2 ∧
      a.codes.original.toNat = (readByte b 3).toNat / 4 % 2 ∧ a.codes.emphasis.toNat = (readByte b 3).toNat % 4

/-- BR_LOOKUP: FREE for index 0 and BAD for index 15 whatever the version and layer, UNRESOLVED for a reserved version
or layer, otherwise NUMERIC with the table's entry; nothing else changes (rule R125). -/
def Obligations.BrLookupResult : Prop :=
  ∀ (a : AudHeader) (s : State), Yields (exec (.brLookup a) s) fun t =>
    t = { s with aud := { s.aud with bitrate := t.aud.bitrate } } ∧
      let i := a.codes.brIndex.toNat
      let v := a.codes.version.toNat
      let l := a.codes.layer.toNat
      if i = 0 then t.aud.bitrate = ⟨.free, 0#16⟩
      else if i = 15 then t.aud.bitrate = ⟨.bad, 0#16⟩
      else if v = 1 ∨ l = 0 then t.aud.bitrate = ⟨.unresolved, 0#16⟩
      else t.aud.bitrate.kind = .numeric ∧
        t.aud.bitrate.kbps.toNat = bitrateTable i
          (match v, l with
            | 3, 3 => .v1l1
            | 3, 2 => .v1l2
            | 3, _ => .v1l3
            | _, 3 => .v2l1
            | _, 2 => .v2l2
            | _, _ => .v2l3)

/-- SR_LOOKUP: RESERVED for index 3 or version 1, otherwise NUMERIC with the table's entry; nothing else changes
(rule R126). -/
def Obligations.SrLookupResult : Prop :=
  ∀ (a : AudHeader) (s : State), Yields (exec (.srLookup a) s) fun t =>
    t = { s with aud := { s.aud with srate := t.aud.srate } } ∧
      if a.codes.srIndex.toNat = 3 ∨ a.codes.version.toNat = 1 then t.aud.srate = ⟨.reserved, 0#16⟩
      else t.aud.srate.kind = .numeric ∧
        srateTable a.codes.srIndex a.codes.version = some t.aud.srate.hz.toNat

/-- The two tables row by row (rules R127, R128), and what follows from them for frame sizes: they lie between 48 and
4609, both reached, and the product fits 26 bits (rule R130). Every table value is the spec's general knowledge (GK9,
GK10; log entry 9). -/
def Obligations.TableValuesAndRanges : Prop :=
  ([BitrateCol.v1l1, .v1l2, .v1l3, .v2l1, .v2l2, .v2l3].map fun c =>
      [bitrateTable 1 c, bitrateTable 2 c, bitrateTable 3 c, bitrateTable 4 c, bitrateTable 5 c, bitrateTable 6 c,
       bitrateTable 7 c, bitrateTable 8 c, bitrateTable 9 c, bitrateTable 10 c, bitrateTable 11 c, bitrateTable 12 c,
       bitrateTable 13 c, bitrateTable 14 c]) =
    [[32, 64, 96, 128, 160, 192, 224, 256, 288, 320, 352, 384, 416, 448],
     [32, 48, 56, 64, 80, 96, 112, 128, 160, 192, 224, 256, 320, 384],
     [32, 40, 48, 56, 64, 80, 96, 112, 128, 160, 192, 224, 256, 320],
     [32, 48, 56, 64, 80, 96, 112, 128, 144, 160, 176, 192, 224, 256],
     [8, 16, 24, 32, 40, 48, 56, 64, 80, 96, 112, 128, 144, 160],
     [8, 16, 24, 32, 40, 48, 56, 64, 80, 96, 112, 128, 144, 160]] ∧
  ([0#2, 1#2, 2#2, 3#2].map fun r => [srateTable r 3#2, srateTable r 2#2, srateTable r 0#2, srateTable r 1#2]) =
    [[some 44100, some 22050, some 11025, none], [some 48000, some 24000, some 12000, none],
     [some 32000, some 16000, some 8000, none], [none, none, none, none]] ∧
  (∀ (i : BitVec 4) (v l r : BitVec 2) (p : Bit),
    (lookupBitrate i v l).kind = .numeric → (lookupSrate r v).kind = .numeric →
      144 * (lookupBitrate i v l).kbps.toNat * 1000 < 2 ^ 26 ∧
        48 ≤ frameSizeNat (lookupBitrate i v l).kbps (lookupSrate r v).hz p ∧
        frameSizeNat (lookupBitrate i v l).kbps (lookupSrate r v).hz p ≤ 4609) ∧
  frameSizeNat (lookupBitrate 14#4 0#2 3#2).kbps (lookupSrate 2#2 0#2).hz 1#1 = 4609 ∧
  frameSizeNat (lookupBitrate 1#4 2#2 1#2).kbps (lookupSrate 1#2 2#2).hz 0#1 = 48

/-- FSIZE on registers that hold lookups: (144 * KBPS * 1000) div HZ + PADDING, exactly, where both are NUMERIC, 0 and
not valid otherwise (the latter in every state); nothing else changes (rule R129). -/
def Obligations.FsizeResult : Prop :=
  ∀ (a : AudHeader) (s : State), Yields (exec (.fsize a) s) fun t =>
    t = { s with aud := { s.aud with fsize := t.aud.fsize } } ∧
      (¬ (s.aud.bitrate.kind = .numeric ∧ s.aud.srate.kind = .numeric) → regWord 28 t = 0#32) ∧
      (s.aud.bitrate.kind = .numeric → s.aud.srate.kind = .numeric →
        t.aud.fsize.valid = true ∧
          ((∃ i v l, s.aud.bitrate = lookupBitrate i v l) → (∃ r v, s.aud.srate = lookupSrate r v) →
            0 < s.aud.srate.hz.toNat ∧
              t.aud.fsize.size.toNat =
                144 * s.aud.bitrate.kbps.toNat * 1000 / s.aud.srate.hz.toNat + a.codes.padding.toNat))

/-- The four outcomes of the audio decode can be told apart: no decode, too short, a sync miss, a header
(rule R132). -/
def Obligations.AudioOutcomesTellApart : Prop :=
  (∀ s : State, Yields (exec .audShort s) fun t => audioOutcome t = .tooShort) ∧
    (∀ (a : AudHeader) (s : State), Yields (exec (.audSyncMiss a) s) fun t => audioOutcome t = .syncMiss) ∧
    (∀ (a : AudHeader) (s : State), Yields (exec (.audFields a) s) fun t => audioOutcome t = .found) ∧
    (∀ s : State, Yields (exec .rsmReset s) fun t => audioOutcome t = .noDecode) ∧
    ∀ s : State,
      let w := regWord 25 s
      (audioOutcome s = .noDecode ↔ w.getLsbD 1 = false) ∧
        (audioOutcome s = .tooShort ↔ w.getLsbD 1 = true ∧ w.getLsbD 2 = true) ∧
        (audioOutcome s = .syncMiss ↔ w.getLsbD 1 = true ∧ w.getLsbD 2 = false ∧ w.getLsbD 0 = false) ∧
        (audioOutcome s = .found ↔ w.getLsbD 1 = true ∧ w.getLsbD 2 = false ∧ w.getLsbD 0 = true)

/-! ## Invariants and whole-machine rules -/

/-- The state after reset meets every invariant below. That both buffers list nothing there is the model's choice (log
entry 2). -/
def Obligations.ResetMeetsTheInvariants : Prop :=
  MemoryInv State.reset ∧ ReassemblyInv State.reset ∧ RecordInv State.reset.record ∧ UnitInv State.reset

/-- Every step keeps both buffers in canonical form and the frame buffer within its 188 bytes (rule R48). -/
def Obligations.StepKeepsMemoryInv : Prop :=
  ∀ s t : State, MemoryInv s → step s = .next t → MemoryInv t

/-- Every step keeps the reassembly state's invariant: BUF_LEN never exceeds 3117, and nothing is written past it
(rules R52, R115, R116, R120). -/
def Obligations.StepKeepsReassemblyInv : Prop :=
  (∀ s t : State, ReassemblyInv s → step s = .next t → ReassemblyInv t) ∧
    ∀ s : State, ReassemblyInv s → s.bufLen ≤ 3117

/-- Every step keeps the record registers in agreement with one frame (rules R29 to R35, R41, R93, R96, R98). -/
def Obligations.StepKeepsRecordInv : Prop :=
  ∀ s t : State, RecordInv s.record → step s = .next t → RecordInv t.record

/-- Every step keeps the unit registers in agreement with one unit (rules R35, R38, R43 to R46, R53, R131, R132). -/
def Obligations.StepKeepsUnitInv : Prop :=
  ∀ s t : State, UnitInv s → step s = .next t → UnitInv t

/-- Only DECODE_FRAME, RSM_RESET and reset change PHASE and LAST_CC (rule R50). -/
def Obligations.PhaseOnlyMovedBy : Prop :=
  ∀ s t : State, step s = .next t → t.phase ≠ s.phase ∨ t.lastCc ≠ s.lastCc →
    (EngineMoves s .decodeFrame ∧ s.fill = 188 ∧ t.record.event ∈ [.start, .continued, .ended]) ∨
      EngineMoves s .rsmReset ∨ HostMoves s .reset

/-- Only a Start, RSM_RESET and reset write the unit registers; only a DECODE_FRAME that reads a frame and reset write
the record registers, but for EVENT and ATTACHED, which RSM_RESET clears: a ShortRead leaves them unchanged
(rules R53, R131, R143). -/
def Obligations.UnitRegistersWrittenBy : Prop :=
  ∀ s t : State, step s = .next t →
    (t.pes ≠ s.pes ∨ t.aud ≠ s.aud →
      (EngineMoves s .decodeFrame ∧ s.fill = 188 ∧ t.record.event = .start) ∨ EngineMoves s .rsmReset ∨
        HostMoves s .reset) ∧
    (t.record ≠ s.record →
      (EngineMoves s .decodeFrame ∧ s.fill = 188) ∨
        (EngineMoves s .rsmReset ∧ t.record = { s.record with event := .noEvent, attached := false }) ∨
        HostMoves s .reset)

/-- A raised STATUS bit stays 1 until CLEAR_STICKY or reset (rule R150). -/
def Obligations.StickyBitsStay : Prop :=
  ∀ (s t : State) (c : Cause), step s = .next t → raised c s = true →
    raised c t = true ∨ EngineMoves s .clearSticky ∨ HostMoves s .reset

/-- The bytes that the spec leaves unspecified, fb from FILL on and buf from BUF_LEN on, are never visible: two states
that differ only there step to states that differ only there, with the same registers and the same word on the read
bus (rules R47 to R49, R161). -/
def Obligations.HiddenBytesInvisible : Prop :=
  ∀ s t s' t' : State, SameVisible s t → step s = .next s' → step t = .next t' → SameVisible s' t'

/-- DECODE_FRAME with fewer than 188 bytes, RSM_RESET, CLEAR_STICKY and a write of 0x1FFF to TARGET_PID leave every
register at its reset value but the record registers other than EVENT and ATTACHED, and LAST_RESULT, which is OK
(rule R162). -/
def Obligations.PartialResetSequence : Prop :=
  ∀ s : State, s.fill < 188 →
    Yields (execAll [.decodeFrame, .rsmReset, .clearSticky, .wrTargetPid 0x1FFF#32] s) fun t =>
      regWord 2 t = 0x00000002#32 ∧
        (∀ k, k ∉ [2, 8, 9, 10, 11, 12, 13, 14, 15, 16, 23] → regWord k t = regWord k State.reset) ∧
        ∀ k, payloadWord k t = 0#32
end

