-- ==== Sys2Proof/Laws/Encoding.lean ====
section
/-! SUPPORT. Taking a field out of a word that was put together from fields, and the formats that this is true
of: the header word, the audio header word and the PES bytes give back the fields they were packed from. -/

namespace Sys2Proof

/-- The header word gives back its fields (rule R74). -/
theorem TsHeader_unpack_pack (h : TsHeader) : TsHeader.unpack h.pack = h := by
  cases h
  simp only [TsHeader.unpack, TsHeader.pack, TsHeader.mk.injEq]
  refine ⟨?_, ?_, ?_, ?_, ?_, ?_, ?_, ?_⟩ <;>
    repeat first
      | exact BitVec.extractLsb'_eq_self
      | refine (BitVec.extractLsb'_append_eq_of_add_le (by decide)).trans ?_
      | refine (BitVec.extractLsb'_append_eq_of_le (by decide)).trans ?_

/-- The PES bytes give back the fields (rule R77). -/
theorem PesHeader_unpack_pack (p : PesHeader) : PesHeader.unpack p.pack = p := by
  cases p
  simp only [PesHeader.unpack, PesHeader.pack, PesHeader.mk.injEq]
  refine ⟨?_, ?_, ?_, ?_⟩ <;>
    repeat first
      | exact BitVec.extractLsb'_eq_self
      | refine (BitVec.extractLsb'_append_eq_of_add_le (by decide)).trans ?_
      | refine (BitVec.extractLsb'_append_eq_of_le (by decide)).trans ?_

/-- The audio header word gives back its fields (rule R78). -/
theorem AudHeader_unpack_pack (a : AudHeader) : AudHeader.unpack a.pack = a := by
  obtain ⟨sync, codes⟩ := a
  cases codes
  simp only [AudHeader.unpack, AudCodes.unpack, AudHeader.pack, AudHeader.mk.injEq, AudCodes.mk.injEq]
  refine ⟨?_, ?_, ?_, ?_, ?_, ?_, ?_, ?_, ?_, ?_, ?_, ?_, ?_⟩ <;>
    repeat first
      | exact BitVec.extractLsb'_eq_self
      | refine (BitVec.extractLsb'_append_eq_of_add_le (by decide)).trans ?_
      | refine (BitVec.extractLsb'_append_eq_of_le (by decide)).trans ?_

/-- An append as a sum. -/
theorem toNat_append_add {n m : Nat} (x : BitVec n) (y : BitVec m) :
    (x ++ y).toNat = x.toNat * 2 ^ m + y.toNat := by
  rw [BitVec.toNat_append, Nat.shiftLeft_eq, Nat.mul_comm _ (2 ^ m), ← Nat.two_pow_add_eq_or_of_lt y.isLt]

/-- A field of a word as a quotient and a remainder. -/
theorem toNat_extract {n : Nat} (w : BitVec n) (i k : Nat) : (w.extractLsb' i k).toNat = w.toNat / 2 ^ i % 2 ^ k := by
  simp [Nat.shiftRight_eq_div_pow]

/-- The header word as the sum of its fields (rule R93). -/
theorem TsHeader_pack_toNat (h : TsHeader) :
    h.pack.toNat =
      h.sync.toNat * 2 ^ 24 + h.tei.toNat * 2 ^ 23 + h.pusi.toNat * 2 ^ 22 + h.tp.toNat * 2 ^ 21 +
        h.pid.toNat * 2 ^ 8 + h.tsc.toNat * 2 ^ 6 + h.afc.toNat * 2 ^ 4 + h.cc.toNat := by
  have e : h.pack.toNat =
      ((((((h.sync.toNat * 2 ^ 1 + h.tei.toNat) * 2 ^ 1 + h.pusi.toNat) * 2 ^ 1 + h.tp.toNat) * 2 ^ 13 +
        h.pid.toNat) * 2 ^ 2 + h.tsc.toNat) * 2 ^ 2 + h.afc.toNat) * 2 ^ 4 + h.cc.toNat := by
    rw [← toNat_append_add, ← toNat_append_add, ← toNat_append_add, ← toNat_append_add, ← toNat_append_add,
      ← toNat_append_add, ← toNat_append_add]
    rfl
  rw [e]
  ring

/-- No bit of the header word is dropped. -/
theorem TsHeader_pack_unpack (w : Word) : (TsHeader.unpack w).pack = w := by
  apply BitVec.eq_of_toNat_eq
  rw [TsHeader_pack_toNat]
  simp only [TsHeader.unpack, toNat_extract]
  have := w.isLt
  omega

/-- Two neighbouring fields of a number together. -/
theorem field_join (x l i j k : Nat) (h : l = i + k) :
    x / 2 ^ l % 2 ^ j * 2 ^ k + x / 2 ^ i % 2 ^ k = x / 2 ^ i % 2 ^ (k + j) := by
  rw [h, Nat.pow_add 2 i k, ← Nat.div_div_eq_div_mul, Nat.pow_add 2 k j, Nat.mod_mul]
  ring

/-- No bit of the audio header word is dropped (rule R78). -/
theorem AudHeader_pack_unpack (w : Word) : (AudHeader.unpack w).pack = w := by
  apply BitVec.eq_of_toNat_eq
  have e : ∀ a : AudHeader, a.pack.toNat =
      (((((((((((a.sync.toNat * 2 ^ 2 + a.codes.version.toNat) * 2 ^ 2 + a.codes.layer.toNat) * 2 ^ 1 +
        a.codes.protection.toNat) * 2 ^ 4 + a.codes.brIndex.toNat) * 2 ^ 2 + a.codes.srIndex.toNat) * 2 ^ 1 +
        a.codes.padding.toNat) * 2 ^ 1 + a.codes.spare.toNat) * 2 ^ 2 + a.codes.channelMode.toNat) * 2 ^ 2 +
        a.codes.modeExt.toNat) * 2 ^ 1 + a.codes.copyright.toNat) * 2 ^ 1 + a.codes.original.toNat) * 2 ^ 2 +
        a.codes.emphasis.toNat := fun a => by
    rw [← toNat_append_add, ← toNat_append_add, ← toNat_append_add, ← toNat_append_add, ← toNat_append_add,
      ← toNat_append_add, ← toNat_append_add, ← toNat_append_add, ← toNat_append_add, ← toNat_append_add,
      ← toNat_append_add, ← toNat_append_add]
    rfl
  rw [e]
  simp only [AudHeader.unpack, AudCodes.unpack, toNat_extract]
  rw [field_join _ 21 19 _ 2 rfl, field_join _ 19 17 _ 2 rfl, field_join _ 17 16 _ 1 rfl, field_join _ 16 12 _ 4 rfl,
    field_join _ 12 10 _ 2 rfl, field_join _ 10 9 _ 1 rfl, field_join _ 9 8 _ 1 rfl, field_join _ 8 6 _ 2 rfl,
    field_join _ 6 4 _ 2 rfl, field_join _ 4 3 _ 1 rfl, field_join _ 3 2 _ 1 rfl, field_join _ 2 0 _ 2 rfl]
  have := w.isLt
  omega

/-- The row check accepts exactly the well-formed operations. -/
theorem checkRow_ok {m : String} {i : Instr} (h : i.wf = true) : checkRow m i = .ok i := by
  unfold checkRow; rw [if_pos h]

/-- A header word is accepted for an operation that is well formed with its fields. -/
theorem decode_ts_pack (op : TsOp) (h : TsHeader) (hw : (op.instr h).wf = true) :
    decode (.ts op h.pack) = .ok (op.instr h) := by
  simp only [decode]; rw [TsHeader_unpack_pack, checkRow_ok hw]

/-- An audio header word is accepted for an operation that is well formed with its fields. -/
theorem decode_aud_pack (op : AudOp) (a : AudHeader) (hw : (op.instr a).wf = true) :
    decode (.aud op a.pack) = .ok (op.instr a) := by
  simp only [decode]; rw [AudHeader_unpack_pack, checkRow_ok hw]

end Sys2Proof
end

