-- ==== Sys2Proof/Laws/Memory.lean ====
section
/-! SUPPORT. Reading after writing a byte of a buffer, and the canonical form that every write keeps. -/

namespace Sys2Proof.Machine

@[simp] theorem readByte_nil (a : Nat) : readByte [] a = 0#8 := rfl

theorem readByte_cons (c : Host.Cell) (m : List Host.Cell) (a : Nat) :
    readByte (c :: m) a = if c.1 = a then c.2 else readByte m a := rfl

/-- Below the first index of a canonical list nothing is listed. -/
theorem readByte_of_lt_all {m : List Host.Cell} {a : Nat} (h : ∀ c ∈ m, a < c.1) : readByte m a = 0#8 := by
  induction m with
  | nil => rfl
  | cons c m ih =>
    have hc := h c (by simp)
    rw [readByte_cons, if_neg (by omega), ih fun d hd => h d (by simp [hd])]

theorem Memory.wf_tail {c : Host.Cell} {m : List Host.Cell} (h : Memory.wf (c :: m)) : Memory.wf m :=
  ⟨(List.pairwise_cons.1 h.1).2, fun d hd => h.2 d (by simp [hd])⟩

theorem Memory.wf_head {c : Host.Cell} {m : List Host.Cell} (h : Memory.wf (c :: m)) : ∀ d ∈ m, c.1 < d.1 :=
  (List.pairwise_cons.1 h.1).1

/-- What a written cell in front of a list reads as. -/
theorem readByte_consCell (a : Nat) (b : Byte) (m : List Host.Cell) (x : Nat) (h : readByte m a = 0#8) :
    readByte (consCell a b m) x = if x = a then b else readByte m x := by
  unfold consCell unlisted
  split
  · next hb => split <;> simp_all
  · next hb => rw [readByte_cons]; simp only [eq_comm]

/-- A write leaves every other byte alone, in any list. -/
theorem readByte_writeByte_ne (m : List Host.Cell) {a x : Nat} (b : Byte) (h : x ≠ a) :
    readByte (writeByte m a b) x = readByte m x := by
  have hcons : ∀ m : List Host.Cell, readByte (consCell a b m) x = readByte m x := by
    intro m; unfold consCell; split
    · rfl
    · rw [readByte_cons, if_neg (by simpa using h.symm)]
  induction m with
  | nil => exact hcons []
  | cons c m ih =>
    unfold writeByte
    split
    · exact hcons _
    · split
      · next h2 => rw [hcons, readByte_cons, if_neg (by omega)]
      · rw [readByte_cons, readByte_cons, ih]

/-- A read after a write to the same index of a canonical list gives the byte written. -/
theorem readByte_writeByte_self {m : List Host.Cell} (h : Memory.wf m) (a : Nat) (b : Byte) :
    readByte (writeByte m a b) a = b := by
  induction m with
  | nil => rw [writeByte, readByte_consCell a b [] a rfl, if_pos rfl]
  | cons c m ih =>
    have hh := Memory.wf_head h
    unfold writeByte
    split
    · next h1 =>
      rw [readByte_consCell, if_pos rfl]
      apply readByte_of_lt_all
      intro d hd
      rcases List.mem_cons.1 hd with rfl | hd
      · exact h1
      · exact Nat.lt_trans h1 (hh d hd)
    · split
      · next h2 =>
        rw [readByte_consCell, if_pos rfl]
        exact readByte_of_lt_all fun d hd => h2 ▸ hh d hd
      · rw [readByte_cons, if_neg (by omega), ih (Memory.wf_tail h)]

/-- Reading after writing, both cases. -/
theorem readByte_writeByte {m : List Host.Cell} (h : Memory.wf m) (a : Nat) (b : Byte) (x : Nat) :
    readByte (writeByte m a b) x = if x = a then b else readByte m x := by
  split
  · next e => rw [e, readByte_writeByte_self h]
  · next e => exact readByte_writeByte_ne m b e

/-- A write lists no index but its own and those listed before. -/
theorem mem_writeByte {m : List Host.Cell} {a : Nat} {b : Byte} {d : Host.Cell} (h : d ∈ writeByte m a b) :
    d = (a, b) ∧ b ≠ 0#8 ∨ d ∈ m := by
  have hcons : ∀ {m : List Host.Cell}, d ∈ consCell a b m → d = (a, b) ∧ b ≠ 0#8 ∨ d ∈ m := by
    intro m hd
    unfold consCell unlisted at hd
    split at hd
    · exact .inr hd
    · next hb => exact (List.mem_cons.1 hd).imp (⟨·, hb⟩) id
  induction m with
  | nil => exact hcons h
  | cons c m ih =>
    unfold writeByte at h
    split at h
    · exact hcons h
    · split at h
      · exact (hcons h).imp id (by simp +contextual)
      · rcases List.mem_cons.1 h with rfl | h
        · exact .inr (by simp)
        · exact (ih h).imp id (by simp +contextual)

theorem consCell_wf {m : List Host.Cell} {a : Nat} {b : Byte} (h : Memory.wf m) (ha : ∀ c ∈ m, a < c.1) :
    Memory.wf (consCell a b m) := by
  unfold consCell
  split
  · exact h
  · next hb =>
    exact ⟨List.pairwise_cons.2 ⟨ha, h.1⟩, fun d hd => by
      rcases List.mem_cons.1 hd with rfl | hd
      · exact hb
      · exact h.2 d hd⟩

/-- A write keeps the canonical form. -/
theorem writeByte_wf {m : List Host.Cell} (h : Memory.wf m) (a : Nat) (b : Byte) : Memory.wf (writeByte m a b) := by
  induction m with
  | nil => exact consCell_wf h (by simp)
  | cons c m ih =>
    have hh := Memory.wf_head h
    have ht := Memory.wf_tail h
    unfold writeByte
    split
    · next h1 =>
      refine consCell_wf h fun d hd => ?_
      rcases List.mem_cons.1 hd with rfl | hd
      · exact h1
      · exact Nat.lt_trans h1 (hh d hd)
    · split
      · next h2 => exact consCell_wf ht fun d hd => h2 ▸ hh d hd
      · next h1 h2 =>
        refine ⟨List.pairwise_cons.2 ⟨fun d hd => ?_, (ih ht).1⟩, fun d hd => ?_⟩
        · rcases mem_writeByte hd with ⟨rfl, -⟩ | hd
          · simp only; omega
          · exact hh d hd
        · rcases List.mem_cons.1 hd with rfl | hd
          · exact h.2 d (by simp)
          · exact (ih ht).2 d hd

/-- A write below a bound keeps the list below it. -/
theorem writeByte_below {n : Nat} {m : List Host.Cell} (h : Memory.below n m) {a : Nat} (ha : a < n) (b : Byte) :
    Memory.below n (writeByte m a b) := by
  intro d hd
  rcases mem_writeByte hd with ⟨rfl, -⟩ | hd
  · exact ha
  · exact h d hd

/-- Writing several bytes keeps the canonical form. -/
theorem writeBytes_wf {m : List Host.Cell} (h : Memory.wf m) (a : Nat) (bs : List Byte) :
    Memory.wf (writeBytes m a bs) := by
  induction bs generalizing m a with
  | nil => exact h
  | cons b bs ih => exact ih (writeByte_wf h a b) _

/-- Writing several bytes below a bound keeps the list below it. -/
theorem writeBytes_below {n : Nat} {m : List Host.Cell} (h : Memory.below n m) {a : Nat} (bs : List Byte)
    (ha : a + bs.length ≤ n) : Memory.below n (writeBytes m a bs) := by
  induction bs generalizing m a with
  | nil => exact h
  | cons b bs ih =>
    rw [List.length_cons] at ha
    exact ih (writeByte_below h (by omega) b) (by omega)

/-- Writing several bytes leaves every byte outside them alone, in any list. -/
theorem readByte_writeBytes_outside (m : List Host.Cell) {a x : Nat} (bs : List Byte)
    (h : x < a ∨ a + bs.length ≤ x) : readByte (writeBytes m a bs) x = readByte m x := by
  induction bs generalizing m a with
  | nil => rfl
  | cons b bs ih =>
    rw [List.length_cons] at h
    rw [writeBytes, ih _ (by omega), readByte_writeByte_ne _ _ (by omega)]

/-- Reading one of several bytes written to a canonical list. -/
theorem readByte_writeBytes_inside {m : List Host.Cell} (h : Memory.wf m) (a : Nat) (bs : List Byte) (i : Nat)
    (hi : i < bs.length) : readByte (writeBytes m a bs) (a + i) = bs[i] := by
  induction bs generalizing m a i with
  | nil => exact absurd hi (by simp)
  | cons b bs ih =>
    cases i with
    | zero =>
      rw [writeBytes, readByte_writeBytes_outside _ _ (by omega)]
      simpa using readByte_writeByte_self h a b
    | succ i =>
      have := ih (writeByte_wf h a b) (a + 1) i (by simpa using hi)
      rw [writeBytes, List.getElem_cons_succ, ← this, Nat.add_assoc, Nat.add_comm 1 i]

@[simp] theorem length_slice (m : List Host.Cell) (i j : Nat) : (slice m i j).length = j - i := by simp [slice]

@[simp] theorem getElem_slice (m : List Host.Cell) (i j k : Nat) (h : k < (slice m i j).length) :
    (slice m i j)[k] = readByte m (i + k) := by simp [slice]

theorem slice_congr {m n : List Host.Cell} {i j : Nat} (h : ∀ k, i ≤ k → k < j → readByte m k = readByte n k) :
    slice m i j = slice n i j := by
  apply List.ext_getElem (by simp)
  intro k hk _
  rw [getElem_slice, getElem_slice]
  rw [length_slice] at hk
  exact h _ (by omega) (by omega)

theorem be_congr {m n : List Host.Cell} {i : Nat} (k : Nat) (h : ∀ x, i ≤ x → x < i + k → readByte m x = readByte n x) :
    be m i k = be n i k := by
  induction k with
  | zero => rfl
  | succ k ih => simp only [be]; rw [ih fun x h1 h2 => h x h1 (by omega), h (i + k) (by omega) (by omega)]

/-- A big-endian integer, one byte longer. -/
theorem be_toNat_succ (m : List Host.Cell) (i n : Nat) :
    (be m i (n + 1)).toNat = (be m i n).toNat * 256 + (readByte m (i + n)).toNat :=
  toNat_append_add (be m i n) (readByte m (i + n))

/-- A big-endian integer of four bytes (rule R90). -/
theorem be_four_toNat (m : List Host.Cell) (i : Nat) :
    (be m i 4).toNat =
      (readByte m i).toNat * 2 ^ 24 + (readByte m (i + 1)).toNat * 2 ^ 16 + (readByte m (i + 2)).toNat * 2 ^ 8 +
        (readByte m (i + 3)).toNat := by
  simp only [be_toNat_succ]
  simp [be]
  ring

end Sys2Proof.Machine
end

