-- ==== Sys2Proof/Laws/State.lean ====
section
/-! SUPPORT. One lemma per field of State per named update, so that no proof unfolds a record update. -/

namespace Sys2Proof.Machine

variable (s : State)

/-! `raise` -/

@[simp] theorem raise_pending (c : Cause) : (raise c s).pending = s.pending := rfl
@[simp] theorem raise_lastResult (c : Cause) : (raise c s).lastResult = s.lastResult := rfl
@[simp] theorem raise_sticky (c : Cause) : (raise c s).sticky = s.sticky ||| (1#9 <<< c.index) := rfl
@[simp] theorem raise_targetPid (c : Cause) : (raise c s).targetPid = s.targetPid := rfl
@[simp] theorem raise_fill (c : Cause) : (raise c s).fill = s.fill := rfl
@[simp] theorem raise_fb (c : Cause) : (raise c s).fb = s.fb := rfl
@[simp] theorem raise_record (c : Cause) : (raise c s).record = s.record := rfl
@[simp] theorem raise_phase (c : Cause) : (raise c s).phase = s.phase := rfl
@[simp] theorem raise_lastCc (c : Cause) : (raise c s).lastCc = s.lastCc := rfl
@[simp] theorem raise_bufLen (c : Cause) : (raise c s).bufLen = s.bufLen := rfl
@[simp] theorem raise_buf (c : Cause) : (raise c s).buf = s.buf := rfl
@[simp] theorem raise_pes (c : Cause) : (raise c s).pes = s.pes := rfl
@[simp] theorem raise_aud (c : Cause) : (raise c s).aud = s.aud := rfl
@[simp] theorem raise_host (c : Cause) : (raise c s).host = s.host := rfl
@[simp] theorem raise_latency (c : Cause) : (raise c s).latency = s.latency := rfl
@[simp] theorem raise_draws (c : Cause) : (raise c s).draws = s.draws := rfl
@[simp] theorem raise_rdata (c : Cause) : (raise c s).rdata = s.rdata := rfl

/-! `retire` -/

@[simp] theorem retire_pending (r : Result) : (retire r s).pending = none := rfl
@[simp] theorem retire_lastResult (r : Result) : (retire r s).lastResult = r := rfl
@[simp] theorem retire_sticky (r : Result) : (retire r s).sticky = s.sticky := rfl
@[simp] theorem retire_targetPid (r : Result) : (retire r s).targetPid = s.targetPid := rfl
@[simp] theorem retire_fill (r : Result) : (retire r s).fill = s.fill := rfl
@[simp] theorem retire_fb (r : Result) : (retire r s).fb = s.fb := rfl
@[simp] theorem retire_record (r : Result) : (retire r s).record = s.record := rfl
@[simp] theorem retire_phase (r : Result) : (retire r s).phase = s.phase := rfl
@[simp] theorem retire_lastCc (r : Result) : (retire r s).lastCc = s.lastCc := rfl
@[simp] theorem retire_bufLen (r : Result) : (retire r s).bufLen = s.bufLen := rfl
@[simp] theorem retire_buf (r : Result) : (retire r s).buf = s.buf := rfl
@[simp] theorem retire_pes (r : Result) : (retire r s).pes = s.pes := rfl
@[simp] theorem retire_aud (r : Result) : (retire r s).aud = s.aud := rfl
@[simp] theorem retire_host (r : Result) : (retire r s).host = s.host := rfl
@[simp] theorem retire_latency (r : Result) : (retire r s).latency = s.latency := rfl
@[simp] theorem retire_draws (r : Result) : (retire r s).draws = s.draws := rfl
@[simp] theorem retire_rdata (r : Result) : (retire r s).rdata = s.rdata := rfl

/-! `respond` -/

@[simp] theorem respond_pending (v : Word) : (respond v s).pending = s.pending := rfl
@[simp] theorem respond_lastResult (v : Word) : (respond v s).lastResult = s.lastResult := rfl
@[simp] theorem respond_sticky (v : Word) : (respond v s).sticky = s.sticky := rfl
@[simp] theorem respond_targetPid (v : Word) : (respond v s).targetPid = s.targetPid := rfl
@[simp] theorem respond_fill (v : Word) : (respond v s).fill = s.fill := rfl
@[simp] theorem respond_fb (v : Word) : (respond v s).fb = s.fb := rfl
@[simp] theorem respond_record (v : Word) : (respond v s).record = s.record := rfl
@[simp] theorem respond_phase (v : Word) : (respond v s).phase = s.phase := rfl
@[simp] theorem respond_lastCc (v : Word) : (respond v s).lastCc = s.lastCc := rfl
@[simp] theorem respond_bufLen (v : Word) : (respond v s).bufLen = s.bufLen := rfl
@[simp] theorem respond_buf (v : Word) : (respond v s).buf = s.buf := rfl
@[simp] theorem respond_pes (v : Word) : (respond v s).pes = s.pes := rfl
@[simp] theorem respond_aud (v : Word) : (respond v s).aud = s.aud := rfl
@[simp] theorem respond_host (v : Word) : (respond v s).host = s.host := rfl
@[simp] theorem respond_latency (v : Word) : (respond v s).latency = s.latency := rfl
@[simp] theorem respond_draws (v : Word) : (respond v s).draws = s.draws := rfl
@[simp] theorem respond_rdata (v : Word) : (respond v s).rdata = v := rfl

/-! `respondFree` -/

@[simp] theorem respondFree_pending : (respondFree s).pending = s.pending := rfl
@[simp] theorem respondFree_lastResult : (respondFree s).lastResult = s.lastResult := rfl
@[simp] theorem respondFree_sticky : (respondFree s).sticky = s.sticky := rfl
@[simp] theorem respondFree_targetPid : (respondFree s).targetPid = s.targetPid := rfl
@[simp] theorem respondFree_fill : (respondFree s).fill = s.fill := rfl
@[simp] theorem respondFree_fb : (respondFree s).fb = s.fb := rfl
@[simp] theorem respondFree_record : (respondFree s).record = s.record := rfl
@[simp] theorem respondFree_phase : (respondFree s).phase = s.phase := rfl
@[simp] theorem respondFree_lastCc : (respondFree s).lastCc = s.lastCc := rfl
@[simp] theorem respondFree_bufLen : (respondFree s).bufLen = s.bufLen := rfl
@[simp] theorem respondFree_buf : (respondFree s).buf = s.buf := rfl
@[simp] theorem respondFree_pes : (respondFree s).pes = s.pes := rfl
@[simp] theorem respondFree_aud : (respondFree s).aud = s.aud := rfl
@[simp] theorem respondFree_host : (respondFree s).host = s.host := rfl
@[simp] theorem respondFree_latency : (respondFree s).latency = s.latency := rfl
@[simp] theorem respondFree_draws : (respondFree s).draws = s.draws + 1 := rfl
@[simp] theorem respondFree_rdata : (respondFree s).rdata = Config.busyRead s.draws := rfl

/-! `issue` -/

@[simp] theorem issue_pending (c : Command) : (issue c s).pending = some c := rfl
@[simp] theorem issue_lastResult (c : Command) : (issue c s).lastResult = s.lastResult := rfl
@[simp] theorem issue_sticky (c : Command) : (issue c s).sticky = s.sticky := rfl
@[simp] theorem issue_targetPid (c : Command) : (issue c s).targetPid = s.targetPid := rfl
@[simp] theorem issue_fill (c : Command) : (issue c s).fill = s.fill := rfl
@[simp] theorem issue_fb (c : Command) : (issue c s).fb = s.fb := rfl
@[simp] theorem issue_record (c : Command) : (issue c s).record = s.record := rfl
@[simp] theorem issue_phase (c : Command) : (issue c s).phase = s.phase := rfl
@[simp] theorem issue_lastCc (c : Command) : (issue c s).lastCc = s.lastCc := rfl
@[simp] theorem issue_bufLen (c : Command) : (issue c s).bufLen = s.bufLen := rfl
@[simp] theorem issue_buf (c : Command) : (issue c s).buf = s.buf := rfl
@[simp] theorem issue_pes (c : Command) : (issue c s).pes = s.pes := rfl
@[simp] theorem issue_aud (c : Command) : (issue c s).aud = s.aud := rfl
@[simp] theorem issue_host (c : Command) : (issue c s).host = s.host := rfl
@[simp] theorem issue_latency (c : Command) : (issue c s).latency = Config.latency s.draws := rfl
@[simp] theorem issue_draws (c : Command) : (issue c s).draws = s.draws + 1 := rfl
@[simp] theorem issue_rdata (c : Command) : (issue c s).rdata = s.rdata := rfl

/-! `appendBytes` -/

@[simp] theorem appendBytes_pending (bs : List Byte) : (appendBytes bs s).pending = s.pending := rfl
@[simp] theorem appendBytes_lastResult (bs : List Byte) : (appendBytes bs s).lastResult = s.lastResult := rfl
@[simp] theorem appendBytes_sticky (bs : List Byte) : (appendBytes bs s).sticky = s.sticky := rfl
@[simp] theorem appendBytes_targetPid (bs : List Byte) : (appendBytes bs s).targetPid = s.targetPid := rfl
@[simp] theorem appendBytes_fill (bs : List Byte) : (appendBytes bs s).fill = s.fill := rfl
@[simp] theorem appendBytes_fb (bs : List Byte) : (appendBytes bs s).fb = s.fb := rfl
@[simp] theorem appendBytes_record (bs : List Byte) : (appendBytes bs s).record = s.record := rfl
@[simp] theorem appendBytes_phase (bs : List Byte) : (appendBytes bs s).phase = s.phase := rfl
@[simp] theorem appendBytes_lastCc (bs : List Byte) : (appendBytes bs s).lastCc = s.lastCc := rfl
@[simp] theorem appendBytes_bufLen (bs : List Byte) : (appendBytes bs s).bufLen = s.bufLen + bs.length := rfl
@[simp] theorem appendBytes_buf (bs : List Byte) : (appendBytes bs s).buf = writeBytes s.buf s.bufLen bs := rfl
@[simp] theorem appendBytes_pes (bs : List Byte) : (appendBytes bs s).pes = s.pes := rfl
@[simp] theorem appendBytes_aud (bs : List Byte) : (appendBytes bs s).aud = s.aud := rfl
@[simp] theorem appendBytes_host (bs : List Byte) : (appendBytes bs s).host = s.host := rfl
@[simp] theorem appendBytes_latency (bs : List Byte) : (appendBytes bs s).latency = s.latency := rfl
@[simp] theorem appendBytes_draws (bs : List Byte) : (appendBytes bs s).draws = s.draws := rfl
@[simp] theorem appendBytes_rdata (bs : List Byte) : (appendBytes bs s).rdata = s.rdata := rfl

/-! `attach` -/

@[simp] theorem attach_pending (e : Event) (n : Nat) : (attach e n s).pending = s.pending := rfl
@[simp] theorem attach_lastResult (e : Event) (n : Nat) : (attach e n s).lastResult = s.lastResult := rfl
@[simp] theorem attach_sticky (e : Event) (n : Nat) : (attach e n s).sticky = s.sticky := rfl
@[simp] theorem attach_targetPid (e : Event) (n : Nat) : (attach e n s).targetPid = s.targetPid := rfl
@[simp] theorem attach_fill (e : Event) (n : Nat) : (attach e n s).fill = s.fill := rfl
@[simp] theorem attach_fb (e : Event) (n : Nat) : (attach e n s).fb = s.fb := rfl
@[simp] theorem attach_record (e : Event) (n : Nat) : (attach e n s).record =
    { s.record with event := e, attached := e == .start, lastAppend := BitVec.ofNat 8 n } := rfl
@[simp] theorem attach_phase (e : Event) (n : Nat) : (attach e n s).phase = s.phase := rfl
@[simp] theorem attach_lastCc (e : Event) (n : Nat) : (attach e n s).lastCc = s.lastCc := rfl
@[simp] theorem attach_bufLen (e : Event) (n : Nat) : (attach e n s).bufLen = s.bufLen := rfl
@[simp] theorem attach_buf (e : Event) (n : Nat) : (attach e n s).buf = s.buf := rfl
@[simp] theorem attach_pes (e : Event) (n : Nat) : (attach e n s).pes = s.pes := rfl
@[simp] theorem attach_aud (e : Event) (n : Nat) : (attach e n s).aud = s.aud := rfl
@[simp] theorem attach_host (e : Event) (n : Nat) : (attach e n s).host = s.host := rfl
@[simp] theorem attach_latency (e : Event) (n : Nat) : (attach e n s).latency = s.latency := rfl
@[simp] theorem attach_draws (e : Event) (n : Nat) : (attach e n s).draws = s.draws := rfl
@[simp] theorem attach_rdata (e : Event) (n : Nat) : (attach e n s).rdata = s.rdata := rfl

/-! `pcrClear` -/

@[simp] theorem pcrClear_pending : (pcrClear s).pending = s.pending := rfl
@[simp] theorem pcrClear_lastResult : (pcrClear s).lastResult = s.lastResult := rfl
@[simp] theorem pcrClear_sticky : (pcrClear s).sticky = s.sticky := rfl
@[simp] theorem pcrClear_targetPid : (pcrClear s).targetPid = s.targetPid := rfl
@[simp] theorem pcrClear_fill : (pcrClear s).fill = s.fill := rfl
@[simp] theorem pcrClear_fb : (pcrClear s).fb = s.fb := rfl
@[simp] theorem pcrClear_record : (pcrClear s).record = { s.record with pcr := PcrRegs.zero } := rfl
@[simp] theorem pcrClear_phase : (pcrClear s).phase = s.phase := rfl
@[simp] theorem pcrClear_lastCc : (pcrClear s).lastCc = s.lastCc := rfl
@[simp] theorem pcrClear_bufLen : (pcrClear s).bufLen = s.bufLen := rfl
@[simp] theorem pcrClear_buf : (pcrClear s).buf = s.buf := rfl
@[simp] theorem pcrClear_pes : (pcrClear s).pes = s.pes := rfl
@[simp] theorem pcrClear_aud : (pcrClear s).aud = s.aud := rfl
@[simp] theorem pcrClear_host : (pcrClear s).host = s.host := rfl
@[simp] theorem pcrClear_latency : (pcrClear s).latency = s.latency := rfl
@[simp] theorem pcrClear_draws : (pcrClear s).draws = s.draws := rfl
@[simp] theorem pcrClear_rdata : (pcrClear s).rdata = s.rdata := rfl

/-! `pesDecode` -/

@[simp] theorem pesDecode_pending (p : PesHeader) : (pesDecode p s).pending = s.pending := rfl
@[simp] theorem pesDecode_lastResult (p : PesHeader) : (pesDecode p s).lastResult = s.lastResult := rfl
@[simp] theorem pesDecode_sticky (p : PesHeader) : (pesDecode p s).sticky = s.sticky := rfl
@[simp] theorem pesDecode_targetPid (p : PesHeader) : (pesDecode p s).targetPid = s.targetPid := rfl
@[simp] theorem pesDecode_fill (p : PesHeader) : (pesDecode p s).fill = s.fill := rfl
@[simp] theorem pesDecode_fb (p : PesHeader) : (pesDecode p s).fb = s.fb := rfl
@[simp] theorem pesDecode_record (p : PesHeader) : (pesDecode p s).record = s.record := rfl
@[simp] theorem pesDecode_phase (p : PesHeader) : (pesDecode p s).phase = s.phase := rfl
@[simp] theorem pesDecode_lastCc (p : PesHeader) : (pesDecode p s).lastCc = s.lastCc := rfl
@[simp] theorem pesDecode_bufLen (p : PesHeader) : (pesDecode p s).bufLen = s.bufLen := rfl
@[simp] theorem pesDecode_buf (p : PesHeader) : (pesDecode p s).buf = s.buf := rfl
@[simp] theorem pesDecode_pes (p : PesHeader) : (pesDecode p s).pes =
    { valid := true, streamId := p.streamId, startCode := p.startCode, length := p.packetLength, hdl := headerDataLength p.hdlRaw } := rfl
@[simp] theorem pesDecode_aud (p : PesHeader) : (pesDecode p s).aud = s.aud := rfl
@[simp] theorem pesDecode_host (p : PesHeader) : (pesDecode p s).host = s.host := rfl
@[simp] theorem pesDecode_latency (p : PesHeader) : (pesDecode p s).latency = s.latency := rfl
@[simp] theorem pesDecode_draws (p : PesHeader) : (pesDecode p s).draws = s.draws := rfl
@[simp] theorem pesDecode_rdata (p : PesHeader) : (pesDecode p s).rdata = s.rdata := rfl

/-! `raiseIf` -/

@[simp] theorem raiseIf_pending (b : Bool) (c : Cause) : (raiseIf b c s).pending = s.pending := by cases b <;> rfl
@[simp] theorem raiseIf_lastResult (b : Bool) (c : Cause) : (raiseIf b c s).lastResult = s.lastResult := by cases b <;> rfl
@[simp] theorem raiseIf_sticky (b : Bool) (c : Cause) :
    (raiseIf b c s).sticky = if b then s.sticky ||| (1#9 <<< c.index) else s.sticky := by cases b <;> rfl
@[simp] theorem raiseIf_targetPid (b : Bool) (c : Cause) : (raiseIf b c s).targetPid = s.targetPid := by cases b <;> rfl
@[simp] theorem raiseIf_fill (b : Bool) (c : Cause) : (raiseIf b c s).fill = s.fill := by cases b <;> rfl
@[simp] theorem raiseIf_fb (b : Bool) (c : Cause) : (raiseIf b c s).fb = s.fb := by cases b <;> rfl
@[simp] theorem raiseIf_record (b : Bool) (c : Cause) : (raiseIf b c s).record = s.record := by cases b <;> rfl
@[simp] theorem raiseIf_phase (b : Bool) (c : Cause) : (raiseIf b c s).phase = s.phase := by cases b <;> rfl
@[simp] theorem raiseIf_lastCc (b : Bool) (c : Cause) : (raiseIf b c s).lastCc = s.lastCc := by cases b <;> rfl
@[simp] theorem raiseIf_bufLen (b : Bool) (c : Cause) : (raiseIf b c s).bufLen = s.bufLen := by cases b <;> rfl
@[simp] theorem raiseIf_buf (b : Bool) (c : Cause) : (raiseIf b c s).buf = s.buf := by cases b <;> rfl
@[simp] theorem raiseIf_pes (b : Bool) (c : Cause) : (raiseIf b c s).pes = s.pes := by cases b <;> rfl
@[simp] theorem raiseIf_aud (b : Bool) (c : Cause) : (raiseIf b c s).aud = s.aud := by cases b <;> rfl
@[simp] theorem raiseIf_host (b : Bool) (c : Cause) : (raiseIf b c s).host = s.host := by cases b <;> rfl
@[simp] theorem raiseIf_latency (b : Bool) (c : Cause) : (raiseIf b c s).latency = s.latency := by cases b <;> rfl
@[simp] theorem raiseIf_draws (b : Bool) (c : Cause) : (raiseIf b c s).draws = s.draws := by cases b <;> rfl
@[simp] theorem raiseIf_rdata (b : Bool) (c : Cause) : (raiseIf b c s).rdata = s.rdata := by cases b <;> rfl

end Sys2Proof.Machine
end

