-- ==== Sys2Proof/Laws/Frames.lean ====
section
/-! SUPPORT. One lemma per shared operation that says what it can do and what it leaves alone, and the inversion of
`step`. A frame lemma gives the operation's result as the state before it with only the named fields replaced. -/

namespace Sys2Proof.Machine

/-! ## Sticky bits -/

theorem Cause.index_lt (c : Cause) : c.index < 9 := by cases c <;> decide

theorem Cause.index_inj {c d : Cause} (h : c.index = d.index) : c = d := by
  cases c <;> cases d <;> first | rfl | exact absurd h (by decide)

@[simp] theorem raised_raise (c d : Cause) (s : State) : raised c (raise d s) = (raised c s || c == d) := by
  cases c <;> cases d <;> simp [raised, raise, Cause.index]

@[simp] theorem raised_raiseIf (b : Bool) (c d : Cause) (s : State) :
    raised c (raiseIf b d s) = (raised c s || (b && c == d)) := by
  cases b <;> simp [raiseIf]

/-- Sticky bits are read from the sticky field alone. -/
theorem raised_congr {s t : State} (h : s.sticky = t.sticky) (c : Cause) : raised c s = raised c t := by
  unfold raised; rw [h]

/-! ## Pushing -/

/-- A push takes the byte, or discards it with FILL_OVF. -/
theorem pushByte_cases (b : Byte) (s : State) :
    (s.fill < 188 ∧ pushByte b s = { s with fb := writeByte s.fb s.fill b, fill := s.fill + 1 }) ∨
      (188 ≤ s.fill ∧ pushByte b s = raise .fillOvf s) := by
  unfold pushByte Config.frameBytes
  split
  · next h => exact .inl ⟨h, rfl⟩
  · next h => exact .inr ⟨by omega, rfl⟩

/-- Pushing writes the frame buffer, its fill count and FILL_OVF, nothing else. -/
theorem pushByte_frame (b : Byte) (s : State) :
    pushByte b s = { s with fb := (pushByte b s).fb, fill := (pushByte b s).fill, sticky := (pushByte b s).sticky } := by
  rcases pushByte_cases b s with ⟨-, h⟩ | ⟨-, h⟩
  · rw [h]
  · rw [h]; rfl

theorem pushBytes_frame (bs : List Byte) (s : State) :
    pushBytes bs s =
      { s with fb := (pushBytes bs s).fb, fill := (pushBytes bs s).fill, sticky := (pushBytes bs s).sticky } := by
  induction bs generalizing s with
  | nil => rfl
  | cons b bs ih =>
    have h : pushBytes (b :: bs) s = pushBytes bs (pushByte b s) := rfl
    rw [h, ih (pushByte b s), pushByte_frame b s]

/-! ## The frame operations -/

/-- TS_EXTRACT writes TS_HDR, TS_FIELDS and SYNC_BYTE_ERR. -/
theorem tsExtract_frame (h : TsHeader) (s : State) :
    tsExtract h s = { s with record := { s.record with tsHdr := h.pack, ts := h },
                             sticky := (tsExtract h s).sticky } := by
  unfold tsExtract raiseIf; split <;> rfl

/-- PCR_DECODE writes the PCR registers. -/
theorem pcrDecode_frame (s : State) :
    pcrDecode s = { s with record := { s.record with pcr := (pcrDecode s).record.pcr } } := rfl

/-- AF_DECODE and AF_ABSENT write AF_INFO, AF_STUFF, the PCR registers and AF_NEG_STUFF. -/
theorem afDecode_frame (s : State) :
    afDecode s = { s with record := { s.record with af := (afDecode s).record.af,
                                                    afStuff := (afDecode s).record.afStuff,
                                                    pcr := (afDecode s).record.pcr },
                          sticky := (afDecode s).sticky } := by
  unfold afDecode raiseIf; simp only; split <;> split <;> rfl

theorem afAbsent_frame (s : State) :
    afAbsent s = { s with record := { s.record with af := AfInfo.zero, afStuff := 0, pcr := PcrRegs.zero } } := rfl

theorem adaptation_frame (h : TsHeader) (s : State) :
    adaptation h s = { s with record := { s.record with af := (adaptation h s).record.af,
                                                        afStuff := (adaptation h s).record.afStuff,
                                                        pcr := (adaptation h s).record.pcr },
                              sticky := (adaptation h s).sticky } := by
  unfold adaptation; split
  · exact afDecode_frame s
  · exact afAbsent_frame s

/-- The audio decode writes the audio registers. -/
theorem audioDecode_frame (s : State) : audioDecode s = { s with aud := (audioDecode s).aud } := by
  unfold audioDecode; split
  · rfl
  · split <;> rfl

/-- A Start's append writes the payload buffer, BUF_LEN and PES_OVERRUN. -/
theorem startAppend_frame (s : State) :
    startAppend s = { s with buf := (startAppend s).buf, bufLen := (startAppend s).bufLen,
                             sticky := (startAppend s).sticky } := by
  unfold startAppend; split <;> rfl

theorem appendFrame_frame (s : State) :
    appendFrame s = { s with buf := writeBytes s.buf s.bufLen (slice s.fb 4 188), bufLen := s.bufLen + 184 } := by
  simp [appendFrame, appendBytes, Config.frameBytes]

/-- What a Continue leaves (rule R115). -/
theorem rsmContinue_eq (h : TsHeader) (s : State) :
    rsmContinue h s = { s with
      buf := writeBytes s.buf s.bufLen (slice s.fb 4 188), bufLen := s.bufLen + 184, lastCc := h.cc,
      phase := .continuing,
      record := { s.record with event := .continued, attached := false, lastAppend := 184#8 } } := by
  rw [rsmContinue, appendFrame_frame]
  generalize slice s.fb 4 188 = bytes
  rfl

/-- What an End leaves (rule R116). -/
theorem rsmEnd_eq (h : TsHeader) (s : State) :
    rsmEnd h s = { s with
      buf := writeBytes s.buf s.bufLen (slice s.fb 4 188), bufLen := s.bufLen + 184, lastCc := h.cc,
      phase := .ended, sticky := s.sticky ||| (1#9 <<< Cause.unitEnded.index),
      record := { s.record with event := .ended, attached := false, lastAppend := 184#8 } } := by
  rw [rsmEnd, appendFrame_frame]
  generalize slice s.fb 4 188 = bytes
  rfl

/-- The raw header-data length of the frame is f[14] (rule R77). -/
theorem framePes_hdlRaw (s : State) : (framePes s).hdlRaw = readByte s.fb 14 :=
  BitVec.extractLsb'_append_eq_right

/-- The header-data length of the frame is f[14] + 9 (rule R102). -/
theorem headerDataLength_framePes (s : State) : (headerDataLength (framePes s).hdlRaw).toNat = (readByte s.fb 14).toNat + 9 := by
  rw [framePes_hdlRaw]
  have := (readByte s.fb 14).isLt
  simp [headerDataLength]
  omega

/-- What a Start leaves, f[14] being n (rules R113, R114). -/
theorem rsmStart_eq (h : TsHeader) (s : State) (n : Nat) (hn : n = (readByte s.fb 14).toNat) :
    rsmStart h s = { s with
      pes := (pesDecode (framePes s) s).pes, lastCc := h.cc, phase := .start, bufLen := 173 - n,
      buf := if n ≤ 173 then writeBytes s.buf 0 (slice s.fb (15 + n) 188) else s.buf,
      sticky := (raiseIf (decide (174 ≤ n)) .pesOverrun s).sticky, aud := (rsmStart h s).aud,
      record := { s.record with event := .start, attached := true, lastAppend := BitVec.ofNat 8 (173 - n) } } := by
  have ho : startOffset (pesDecode (framePes s) s).pes = 15 + n := by
    rw [startOffset, pesDecode_pes, headerDataLength_framePes]; omega
  have ha : startAppend { pesDecode (framePes s) s with lastCc := h.cc, bufLen := 0 } =
    { pesDecode (framePes s) s with
      lastCc := h.cc, bufLen := 173 - n,
      buf := if n ≤ 173 then writeBytes s.buf 0 (slice s.fb (15 + n) 188) else s.buf,
      sticky := (raiseIf (decide (174 ≤ n)) .pesOverrun s).sticky } := by
    unfold startAppend
    simp only [ho, Config.frameBytes]
    by_cases hle : n ≤ 173
    · rw [if_pos (by omega), if_pos hle, decide_eq_false (by omega)]
      have : (slice s.fb (15 + n) 188).length = 173 - n := by rw [length_slice]; omega
      simp only [appendBytes, pesDecode_fb, pesDecode_buf]
      generalize slice s.fb (15 + n) 188 = bytes at *
      rw [this, Nat.zero_add]; rfl
    · rw [if_neg (by omega), if_neg hle, decide_eq_true (by omega), show 173 - n = 0 by omega]
      rfl
  have hs : rsmStart h s = attach .start (173 - n) (audioDecode { pesDecode (framePes s) s with
      lastCc := h.cc, bufLen := 173 - n,
      buf := if n ≤ 173 then writeBytes s.buf 0 (slice s.fb (15 + n) 188) else s.buf,
      sticky := (raiseIf (decide (174 ≤ n)) .pesOverrun s).sticky, phase := .start }) := by
    unfold rsmStart
    simp only [ha]
    rw [audioDecode_frame]
  rw [hs]
  generalize (if n ≤ 173 then writeBytes s.buf 0 (slice s.fb (15 + n) 188) else s.buf) = m
  rw [audioDecode_frame]
  rfl

/-- A Start leaves the frame buffer, the header record, TARGET_PID and the command state alone. -/
theorem rsmStart_frame (h : TsHeader) (s : State) :
    rsmStart h s =
      { s with
        sticky := (rsmStart h s).sticky, phase := (rsmStart h s).phase, lastCc := (rsmStart h s).lastCc, bufLen := (rsmStart h s).bufLen, buf := (rsmStart h s).buf,
        pes := (rsmStart h s).pes, aud := (rsmStart h s).aud,
        record := { s.record with
          event := (rsmStart h s).record.event, attached := (rsmStart h s).record.attached, lastAppend := (rsmStart h s).record.lastAppend } } := by
  simp only [rsmStart]
  rw [audioDecode_frame, startAppend_frame]
  rfl

/-- A Continue leaves the same alone. -/
theorem rsmContinue_frame (h : TsHeader) (s : State) :
    rsmContinue h s =
      { s with
        sticky := (rsmContinue h s).sticky, phase := (rsmContinue h s).phase, lastCc := (rsmContinue h s).lastCc, bufLen := (rsmContinue h s).bufLen, buf := (rsmContinue h s).buf,
        pes := (rsmContinue h s).pes, aud := (rsmContinue h s).aud,
        record := { s.record with
          event := (rsmContinue h s).record.event, attached := (rsmContinue h s).record.attached, lastAppend := (rsmContinue h s).record.lastAppend } } := by
  simp only [rsmContinue, attach, appendFrame, appendBytes]

/-- An End leaves the same alone. -/
theorem rsmEnd_frame (h : TsHeader) (s : State) :
    rsmEnd h s =
      { s with
        sticky := (rsmEnd h s).sticky, phase := (rsmEnd h s).phase, lastCc := (rsmEnd h s).lastCc, bufLen := (rsmEnd h s).bufLen, buf := (rsmEnd h s).buf,
        pes := (rsmEnd h s).pes, aud := (rsmEnd h s).aud,
        record := { s.record with
          event := (rsmEnd h s).record.event, attached := (rsmEnd h s).record.attached, lastAppend := (rsmEnd h s).record.lastAppend } } := by
  simp only [rsmEnd, attach, raise, appendFrame, appendBytes]

/-- The reassembly is one of the six operations. -/
theorem reassemble_cases (h : TsHeader) (s : State) :
    (h.pid ≠ s.targetPid ∧ reassemble h s = rsmNotTracked s) ∨
      (h.pid = s.targetPid ∧ (s.phase = .waiting ∨ s.phase = .ended) ∧ h.pusi = 1#1 ∧ reassemble h s = rsmStart h s) ∨
      (h.pid = s.targetPid ∧ (s.phase = .waiting ∨ s.phase = .ended) ∧ h.pusi ≠ 1#1 ∧ reassemble h s = rsmIdle s) ∨
      (h.pid = s.targetPid ∧ (s.phase = .start ∨ s.phase = .continuing) ∧ h.cc = nextCc s ∧ h.cc = 15#4 ∧
        reassemble h s = rsmEnd h s) ∨
      (h.pid = s.targetPid ∧ (s.phase = .start ∨ s.phase = .continuing) ∧ h.cc = nextCc s ∧ h.cc ≠ 15#4 ∧
        reassemble h s = rsmContinue h s) ∨
      (h.pid = s.targetPid ∧ (s.phase = .start ∨ s.phase = .continuing) ∧ h.cc ≠ nextCc s ∧
        reassemble h s = rsmDisc s) := by
  unfold reassemble
  by_cases hp : h.pid = s.targetPid <;> by_cases hu : h.pusi = 1#1 <;> by_cases hn : h.cc = nextCc s <;>
    by_cases hf : h.cc = 15#4 <;> cases hph : s.phase <;> simp_all

/-- The reassembly leaves the frame buffer, the record of the header and of the adaptation field, TARGET_PID and the
command state alone. -/
theorem reassemble_frame (h : TsHeader) (s : State) :
    reassemble h s =
      { s with
        sticky := (reassemble h s).sticky, phase := (reassemble h s).phase, lastCc := (reassemble h s).lastCc, bufLen := (reassemble h s).bufLen, buf := (reassemble h s).buf,
        pes := (reassemble h s).pes, aud := (reassemble h s).aud,
        record := { s.record with
          event := (reassemble h s).record.event, attached := (reassemble h s).record.attached, lastAppend := (reassemble h s).record.lastAppend } } := by
  rcases reassemble_cases h s with ⟨-, e⟩ | ⟨-, -, -, e⟩ | ⟨-, -, -, e⟩ | ⟨-, -, -, -, e⟩ | ⟨-, -, -, -, e⟩ | ⟨-, -, -, e⟩ <;>
    rw [e]
  · rfl
  · exact rsmStart_frame h s
  · rfl
  · exact rsmEnd_frame h s
  · exact rsmContinue_frame h s
  · rfl

/-- The frame decode leaves the frame buffer, FILL, TARGET_PID, the command state and the model's own fields
alone. -/
theorem frameDecode_frame (s : State) :
    frameDecode s =
      { s with
        sticky := (frameDecode s).sticky, phase := (frameDecode s).phase, lastCc := (frameDecode s).lastCc,
        bufLen := (frameDecode s).bufLen, buf := (frameDecode s).buf, pes := (frameDecode s).pes,
        aud := (frameDecode s).aud, record := (frameDecode s).record } := by
  unfold frameDecode
  simp only
  rw [reassemble_frame, adaptation_frame, tsExtract_frame]

/-! ## Steps -/

/-- Every operation answers a next state. -/
theorem exec_continues (i : Instr) (s : State) : ∃ t, exec i s = .next t := by
  cases i <;> exact ⟨_, rfl⟩

@[simp] theorem commandOf_opcode (c : Command) : commandOf c.opcode = some c := by cases c <;> rfl

/-- The word of a pending command decodes to the command's operation. -/
@[simp] theorem commandInstr_eq (c : Command) : commandInstr c = c.instr := by cases c <;> rfl

/-- What a step can be: the engine performs the pending command, a host transaction takes effect, the reset input is
asserted, or time passes. -/
theorem step_cases {s t : State} (h : step s = .next t) :
    (∃ c, nextMove s = .engine c ∧ exec c.instr s = .next t) ∨
      (∃ a, nextMove s = .host (.access a) ∧ exec (accessInstr a) (advance s) = .next t) ∨
      (nextMove s = .host .reset ∧ t = resetBlock (advance s)) ∨
      (nextMove s = .idle ∧ t = advance s) := by
  unfold step at h
  split at h
  · next c hc => exact .inl ⟨c, hc, by simpa using h⟩
  · next a ha => exact .inr (.inl ⟨a, ha, h⟩)
  · next hr => exact .inr (.inr (.inl ⟨hr, by injection h with h; exact h.symm⟩))
  · next hi => exact .inr (.inr (.inr ⟨hi, by injection h with h; exact h.symm⟩))

/-- The engine moves only when its command is pending and its time has come. -/
theorem nextMove_engine {s : State} {c : Command} (h : nextMove s = .engine c) :
    s.pending = some c ∧ s.latency = 0 := by
  unfold nextMove at h
  split at h
  · next c' hp hl => injection h with h; exact ⟨by rw [hp, h], hl⟩
  · cases h
  · cases h

/-- The operations of the host's transactions, each with the words it was decoded from. -/
theorem accessInstr_cases (a : Access) :
    (∃ off, accessInstr a = .rd off) ∨ (∃ off, accessInstr a = .rdPayload off) ∨
      accessInstr a = .wrCmd a.data ∨ accessInstr a = .wrTargetPid a.data ∨ accessInstr a = .push8 a.data ∨
      accessInstr a = .push32 a.data ∨ (∃ off, accessInstr a = .wrIgnored off a.data) := by
  unfold accessInstr decodeBus
  repeat' split
  all_goals simp

end Sys2Proof.Machine
end

