-- ==== Sys2Proof/Laws/Bus.lean ====
section
/-! SUPPORT. Which operation a host transaction is, which move comes next, the busy guard, and what pushing a list of
bytes leaves. -/

namespace Sys2Proof.Machine

/-! ## The busy guard -/

theorem busy_of_none {s : State} (h : s.pending = none) : busy s = false := by simp [busy, h]

theorem busy_of_ne_none {s : State} (h : s.pending ≠ none) : busy s = true := by
  cases hp : s.pending <;> simp_all [busy]

theorem guardWrite_idle (f : State → State) {s : State} (h : s.pending = none) : guardWrite f s = f s := by
  simp [guardWrite, busy_of_none h]

theorem guardWrite_busy (f : State → State) {s : State} (h : s.pending ≠ none) :
    guardWrite f s = raise .wrBusy s := by
  simp [guardWrite, busy_of_ne_none h]

/-- Raising one condition changes its sticky bit alone. -/
theorem stickyIs_raise (c : Cause) (s : State) : StickyIs (raise c s) s [c] := fun d => by
  simp [beq_eq_decide]

/-- A guarded operation is ignored while busy. -/
theorem ignoredBusy_of_guard {f : State → State} {i : Instr} {s : State} (h : s.pending ≠ none)
    (he : exec i s = .next (guardWrite f s)) : IgnoredBusy i s :=
  ⟨_, he, by rw [guardWrite_busy f h]; rfl, by rw [guardWrite_busy f h]; exact stickyIs_raise _ _⟩

/-! ## Transactions as operations -/

/-- The operation of a write, by the word it goes to. -/
theorem accessInstr_write (off : BitVec 13) (v : Word) :
    accessInstr ⟨true, off, v⟩ =
      if off &&& 0x1FFC#13 = 0x0004#13 then .wrCmd v
      else if off &&& 0x1FFC#13 = 0x000C#13 then .wrTargetPid v
      else if off &&& 0x1FFC#13 = 0x0014#13 then .push8 v
      else if off &&& 0x1FFC#13 = 0x0018#13 then .push32 v
      else .wrIgnored off v := by
  have hw : (busKey true off).getLsbD 13 = true := BitVec.getLsbD_append.trans (by simp)
  have ho : (busKey true off).extractLsb' 0 13 = off := BitVec.extractLsb'_append_eq_right
  have hm : busKey true off &&& 0x3FFC#14 = 1#1 ++ (off &&& 0x1FFC#13) :=
    (congrArg (busKey true off &&& ·) (show (0x3FFC#14 : BitVec 14) = 1#1 ++ 0x1FFC#13 from rfl)).trans
      (BitVec.and_append.trans (by congr 1))
  have key : ∀ c : BitVec 13, (busKey true off &&& 0x3FFC#14 = 1#1 ++ c ↔ off &&& 0x1FFC#13 = c) := fun c => by
    rw [hm]; exact BitVec.append_right_inj _
  have k1 : busKey true off &&& 0x3FFC#14 = 0x2004#14 ↔ off &&& 0x1FFC#13 = 0x0004#13 := key 0x0004#13
  have k2 : busKey true off &&& 0x3FFC#14 = 0x200C#14 ↔ off &&& 0x1FFC#13 = 0x000C#13 := key 0x000C#13
  have k3 : busKey true off &&& 0x3FFC#14 = 0x2014#14 ↔ off &&& 0x1FFC#13 = 0x0014#13 := key 0x0014#13
  have k4 : busKey true off &&& 0x3FFC#14 = 0x2018#14 ↔ off &&& 0x1FFC#13 = 0x0018#13 := key 0x0018#13
  simp only [accessInstr, decodeBus, hw, ho, k1, k2, k3, k4, Bool.true_eq_false, if_false]

/-- The operation of a read, by the half of the block it goes to. -/
theorem accessInstr_read (off : BitVec 13) (v : Word) :
    accessInstr ⟨false, off, v⟩ =
      if off.getLsbD 12 = false then .rd (off.extractLsb' 0 12) else .rdPayload (off.extractLsb' 0 12) := by
  have h1 : (busKey false off).getLsbD 13 = false := BitVec.getLsbD_append.trans (by simp)
  have h2 : (busKey false off).getLsbD 12 = off.getLsbD 12 := BitVec.getLsbD_append.trans (by simp)
  have h3 : (busKey false off).extractLsb' 0 12 = off.extractLsb' 0 12 :=
    BitVec.extractLsb'_append_eq_of_add_le (by decide)
  simp only [accessInstr, decodeBus, h1, h2, h3, if_true]

/-- The word index of an offset. -/
theorem wordIndex_eq (off : BitVec 12) : wordIndex off = off.toNat / 4 := by
  have := off.isLt
  simp [wordIndex, Nat.shiftRight_eq_div_pow]
  omega

/-! ## The next move -/

theorem nextMove_of_engineMoves {s : State} {c : Command} (h : EngineMoves s c) : nextMove s = .engine c := by
  obtain ⟨h1, h2⟩ := h
  simp [nextMove, h1, h2]

theorem nextMove_of_hostMoves {s : State} {m : HostMove} (h : HostMoves s m) : nextMove s = .host m := by
  obtain ⟨h1, h2⟩ := h
  cases hh : s.host <;> simp_all
  unfold nextMove
  split <;> simp_all

theorem hostMoves_of_nextMove {s : State} {m : HostMove} (h : nextMove s = .host m) : HostMoves s m := by
  unfold nextMove at h
  unfold HostMoves
  cases hp : s.pending <;> cases hl : s.latency <;> cases hh : s.host <;> simp_all

/-- What taking a move off the host's list leaves. -/
theorem advance_eq (s : State) :
    advance s =
      { s with host := s.host.tail, latency := if s.pending = none then s.latency else s.latency - 1 } := by
  unfold advance busy
  cases s.pending <;> simp

/-! ## Pushing a list of bytes -/

/-- Pushing bytes takes as many as the frame buffer has room for and raises FILL_OVF for the others. -/
theorem pushBytes_spec (bs : List Byte) (s : State) (hw : Memory.wf s.fb) :
    let t := pushBytes bs s
    let n := min bs.length (188 - s.fill)
    t = { s with fb := t.fb, fill := s.fill + n, sticky := t.sticky } ∧
    StickyIs t s (if n = bs.length then [] else [.fillOvf]) ∧ Memory.wf t.fb ∧
      ∀ i, readByte t.fb i = if s.fill ≤ i ∧ i - s.fill < n then bs.getD (i - s.fill) 0 else readByte s.fb i := by
  induction bs generalizing s with
  | nil => 
    simp [pushBytes, StickyIs]; exact hw
  | cons b bs ih =>
    have e : pushBytes (b :: bs) s = pushBytes bs (pushByte b s) := rfl
    rcases pushByte_cases b s with ⟨hlt, hb⟩ | ⟨hge, hb⟩
    · have ih' := ih (pushByte b s) (by rw [hb]; exact writeByte_wf hw _ _)
      rw [← e] at ih'
      generalize pushBytes (b::bs) s = t at *
      rw [hb] at ih'
      simp only at ih' ⊢
      obtain ⟨h1, h2, h3, h4⟩ := ih'
      have hn : min (b::bs).length (188 - s.fill) = min bs.length (188 - (s.fill+1)) + 1 := by
        simp only [List.length_cons]; omega
      rw [hn]
      refine ⟨?_, ?_, h3, ?_⟩
      · refine h1.trans ?_
        congr 1; omega
      · intro c
        have := h2 c
        rw [this]
        have : (min bs.length (188 - (s.fill + 1)) + 1 = (b :: bs).length) = (min bs.length (188 - (s.fill + 1)) = bs.length) := by simp
        simp only [this]
        rfl
      · intro i
        rw [h4 i, readByte_writeByte hw]
        by_cases hi : i = s.fill
        · subst hi; simp
        · by_cases h : s.fill + 1 ≤ i ∧ i - (s.fill + 1) < min bs.length (188 - (s.fill + 1))
          · rw [if_pos h, if_pos (by omega)]
            have : i - s.fill = (i - (s.fill+1)) + 1 := by omega
            simp only [this, List.getD_cons_succ]
          · rw [if_neg h, if_neg hi, if_neg (by omega)]
    · have ih' := ih (pushByte b s) (by rw [hb]; exact hw)
      rw [← e] at ih'
      generalize pushBytes (b::bs) s = t at *
      rw [hb] at ih'
      simp only [raise_fill, raise_fb] at ih' ⊢
      obtain ⟨h1, h2, h3, h4⟩ := ih'
      have z : 188 - s.fill = 0 := by omega
      refine ⟨by rw [z] at h1 ⊢; simpa using h1, ?_, h3, ?_⟩
      · intro c
        rw [h2 c, raised_raise]
        rw [if_neg (show ¬ min (b :: bs).length (188 - s.fill) = (b::bs).length by simp; omega)]
        by_cases hc : c = .fillOvf <;> simp [hc, beq_eq_decide]
      · intro i
        have h4' : readByte t.fb i = if s.fill ≤ i ∧ i - s.fill < min bs.length (188 - s.fill) then bs.getD (i - s.fill) 0 else readByte s.fb i := h4 i
        rw [h4', if_neg (by omega), if_neg (by omega)]

end Sys2Proof.Machine
end

