-- ==== Sys2Proof/Laws/PerInstr.lean ====
section
/-! SUPPORT. A statement about every operation as syntax, one lemma a constructor: a well-formed operation's words
are never refused. -/

namespace Sys2Proof.Laws.EncodingAccepted

/-- The decoder accepts the words of the operation. -/
def Statement (i : Instr) : Prop := i.wf = true → ∃ j, decode (encode i) = .ok j

theorem rd (off : BitVec 12) : Statement (.rd off) := fun _ => ⟨_, rfl⟩
theorem rdPayload (off : BitVec 12) : Statement (.rdPayload off) := fun _ => ⟨_, rfl⟩
theorem wrCmd (v : Word) : Statement (.wrCmd v) := fun _ => ⟨_, rfl⟩
theorem wrTargetPid (v : Word) : Statement (.wrTargetPid v) := fun _ => ⟨_, rfl⟩
theorem push8 (v : Word) : Statement (.push8 v) := fun _ => ⟨_, rfl⟩
theorem push32 (v : Word) : Statement (.push32 v) := fun _ => ⟨_, rfl⟩
theorem wrIgnored (off : BitVec 13) (v : Word) : Statement (.wrIgnored off v) := fun _ => ⟨_, rfl⟩
theorem nop : Statement .nop := fun _ => ⟨_, rfl⟩
theorem decodeFrame : Statement .decodeFrame := fun _ => ⟨_, rfl⟩
theorem rsmReset : Statement .rsmReset := fun _ => ⟨_, rfl⟩
theorem clearSticky : Statement .clearSticky := fun _ => ⟨_, rfl⟩
theorem reserved0407 (op : BitVec 8) : Statement (.reserved0407 op) := fun _ => ⟨_, rfl⟩
theorem reserved080f (op : BitVec 8) : Statement (.reserved080f op) := fun _ => ⟨_, rfl⟩
theorem reserved101f (op : BitVec 8) : Statement (.reserved101f op) := fun _ => ⟨_, rfl⟩
theorem reserved203f (op : BitVec 8) : Statement (.reserved203f op) := fun _ => ⟨_, rfl⟩
theorem reserved407f (op : BitVec 8) : Statement (.reserved407f op) := fun _ => ⟨_, rfl⟩
theorem reserved80ff (op : BitVec 8) : Statement (.reserved80ff op) := fun _ => ⟨_, rfl⟩

theorem tsExtract (h : TsHeader) : Statement (.tsExtract h) := fun w => ⟨_, decode_ts_pack .extract h w⟩
theorem afDecode (h : TsHeader) : Statement (.afDecode h) := fun w => ⟨_, decode_ts_pack .afDecode h w⟩
theorem afAbsent (h : TsHeader) : Statement (.afAbsent h) := fun w => ⟨_, decode_ts_pack .afAbsent h w⟩
theorem pcrDecode (h : TsHeader) : Statement (.pcrDecode h) := fun w => ⟨_, decode_ts_pack .pcrDecode h w⟩
theorem rsmNotTracked (h : TsHeader) : Statement (.rsmNotTracked h) := fun w => ⟨_, decode_ts_pack .notTracked h w⟩
theorem rsmStart (h : TsHeader) : Statement (.rsmStart h) := fun w => ⟨_, decode_ts_pack .start h w⟩
theorem rsmIdle (h : TsHeader) : Statement (.rsmIdle h) := fun w => ⟨_, decode_ts_pack .idle h w⟩
theorem rsmContinue (h : TsHeader) : Statement (.rsmContinue h) := fun w => ⟨_, decode_ts_pack .continues h w⟩
theorem rsmEnd (h : TsHeader) : Statement (.rsmEnd h) := fun w => ⟨_, decode_ts_pack .ends h w⟩
theorem rsmDisc (h : TsHeader) : Statement (.rsmDisc h) := fun w => ⟨_, decode_ts_pack .disc h w⟩

theorem pesDecode (p : PesHeader) : Statement (.pesDecode p) := fun _ => ⟨_, rfl⟩

theorem audShort : Statement .audShort := fun _ => ⟨_, rfl⟩
theorem audSyncMiss (a : AudHeader) : Statement (.audSyncMiss a) := fun w => ⟨_, decode_aud_pack .syncMiss a w⟩
theorem audFields (a : AudHeader) : Statement (.audFields a) := fun w => ⟨_, decode_aud_pack .fields a w⟩
theorem brLookup (a : AudHeader) : Statement (.brLookup a) := fun w => ⟨_, decode_aud_pack .brLookup a w⟩
theorem srLookup (a : AudHeader) : Statement (.srLookup a) := fun w => ⟨_, decode_aud_pack .srLookup a w⟩
theorem fsize (a : AudHeader) : Statement (.fsize a) := fun w => ⟨_, decode_aud_pack .fsize a w⟩

end Sys2Proof.Laws.EncodingAccepted
end

