-- ==== Sys2Proof/Laws/Step.lean ====
section
/-! SUPPORT. Everything a step can do to the block's own state: the inversion that statements about every step
cite. -/

namespace Sys2Proof.Machine

/-- With a full frame buffer the engine step is the frame decode (rule R141). -/
theorem decodeFrame_full {s : State} (h : s.fill = 188) : decodeFrame s = retire .ok { frameDecode s with fill := 0 } := by
  unfold decodeFrame
  rw [if_pos (show s.fill = Config.frameBytes from h)]

/-- With any other fill it is a ShortRead (rule R141). -/
theorem decodeFrame_short {s : State} (h : s.fill ≠ 188) :
    decodeFrame s = retire .shortRead { raise .shortRead s with fill := 0 } := by
  unfold decodeFrame
  rw [if_neg (show ¬ s.fill = Config.frameBytes from h)]

/-- What a host transaction can leave: only the command state, the sticky bits (never lowered), TARGET_PID, the frame
buffer and the model's own fields may differ, and the buffers keep their form. -/
def HostEffect (s t : State) : Prop :=
  t = { s with
    pending := t.pending, lastResult := t.lastResult, sticky := t.sticky, targetPid := t.targetPid, fill := t.fill,
    fb := t.fb, host := t.host, latency := t.latency, draws := t.draws, rdata := t.rdata } ∧
    (∀ c, raised c s = true → raised c t = true) ∧ (MemoryInv s → MemoryInv t)

theorem hostEffect_raise (c : Cause) (s : State) : HostEffect s (raise c s) :=
  ⟨rfl, fun d h => by rw [raised_raise, h, Bool.true_or], id⟩

theorem hostEffect_pushByte (b : Byte) (s : State) : HostEffect s (pushByte b s) := by
  rcases pushByte_cases b s with ⟨hl, e⟩ | ⟨-, e⟩ <;> rw [e]
  · exact ⟨rfl, fun _ h => h, fun hm =>
      ⟨writeByte_wf hm.1 _ _, hm.2.1, writeByte_below hm.2.2.1 hl _, hl⟩⟩
  · exact hostEffect_raise _ s

theorem hostEffect_trans {s t u : State} (h : HostEffect s t) (k : HostEffect t u) : HostEffect s u := by
  refine ⟨?_, fun c hc => k.2.1 c (h.2.1 c hc), fun hm => k.2.2 (h.2.2 hm)⟩
  have e := k.1
  rw [h.1] at e
  exact e

theorem hostEffect_pushBytes (bs : List Byte) (s : State) : HostEffect s (pushBytes bs s) := by
  induction bs generalizing s with
  | nil => exact ⟨rfl, fun _ h => h, id⟩
  | cons b bs ih => exact hostEffect_trans (hostEffect_pushByte b s) (ih _)

theorem hostEffect_command (op : BitVec 8) (s : State) : HostEffect s (command op s) := by
  unfold command
  split
  · exact ⟨rfl, fun _ h => h, id⟩
  · exact hostEffect_trans (t := { s with lastResult := .badCmd }) ⟨rfl, fun _ h => h, id⟩ (hostEffect_raise _ _)

/-- A host transaction has a host effect. -/
theorem access_effect {a : Access} {s t : State} (h : exec (accessInstr a) s = .next t) : HostEffect s t := by
  have guard : ∀ f : State → State, exec (accessInstr a) s = .next (guardWrite f s) → HostEffect s (f s) →
      HostEffect s t := by
    intro f e hf
    rw [h] at e
    injection e with e
    rw [e]
    unfold guardWrite
    split
    · exact hostEffect_raise _ s
    · exact hf
  rcases accessInstr_cases a with ⟨o, e⟩ | ⟨o, e⟩ | e | e | e | e | ⟨o, e⟩
  · rw [e] at h; injection h with h; rw [← h]; split <;> exact ⟨rfl, fun _ h => h, id⟩
  · rw [e] at h; injection h with h; rw [← h]; split <;> exact ⟨rfl, fun _ h => h, id⟩
  · exact guard _ (by rw [e]; rfl) (hostEffect_command _ s)
  · exact guard (fun u => { u with targetPid := a.data.extractLsb' 0 13 }) (by rw [e]; rfl) ⟨rfl, fun _ h => h, id⟩
  · exact guard _ (by rw [e]; rfl) (hostEffect_pushByte _ s)
  · exact guard _ (by rw [e]; rfl) (hostEffect_pushBytes _ s)
  · rw [e] at h; injection h with h; rw [← h]; exact ⟨rfl, fun _ h => h, id⟩

/-- Everything a step can do: the engine step of one of the four commands, reset, or a move with a host effect. -/
theorem step_effects {s t : State} (h : step s = .next t) :
    (EngineMoves s .decodeFrame ∧ s.fill = 188 ∧ t = retire .ok { frameDecode s with fill := 0 }) ∨
      (EngineMoves s .decodeFrame ∧ s.fill ≠ 188 ∧ t = retire .shortRead { raise .shortRead s with fill := 0 }) ∨
      (EngineMoves s .nop ∧ t = retire .ok s) ∨ (EngineMoves s .rsmReset ∧ t = rsmReset s) ∨
      (EngineMoves s .clearSticky ∧ t = clearSticky s) ∨ (HostMoves s .reset ∧ t = resetBlock (advance s)) ∨
      ((nextMove s = .idle ∨ ∃ a, HostMoves s (.access a)) ∧ HostEffect s t) := by
  rcases step_cases h with ⟨c, h1, h2⟩ | ⟨a, h1, h2⟩ | ⟨h1, h2⟩ | ⟨h1, h2⟩
  · have hm : EngineMoves s c := nextMove_engine h1
    cases c with
    | nop => injection h2 with h2; exact .inr (.inr (.inl ⟨hm, h2.symm⟩))
    | decodeFrame =>
      injection h2 with h2
      by_cases hf : s.fill = 188
      · exact .inl ⟨hm, hf, by rw [← h2, decodeFrame_full hf]⟩
      · exact .inr (.inl ⟨hm, hf, by rw [← h2, decodeFrame_short hf]⟩)
    | rsmReset => injection h2 with h2; exact .inr (.inr (.inr (.inl ⟨hm, h2.symm⟩)))
    | clearSticky => injection h2 with h2; exact .inr (.inr (.inr (.inr (.inl ⟨hm, h2.symm⟩))))
  · have ha : HostEffect s (advance s) := ⟨rfl, fun _ h => h, id⟩
    exact .inr (.inr (.inr (.inr (.inr (.inr
      ⟨.inr ⟨a, hostMoves_of_nextMove h1⟩, hostEffect_trans ha (access_effect h2)⟩)))))
  · exact .inr (.inr (.inr (.inr (.inr (.inl ⟨hostMoves_of_nextMove h1, h2⟩)))))
  · exact .inr (.inr (.inr (.inr (.inr (.inr ⟨.inl h1, h2 ▸ ⟨rfl, fun _ h => h, id⟩⟩)))))

end Sys2Proof.Machine
end

