-- ==== Sys2Proof/Laws/Reassembly.lean ====
section
/-! SUPPORT. What the frame decode is made of, what an append reads back as, and which counter comes next: the lemmas
that statements about the reassembly and the audio decode cite. -/

namespace Sys2Proof.Machine

/-- Equal sticky bits are an equal sticky field. -/
theorem sticky_ext {s t : State} (h : ∀ c, raised c t = raised c s) : t.sticky = s.sticky := by
  have : ∀ i, t.sticky.getLsbD i = s.sticky.getLsbD i := by
    intro i
    by_cases hi : i < 9
    · have hc : ∃ c : Cause, c.index = i := by
        interval_cases i
        exacts [⟨.unitEnded, rfl⟩, ⟨.disc, rfl⟩, ⟨.syncByteErr, rfl⟩, ⟨.fillOvf, rfl⟩, ⟨.wrBusy, rfl⟩,
          ⟨.pesOverrun, rfl⟩, ⟨.shortRead, rfl⟩, ⟨.badCmd, rfl⟩, ⟨.afNegStuff, rfl⟩]
      obtain ⟨c, rfl⟩ := hc
      exact h c
    · rw [BitVec.getLsbD_of_ge _ _ (by omega), BitVec.getLsbD_of_ge _ _ (by omega)]
  exact BitVec.eq_of_getLsbD_eq fun i _ => this i

/-- A frame decode is TS_EXTRACT, the adaptation field, the reassembly (rule R107). -/
theorem frameDecode_eq (s : State) :
    frameDecode s = reassemble (header s) (adaptation (header s) (tsExtract (header s) s)) := rfl

/-- What the reassembly starts from differs from the state before the frame in the record and the sticky bits. -/
theorem beforeReassembly (h : TsHeader) (s : State) :
    ∃ r st, adaptation h (tsExtract h s) = { s with record := r, sticky := st } := by
  rw [adaptation_frame, tsExtract_frame]
  exact ⟨_, _, rfl⟩

/-- The bytes of a slice, written at an address, read back; every other byte is as before. -/
theorem readByte_writeSlice {m : List Host.Cell} (hm : Memory.wf m) (f : List Host.Cell) (a i j x : Nat) :
    readByte (writeBytes m a (slice f i j)) x =
      if a ≤ x ∧ x < a + (j - i) then readByte f (i + (x - a)) else readByte m x := by
  split
  · next h =>
    have := readByte_writeBytes_inside hm a (slice f i j) (x - a) (by rw [length_slice]; omega)
    rw [getElem_slice, show a + (x - a) = x by omega] at this
    exact this
  · next h => exact readByte_writeBytes_outside _ _ (by rw [length_slice]; omega)

/-- The counter that follows LAST_CC, as a number (rule R120). -/
theorem eq_nextCc_iff (cc : BitVec 4) (s : State) : cc = nextCc s ↔ cc.toNat = (s.lastCc.toNat + 1) % 16 := by
  rw [nextCc]
  constructor
  · intro e; rw [e]; simp
  · intro e; apply BitVec.eq_of_toNat_eq; rw [e]; simp

/-- Counter 15 is accepted exactly after 14 (rule R116). -/
theorem eq_nextCc_fifteen (cc : BitVec 4) (s : State) :
    cc = nextCc s ∧ cc = 15#4 ↔ s.lastCc.toNat = 14 ∧ cc.toNat = 15 := by
  have hl := s.lastCc.isLt
  have h15 : cc = 15#4 ↔ cc.toNat = 15 := ⟨fun e => by rw [e]; rfl, fun e => BitVec.eq_of_toNat_eq e⟩
  rw [eq_nextCc_iff, h15]
  omega

/-- A single bit is 1 or 0. -/
theorem bit_cases (b : Bit) : b = 1#1 ∨ b = 0#1 := by
  have h := b.isLt
  rcases (show b.toNat = 1 ∨ b.toNat = 0 by omega) with e | e
  · exact .inl (BitVec.eq_of_toNat_eq e)
  · exact .inr (BitVec.eq_of_toNat_eq e)

/-- The audio packet decodes to the operation that AUDIO_DECODE runs on any state with the same payload buffer
(rule R83). -/
theorem audioPacket_runs (t : State) :
    ∃ i, decode (audioPacket t) = .ok i ∧
      ∀ u : State, u.bufLen = t.bufLen → u.buf = t.buf → exec i u = .next (audioDecode u) := by
  unfold audioPacket
  split
  · next h =>
    refine ⟨.audShort, rfl, fun u h1 _ => ?_⟩
    simp only [audioDecode]
    rw [if_pos (by omega)]
    rfl
  · next h =>
    split
    · next h2 =>
      refine ⟨.audFields (AudHeader.unpack (be t.buf 0 4)), ?_, fun u h3 h4 => ?_⟩
      · exact checkRow_ok (by simp only [AudOp.instr, Instr.wf]; exact beq_iff_eq.2 h2)
      · have e : payloadHeader u = payloadHeader t := by simp [payloadHeader, h4]
        simp only [audioDecode]
        rw [if_neg (by omega), e, if_pos h2]
        rfl
    · next h2 =>
      refine ⟨.audSyncMiss (AudHeader.unpack (be t.buf 0 4)), ?_, fun u h3 h4 => ?_⟩
      · exact checkRow_ok (by simp only [AudOp.instr, Instr.wf]; exact bne_iff_ne.2 h2)
      · have e : payloadHeader u = payloadHeader t := by simp [payloadHeader, h4]
        simp only [audioDecode]
        rw [if_neg (by omega), e, if_neg h2]
        rfl

/-- The audio registers after AUDIO_DECODE depend on the payload buffer and its length alone. -/
theorem audioDecode_congr (s t : State) (h1 : s.bufLen = t.bufLen) (h2 : s.buf = t.buf) :
    (audioDecode s).aud = (audioDecode t).aud := by
  unfold audioDecode payloadHeader
  rw [h1, h2]
  split
  · rfl
  · split <;> rfl

end Sys2Proof.Machine
end

