-- ==== Sys2Proof/Tests/Slice0.lean ====
section
/-! SUPPORT. Tests of the model against values that the spec writes out (95_test_vectors.md and the encodings of
30_encoding.md), the smoke test of `Instr.wf`, and a witness for the hypotheses of every statement that has some. -/

namespace Sys2Proof.Tests

open Sys2Proof.Machine

/-! ## Helpers -/

/-- A frame: its first bytes, every other byte 0. -/
def frame (bytes : List Byte) : List Host.Cell := writeBytes [] 0 bytes

/-- A state with a full frame buffer that tracks PID 0x044, all else at reset. -/
def full (bytes : List Byte) : State :=
  { State.reset with fb := frame bytes, fill := 188, targetPid := 0x044#13 }

/-- The same inside a unit: PHASE Start at a counter, with 173 bytes in the payload buffer. -/
def started (cc : BitVec 4) (bytes : List Byte) : State :=
  { full bytes with phase := .start, lastCc := cc, bufLen := 173 }

/-- A Start frame of the tracked PID with a given f[14] and what follows it. -/
def startFrame (bytes : List Byte) : List Byte :=
  [0x47#8, 0x40#8, 0x44#8, 0x10#8, 0#8, 0#8, 0#8, 0#8, 1#8, 0xC0#8, 0#8, 0#8, 0x80#8, 0#8] ++ bytes

/-- A state in which a command waits for its engine step. -/
def busyState : State := { State.reset with pending := some .decodeFrame, latency := 2 }

/-- A payload buffer of four or more bytes. -/
def payload (bytes : List Byte) : State := { State.reset with buf := writeBytes [] 0 bytes, bufLen := bytes.length }

/-- The state after one operation. -/
def after (i : Instr) (s : State) : State :=
  match exec i s with
  | .next t => t
  | _ => s

/-- The state after one step. -/
def afterStep (s : State) : State :=
  match step s with
  | .next t => t
  | _ => s

/-- The registers at word indexes. -/
def regs (ks : List Nat) (s : State) : List Word := ks.map fun k => regWord k s

/-! ## Well-formedness: an ill-formed term for each check -/

theorem test_wf_refuses :
    Instr.wf (.wrIgnored 0x0004#13 0#32) = false ∧ Instr.wf (.wrIgnored 0x000F#13 0#32) = false ∧
      Instr.wf (.wrIgnored 0x0014#13 0#32) = false ∧ Instr.wf (.wrIgnored 0x0018#13 0#32) = false ∧
      Instr.wf (.reserved0407 0x03#8) = false ∧ Instr.wf (.reserved080f 0x10#8) = false ∧
      Instr.wf (.reserved101f 0x0F#8) = false ∧ Instr.wf (.reserved203f 0x40#8) = false ∧
      Instr.wf (.reserved407f 0x80#8) = false ∧ Instr.wf (.reserved80ff 0x7F#8) = false ∧
      Instr.wf (.afDecode { TsHeader.zero with afc := 1#2 }) = false ∧
      Instr.wf (.afAbsent { TsHeader.zero with afc := 2#2 }) = false ∧
      Instr.wf (.pcrDecode { TsHeader.zero with afc := 1#2 }) = false ∧
      Instr.wf (.rsmStart TsHeader.zero) = false ∧ Instr.wf (.rsmIdle { TsHeader.zero with pusi := 1#1 }) = false ∧
      Instr.wf (.rsmContinue { TsHeader.zero with cc := 15#4 }) = false ∧
      Instr.wf (.rsmEnd { TsHeader.zero with cc := 14#4 }) = false ∧
      Instr.wf (.audSyncMiss ⟨0x7FF#11, AudCodes.zero⟩) = false ∧
      Instr.wf (.audFields ⟨0x7FE#11, AudCodes.zero⟩) = false ∧
      Instr.wf (.brLookup ⟨0x7FE#11, AudCodes.zero⟩) = false ∧
      Instr.wf (.srLookup ⟨0x7FE#11, AudCodes.zero⟩) = false ∧
      Instr.wf (.fsize ⟨0#11, AudCodes.zero⟩) = false := by decide

theorem test_wf_accepts :
    Instr.wf (.wrIgnored 0x0010#13 0#32) = true ∧ Instr.wf (.reserved0407 0x07#8) = true ∧
      Instr.wf (.reserved080f 0x08#8) = true ∧ Instr.wf (.reserved101f 0x1F#8) = true ∧
      Instr.wf (.reserved203f 0x20#8) = true ∧ Instr.wf (.reserved407f 0x7F#8) = true ∧
      Instr.wf (.reserved80ff 0xFF#8) = true ∧ Instr.wf (.rsmEnd { TsHeader.zero with cc := 15#4 }) = true ∧
      Instr.wf (.fsize ⟨0x7FF#11, AudCodes.zero⟩) = true := by decide

/-! ## Decoding, from words written out from the encodings -/

/-- Bus keys `dir ++ offset` (rule R86): reads of ID, TARGET_PID with low offset bits set, the last word below the
window, the window's first and last words. -/
theorem test_decode_bus_reads :
    decode (.bus 0b0_0000000000000#14 0#32) = .ok (.rd 0x000#12) ∧
      decode (.bus 0b0_0000000001111#14 0#32) = .ok (.rd 0x00F#12) ∧
      decode (.bus 0b0_0111111111100#14 0#32) = .ok (.rd 0xFFC#12) ∧
      decode (.bus 0b0_1000000000000#14 0#32) = .ok (.rdPayload 0x000#12) ∧
      decode (.bus 0b0_1111111111100#14 0#32) = .ok (.rdPayload 0xFFC#12) := ⟨rfl, rfl, rfl, rfl, rfl⟩

/-- Bus keys of writes: the four writable offsets, low bits ignored, and three others (rules R19, R55, R86). -/
theorem test_decode_bus_writes :
    decode (.bus 0b1_0000000000100#14 0x101#32) = .ok (.wrCmd 0x101#32) ∧
      decode (.bus 0b1_0000000001110#14 0x44#32) = .ok (.wrTargetPid 0x44#32) ∧
      decode (.bus 0b1_0000000010100#14 0x47#32) = .ok (.push8 0x47#32) ∧
      decode (.bus 0b1_0000000011000#14 0x47004416#32) = .ok (.push32 0x47004416#32) ∧
      decode (.bus 0b1_0000000000000#14 1#32) = .ok (.wrIgnored 0x0000#13 1#32) ∧
      decode (.bus 0b1_0000000011100#14 1#32) = .ok (.wrIgnored 0x001C#13 1#32) ∧
      decode (.bus 0b1_1000000000100#14 1#32) = .ok (.wrIgnored 0x1004#13 1#32) :=
  ⟨rfl, rfl, rfl, rfl, rfl, rfl, rfl⟩

/-- Command words (rule R73): the four commands, the ignored bits, both ends of every reserved row. -/
theorem test_decode_commands :
    [0x00#32, 0xFFFFFF01#32, 0x02#32, 0x103#32].map (fun w => decode (.cmd w)) =
        [.ok .nop, .ok .decodeFrame, .ok .rsmReset, .ok .clearSticky] ∧
      [0x04#32, 0x07#32, 0x08#32, 0x0F#32, 0x10#32, 0x1F#32].map (fun w => decode (.cmd w)) =
        [.ok (.reserved0407 4#8), .ok (.reserved0407 7#8), .ok (.reserved080f 8#8), .ok (.reserved080f 15#8),
         .ok (.reserved101f 16#8), .ok (.reserved101f 31#8)] ∧
      [0x20#32, 0x3F#32, 0x40#32, 0x7F#32, 0x80#32, 0xFF#32].map (fun w => decode (.cmd w)) =
        [.ok (.reserved203f 32#8), .ok (.reserved203f 63#8), .ok (.reserved407f 64#8), .ok (.reserved407f 127#8),
         .ok (.reserved80ff 128#8), .ok (.reserved80ff 255#8)] := by decide

/-- Header words (rules R74, R82): 0x47404430 of T-S1, with the fields that T-S1 lists. -/
theorem test_decode_header :
    let h : TsHeader := { sync := 0x47, tei := 0, pusi := 1, tp := 0, pid := 0x044, tsc := 0, afc := 3, cc := 0 }
    decode (.ts .extract 0x47404430#32) = .ok (.tsExtract h) ∧ decode (.ts .afDecode 0x47404430#32) = .ok (.afDecode h) ∧
      decode (.ts .pcrDecode 0x47404430#32) = .ok (.pcrDecode h) ∧
      decode (.ts .afAbsent 0x47404430#32) = .error (.notThisRow "AF_ABSENT") ∧
      decode (.ts .notTracked 0x47404430#32) = .ok (.rsmNotTracked h) ∧
      decode (.ts .start 0x47404430#32) = .ok (.rsmStart h) ∧
      decode (.ts .idle 0x47404430#32) = .error (.notThisRow "RSM_IDLE") ∧
      decode (.ts .continues 0x47404430#32) = .ok (.rsmContinue h) ∧
      decode (.ts .ends 0x47404430#32) = .error (.notThisRow "RSM_END") ∧
      decode (.ts .disc 0x47404430#32) = .ok (.rsmDisc h) := by decide +kernel

/-- The rows that 0x47404430 does not meet: AFC 1, PUSI 0, CC 15 (0x4700441F). -/
theorem test_decode_header_absent_end :
    let h : TsHeader := { sync := 0x47, tei := 0, pusi := 0, tp := 0, pid := 0x044, tsc := 0, afc := 1, cc := 15 }
    decode (.ts .afAbsent 0x4700441F#32) = .ok (.afAbsent h) ∧ decode (.ts .idle 0x4700441F#32) = .ok (.rsmIdle h) ∧
      decode (.ts .ends 0x4700441F#32) = .ok (.rsmEnd h) ∧
      decode (.ts .continues 0x4700441F#32) = .error (.notThisRow "RSM_CONTINUE") := by decide +kernel

/-- The PES bytes of P2, f[6..14] = 00 00 01 C0 0B 40 80 80 05 (rule R77). -/
theorem test_decode_pes :
    decode (.pes 0x000001C00B40808005#72) =
      .ok (.pesDecode { startCode := 1, streamId := 0xC0, packetLength := 0x0B40, hdlRaw := 5 }) := by decide +kernel

/-- The audio words of T-S5 and of a sync miss (rules R78, R83). -/
theorem test_decode_audio :
    let a : AudHeader := { sync := 0x7FF, codes := { version := 3, layer := 1, protection := 1, brIndex := 9, srIndex := 0, padding := 0, spare := 0, channelMode := 1, modeExt := 2, copyright := 0, original := 1, emphasis := 0 } }
    decode (.aud .fields 0xFFFB9064#32) = .ok (.audFields a) ∧ decode (.aud .brLookup 0xFFFB9064#32) = .ok (.brLookup a) ∧
      decode (.aud .srLookup 0xFFFB9064#32) = .ok (.srLookup a) ∧ decode (.aud .fsize 0xFFFB9064#32) = .ok (.fsize a) ∧
      decode (.aud .short 0#32) = .ok .audShort ∧
      decode (.aud .syncMiss 0xFFFB9064#32) = .error (.notThisRow "AUD_SYNC_MISS") ∧
      decode (.aud .syncMiss 0xFFDF9064#32) = .ok (.audSyncMiss (AudHeader.unpack 0xFFDF9064#32)) ∧
      decode (.aud .fields 0xFFDF9064#32) = .error (.notThisRow "AUD_FIELDS") := by decide +kernel

/-- The match words of the table's rows, as the table numbers them. -/
theorem test_table_words :
    decodeTableWord 16 0x0000 = some (.rd 0#12) ∧ decodeTableWord 16 0x1000 = some (.rdPayload 0#12) ∧
      decodeTableWord 16 0x2004 = some (.wrCmd 0#32) ∧ decodeTableWord 16 0x200C = some (.wrTargetPid 0#32) ∧
      decodeTableWord 16 0x2014 = some (.push8 0#32) ∧ decodeTableWord 16 0x2018 = some (.push32 0#32) ∧
      decodeTableWord 16 0x2000 = some (.wrIgnored 0#13 0#32) ∧ decodeTableWord 8 0x01 = some .decodeFrame ∧
      decodeTableWord 8 0x80 = some (.reserved80ff 0x80#8) ∧ decodeTableWord 0 0 = some (.pesDecode ⟨0, 0, 0, 0⟩) ∧
      decodeTableWord 32 0xFFE00000 = some (.audFields ⟨0x7FF#11, AudCodes.zero⟩) ∧
      decodeTableWord 24 0x400000 = some (.rsmStart { TsHeader.zero with pusi := 1 }) ∧
      decodeTableWord 24 0 = some (.rsmIdle TsHeader.zero) ∧ decodeTableWord 40 0 = none := by decide +kernel

/-- A placed word is the next move, and the step runs it: RSM_START, and the audio decode inside it. -/
theorem test_placed_words_run :
    (afterStep (State.reset.withFetchWord 24 0x400000)).record.event = .start ∧
      (afterStep (State.reset.withFetchWord 32 0xFFFB9064)).aud.raw = 0xFFFB9064#32 ∧
      (afterStep (State.reset.withFetchWord 8 0x07)).lastResult = .badCmd ∧
      (afterStep (State.reset.withFetchWord 16 0x0000)).rdata = 0x54535031#32 := by decide +kernel

/-! ## Host operations: V-HOST, each row from reset -/

theorem test_read_id : (after (.rd 0x000#12) State.reset).rdata = 0x54535031#32 := by decide

/-- A read with low offset bits set reaches ID; CMD, FRAME_DATA8, 0x001C and 0x0FFC read 0. -/
theorem test_read_unaligned_and_reserved :
    (after (.rd 0x003#12) State.reset).rdata = 0x54535031#32 ∧
      [0x004#12, 0x014#12, 0x01C#12, 0xFFC#12].map (fun o => (after (.rd o) State.reset).rdata) =
        [0#32, 0#32, 0#32, 0#32] := by decide

/-- The window's word past BUF_LEN (P3: bytes 541 to 543 read 0) and word 0. -/
theorem test_read_payload :
    (after (.rdPayload 0x000#12) (payload [0xAA#8, 0xAB#8, 0xAC#8, 0xAD#8, 0x05#8])).rdata = 0xAAABACAD#32 ∧
      (after (.rdPayload 0x004#12) (payload [0xAA#8, 0xAB#8, 0xAC#8, 0xAD#8, 0x05#8])).rdata = 0x05000000#32 := by
  decide

theorem test_set_target_pid : regWord 3 (after (.wrTargetPid 0xFFFF0044#32) State.reset) = 0x44#32 := by decide

theorem test_push8_takes_the_low_byte :
    let t := after (.push8 0x1234#32) { State.reset with fill := 187 }
    t.fill = 188 ∧ readByte t.fb 187 = 0x34#8 ∧ t.sticky = 0 := by decide

theorem test_push8_overflow :
    regWord 2 (after (.push8 0x47#32) { State.reset with fill := 188 }) = 0x00000800#32 := by decide

/-- FILL 186, then push32 0x11223344: 0x33 and 0x44 dropped, FILL_OVF. -/
theorem test_push32_overflow :
    let t := after (.push32 0x11223344#32) { State.reset with fill := 186 }
    regs [4, 2] t = [188#32, 0x00000800#32] ∧ readByte t.fb 186 = 0x11#8 ∧ readByte t.fb 187 = 0x22#8 := by decide

theorem test_push32_order :
    (after (.push32 0x11223344#32) State.reset).fb = [(0, 0x11#8), (1, 0x22#8), (2, 0x33#8), (3, 0x44#8)] := by decide

/-- cmd 0x101 issues DECODE_FRAME; cmd 0x07 is refused, BUSY never 1. -/
theorem test_write_cmd :
    (after (.wrCmd 0x101#32) State.reset).pending = some .decodeFrame ∧
      regWord 2 (after (.wrCmd 0x07#32) State.reset) = 0x00008006#32 := by decide

theorem test_write_ignored : exec (.wrIgnored 0x1000#13 0xFFFFFFFF#32) busyState = .next busyState := rfl

/-- While busy: a push is dropped with WR_BUSY (BUSY and bit 12 of STATUS), so is any write to CMD. -/
theorem test_busy_writes :
    regs [4, 2] (after (.push8 0x47#32) busyState) = [0#32, 0x00001001#32] ∧
      regWord 2 (after (.wrCmd 0x80#32) busyState) = 0x00001001#32 ∧
      regWord 2 (after (.reserved0407 0x04#8) busyState) = 0x00001001#32 := by decide

/-- While busy STATUS and FRAME_FILL still read what they are. -/
theorem test_busy_reads :
    (after (.rd 0x008#12) busyState).rdata = 1#32 ∧ (after (.rd 0x020#12) busyState).draws = 1 ∧
      (after (.rdPayload 0x000#12) busyState).draws = 1 ∧ (after (.rd 0x010#12) busyState).draws = 0 := by decide

/-! ## Commands -/

theorem test_nop : regWord 2 (after .nop { State.reset with pending := some .nop }) = 0x00000002#32 := by decide

/-- STATUS 0x0000C204, then CLEAR_STICKY: 0x00000002. -/
theorem test_clear_sticky :
    let s : State := { State.reset with sticky := 0xC2#9, lastResult := .shortRead }
    regWord 2 s = 0x0000C204#32 ∧ regWord 2 (after .clearSticky s) = 0x00000002#32 := by decide

/-- A unit in Continuing with LAST_CC 4: RSM_STATE, BUF_LEN, PES_ and AUD_ registers 0, TS_HDR and LAST_APPEND kept. -/
theorem test_rsm_reset :
    let s : State := { started 4#4 [] with
      phase := .continuing, bufLen := 357, record := { Record.zero with tsHdr := 0x47004414#32, lastAppend := 184 } }
    regs [21, 22, 17, 20, 24, 25, 8, 23, 2] (after .rsmReset s) =
      [0#32, 0#32, 0#32, 0#32, 0#32, 0#32, 0x47004414#32, 184#32, 2#32] := by decide

/-- DECODE_FRAME with FILL 0: STATUS 0x00004004. With 187 bytes it is a ShortRead as well. -/
theorem test_short_read :
    regs [2, 4] (after .decodeFrame State.reset) = [0x00004004#32, 0#32] ∧
      regs [2, 4] (after .decodeFrame { State.reset with fill := 187 }) = [0x00004004#32, 0#32] := by decide

/-- The first frame of P2: STATUS, FRAME_FILL, TS_FIELDS, AF_INFO, PES_, RSM_STATE, BUF_LEN, LAST_APPEND, AUD_. -/
theorem test_decode_frame_p2 :
    regs [2, 4, 9, 10, 11, 17, 18, 19, 20, 21, 22, 23, 24, 25, 26, 27, 28]
      (after .decodeFrame (full [0x47#8, 0x40#8, 0x44#8, 0x30#8, 1#8, 0#8, 0#8, 0#8, 1#8, 0xC0#8, 0x0B#8, 0x40#8,
        0x80#8, 0x80#8, 5#8, 0x21#8, 0#8, 1#8, 0#8, 1#8, 0xFF#8, 0xFB#8, 0x90#8, 0x64#8])) =
      [2#32, 0#32, 0x470C4044#32, 0x101#32, 0#32, 0xC003#32, 1#32, 0x0B40#32, 0x0E#32, 0x201#32, 168#32, 168#32,
       0xFFFB9064#32, 0x02909173#32, 0x00010080#32, 0x0001AC44#32, 0x000101A1#32] := by decide +kernel

theorem test_reserved_rows :
    [Instr.reserved0407 7#8, .reserved080f 8#8, .reserved101f 16#8, .reserved203f 32#8, .reserved407f 64#8,
      .reserved80ff 128#8].map (fun i => regWord 2 (after i State.reset)) = List.replicate 6 0x00008006#32 := by decide

/-! ## Frame operations: V-BF, V-AF, V-PES, V-RSM -/

/-- V-BF: TS_FIELDS of five headers. -/
theorem test_ts_fields :
    [0x47404430#32, 0x47FFFF1F#32, 0x471FFFE5#32, 0x46A01234#32, 0x0000000F#32].map (fun w =>
        regWord 9 (after (.tsExtract (TsHeader.unpack w)) State.reset)) =
      [0x470C4044#32, 0x47F4FFFF#32, 0x475B1FFF#32, 0x464CA012#32, 0x00F00000#32] := by decide

theorem test_sync_byte_err :
    [0x47FFFF1F#32, 0x46A01234#32, 0x0000000F#32].map (fun w =>
        regWord 2 (after (.tsExtract (TsHeader.unpack w)) State.reset)) = [0#32, 0x400#32, 0x400#32] := by decide

/-- V-AF: AF_INFO, AF_STUFF, the PCR registers and STATUS of the rows with f[4] f[5] = 07 10 (largest ticks), 00 10
(the minimum) and 03 10. -/
theorem test_af_decode :
    [[0x07#8, 0x10#8, 0xFF#8, 0xFF#8, 0xFF#8, 0xFF#8, 0xFF#8, 0xFF#8], [0x00#8, 0x10#8],
      [0x03#8, 0x10#8, 0x12#8, 0x34#8, 0x56#8, 0x78#8, 0x80#8, 0x2A#8]].map (fun l =>
        regs [10, 11, 12, 13, 14, 15, 16, 2] (after (.afDecode TsHeader.zero) (full ([0x47#8, 0#8, 0#8, 0x30#8] ++ l)))) =
      [[0x00100703#32, 0#32, 1#32, 0xFFFFFFFF#32, 0x1FF#32, 0x258#32, 0x000000D3#32, 0#32],
       [0x00100003#32, 0xFFFFFFF9#32, 0#32, 0#32, 0#32, 0#32, 0#32, 0x10000#32],
       [0x00100303#32, 0xFFFFFFFC#32, 0#32, 0x2468ACF1#32, 0x2A#32, 0x2A#32, 0xAAAAAA96#32, 0x10000#32]] := by
  decide +kernel

/-- V-AF: the rows without a PCR, f[4] f[5] = 07 EF, B7 00, 00 00, and the largest stuffing count. -/
theorem test_af_decode_without_pcr :
    [[0x07#8, 0xEF#8, 1#8, 2#8], [0xB7#8, 0x00#8], [0x00#8, 0x00#8, 9#8], [0xFF#8, 0x00#8]].map (fun l =>
        regs [10, 11, 13, 16, 2] (after (.afDecode TsHeader.zero) (full ([0x47#8, 0#8, 0#8, 0x30#8] ++ l)))) =
      [[0x00EF0701#32, 6#32, 0#32, 0#32, 0#32], [0x0000B701#32, 0xB6#32, 0#32, 0#32, 0#32],
       [0x00000001#32, 0xFFFFFFFF#32, 0#32, 0#32, 0x10000#32], [0x0000FF01#32, 0xFE#32, 0#32, 0#32, 0#32]] := by
  decide +kernel

/-- T-S3: no adaptation field below AFC 2, whatever the registers held. -/
theorem test_af_absent :
    let s := after (.afDecode TsHeader.zero) (full [0x47#8, 1#8, 0#8, 0x10#8, 7#8, 0x10#8, 0x80#8, 0#8, 0#8, 0#8, 0x7E#8])
    regs [10, 11, 12, 13, 14, 15, 16] (after (.afAbsent TsHeader.zero) s) = List.replicate 7 0#32 := by decide +kernel

/-- T-S4: base 0x100000000 is 0x12C00000000 ticks. -/
theorem test_pcr_decode :
    regs [12, 13, 14, 15, 16] (after (.pcrDecode TsHeader.zero)
      (full [0x47#8, 1#8, 0#8, 0x20#8, 7#8, 0x10#8, 0x80#8, 0#8, 0#8, 0#8, 0x7E#8])) =
      [1#32, 0#32, 0#32, 0x12C#32, 0#32] := by decide +kernel

/-- T-S4: the seconds are 268435456/5625 exactly. -/
theorem test_pcr_seconds :
    pcrSeconds { State.reset with record := { Record.zero with pcr := { PcrRegs.zero with ticksHi := 0x12C } } } =
      268435456 / 5625 := by
  have h : pcrTicks { State.reset with record := { Record.zero with pcr := { PcrRegs.zero with ticksHi := 0x12C } } } =
      1288490188800 := by decide
  rw [pcrSeconds, h]
  norm_num

/-- V-PES: PES_HDL, BUF_LEN, LAST_APPEND, STATUS, PES_INFO and RSM_STATE of Start frames by f[14]. -/
theorem test_start_offsets :
    [0#8, 5#8, 169#8, 173#8, 200#8].map (fun n =>
        regs [20, 22, 23, 2, 17, 21] (after (.rsmStart { TsHeader.zero with pusi := 1 }) (full (startFrame [n])))) =
      [[9#32, 173#32, 173#32, 0#32, 0xC003#32, 0x201#32], [0x0E#32, 168#32, 168#32, 0#32, 0xC003#32, 0x201#32],
       [0xB2#32, 4#32, 4#32, 0#32, 0xC003#32, 0x201#32], [0xB6#32, 0#32, 0#32, 0#32, 0xC003#32, 0x201#32],
       [0xD1#32, 0#32, 0#32, 0x2000#32, 0xC003#32, 0x201#32]] := by decide +kernel

/-- V-PES: AUD_FIELDS SHORT below four bytes, a decode of f[184..187] at f[14] 169. -/
theorem test_start_audio :
    regs [22, 25] (after (.rsmStart { TsHeader.zero with pusi := 1 }) (full (startFrame [170#8]))) = [3#32, 6#32] ∧
      regs [25, 26, 27] (after (.rsmStart { TsHeader.zero with pusi := 1 })
        { full (startFrame [169#8]) with
          fb := writeBytes (frame (startFrame [169#8])) 184 [0xFF#8, 0xFF#8, 0xFF#8, 0xFF#8] }) =
        [0x0FFFF1F3#32, 0x00030000#32, 0x00020000#32] := by decide +kernel

theorem test_pes_decode :
    regs [17, 18, 19, 20] (after (.pesDecode ⟨1#24, 0xC0#8, 0x0B40#16, 5#8⟩) State.reset) =
      [0xC002#32, 1#32, 0x0B40#32, 0x0E#32] := by decide

/-- V-RSM: NOT_TRACKED, IDLE, IDLE after an End. -/
theorem test_rsm_reports :
    regs [21, 22, 23] (after .decodeFrame (full [0x47#8, 0x01#8, 0#8, 0x10#8])) = [0x100#32, 0#32, 0#32] ∧
      regs [21, 22, 23] (after .decodeFrame (full [0x47#8, 0#8, 0x44#8, 0x10#8])) = [0x500#32, 0#32, 0#32] ∧
      regs [21, 22, 23] (after .decodeFrame
        { started 15#4 [0x47#8, 0#8, 0x44#8, 0x10#8] with phase := .ended, bufLen := 357 }) =
        [0x5F3#32, 357#32, 0#32] := by decide +kernel

/-- V-RSM: CONTINUE after LAST_CC 2, with PUSI 1, and over the wrap from 15 to 0. -/
theorem test_rsm_continue :
    regs [21, 22, 23, 2] (after .decodeFrame (started 2#4 [0x47#8, 0x40#8, 0x44#8, 0x13#8])) =
        [0x332#32, 357#32, 184#32, 2#32] ∧
      regs [21, 22, 23, 2] (after .decodeFrame (started 15#4 [0x47#8, 0#8, 0x44#8, 0x10#8])) =
        [0x302#32, 357#32, 184#32, 2#32] := by decide +kernel

/-- V-RSM: END at counter 15 after 14, and what it appended. -/
theorem test_rsm_end :
    let t := after .decodeFrame (started 14#4 [0x47#8, 0#8, 0x44#8, 0x1F#8, 0xAB#8])
    regs [21, 22, 23, 2] t = [0x4F3#32, 357#32, 184#32, 0x102#32] ∧ readByte t.buf 173 = 0xAB#8 := by decide +kernel

/-- V-RSM: DISC on a repeat and on a gap with PUSI 1; V-EXC: the conditions raised together. -/
theorem test_rsm_disc :
    regs [21, 22, 23, 2] (after .decodeFrame (started 2#4 [0x47#8, 0#8, 0x44#8, 0x12#8])) =
        [0x621#32, 173#32, 0#32, 0x202#32] ∧
      regs [21, 22, 23, 2] (after .decodeFrame (started 2#4 [0x47#8, 0x40#8, 0x44#8, 0x14#8])) =
        [0x621#32, 173#32, 0#32, 0x202#32] ∧
      regs [2, 21] (after .decodeFrame (started 2#4 [0x46#8, 0#8, 0x44#8, 0x36#8])) = [0x10602#32, 0x621#32] ∧
      regs [2, 21] (after .decodeFrame (started 2#4 [0x46#8, 0#8, 0x44#8, 0x33#8])) = [0x10402#32, 0x332#32] := by
  decide +kernel

/-- 70_reset_and_hazards.md R167: the tracked PID is switched inside a unit; a frame of the old one is NOT_TRACKED. -/
theorem test_pid_switch :
    regWord 21 (after .decodeFrame { started 2#4 [0x47#8, 0#8, 0x55#8, 0x13#8] with targetPid := 0x055#13 }) =
        0x332#32 ∧
      regWord 21 (after .decodeFrame { started 3#4 [0x47#8, 0#8, 0x44#8, 0x13#8] with
        targetPid := 0x055#13, phase := .continuing }) = 0x132#32 := by decide +kernel

/-! ## Audio operations: V-AUD -/

/-- V-AUD: AUD_FIELDS, AUD_BITRATE, AUD_SRATE and AUD_FSIZE of numeric rows. -/
theorem test_audio_numeric :
    [0xFFFB9064#32, 0xFFFB9264#32, 0xFFFBE464#32, 0xFFF38000#32, 0xFFE38800#32, 0xFFFFE800#32, 0xFFFFE200#32,
      0xFFFDA400#32].map (fun w => regs [25, 26, 27, 28] (after (.audFields (AudHeader.unpack w)) State.reset)) =
      [[0x02909173#32, 0x00010080#32, 0x0001AC44#32, 0x000101A1#32],
       [0x02949173#32, 0x00010080#32, 0x0001AC44#32, 0x000101A2#32],
       [0x0291E173#32, 0x00010140#32, 0x0001BB80#32, 0x000103C0#32],
       [0x00008163#32, 0x00010040#32, 0x00015622#32, 0x000101A1#32],
       [0x00028143#32, 0x00010040#32, 0x00011F40#32, 0x00010480#32],
       [0x0002E1F3#32, 0x000101C0#32, 0x00017D00#32, 0x000107E0#32],
       [0x0004E1F3#32, 0x000101C0#32, 0x0001AC44#32, 0x000105B7#32],
       [0x0001A1B3#32, 0x000100C0#32, 0x0001BB80#32, 0x00010240#32]] := by decide +kernel

/-- V-AUD: the rows that are FREE, BAD, UNRESOLVED or RESERVED. -/
theorem test_audio_not_numeric :
    [0xFFFB0064#32, 0xFFFBF064#32, 0xFFF7F400#32, 0xFFFB9C64#32, 0xFFEB9064#32, 0xFFF99064#32,
      0xFFEB0000#32].map (fun w => regs [25, 26, 27, 28] (after (.audFields (AudHeader.unpack w)) State.reset)) =
      [[0x02900173#32, 0x00020000#32, 0x0001AC44#32, 0#32], [0x0290F173#32, 0x00030000#32, 0x0001AC44#32, 0#32],
       [0x0001F1E3#32, 0x00030000#32, 0x00015DC0#32, 0#32], [0x02939173#32, 0x00010080#32, 0x00020000#32, 0#32],
       [0x02909153#32, 0x00040000#32, 0x00020000#32, 0#32], [0x02909133#32, 0x00040000#32, 0x0001AC44#32, 0#32],
       [0x00000153#32, 0x00020000#32, 0x00020000#32, 0#32]] := by decide +kernel

/-- V-AUD: a sync of 0x7FE and T-S6; AUD_SHORT. -/
theorem test_audio_miss_and_short :
    regs [24, 25, 26, 27, 28] (after (.audSyncMiss (AudHeader.unpack 0xFFDF9064#32)) State.reset) =
        [0xFFDF9064#32, 2#32, 0#32, 0#32, 0#32] ∧
      regs [24, 25, 26, 27, 28] (after (.audSyncMiss (AudHeader.unpack 0x0000FFFF#32)) State.reset) =
        [0x0000FFFF#32, 2#32, 0#32, 0#32, 0#32] ∧
      regs [24, 25, 26, 27, 28] (after .audShort State.reset) = [0#32, 6#32, 0#32, 0#32, 0#32] := by decide

/-- The three lookups by themselves: 128 kbit/s, 44100 Hz, and 417 from both (T-S5). -/
theorem test_lookups :
    let a := AudHeader.unpack 0xFFFB9064#32
    let s := after (.srLookup a) (after (.brLookup a) State.reset)
    regs [26, 27, 28] s = [0x00010080#32, 0x0001AC44#32, 0#32] ∧ regWord 28 (after (.fsize a) s) = 0x000101A1#32 ∧
      regWord 28 (after (.fsize a) State.reset) = 0#32 := by decide +kernel

/-- Rule R79: the names that T-S5 states. -/
theorem test_names : versionName 3#2 = "MPEG Version 1" ∧ layerName 1#2 = "Layer III" := by decide

/-! ## The assembler lines: rules R87, R88 -/

/-- P3 and P4: `setpid`, `cmd`, `push8`, `push32` and `rdbuf 42`. -/
theorem test_assembler :
    AsmLine.access (.setpid 0x44#32) = writeAt 0x000C#13 0x44#32 ∧
      AsmLine.access (.cmd 7#8) = writeAt 0x0004#13 7#32 ∧ AsmLine.access (.push8 0x47#8) = writeAt 0x0014#13 0x47#32 ∧
      AsmLine.access (.push32 0x47004416#32) = writeAt 0x0018#13 0x47004416#32 ∧
      asmRdbuf 42#10 = readAt 0x10A8#13 ∧
      asmFrame [0x47#8, 0x40#8, 0x44#8, 0x13#8, 0#8, 0#8, 0#8, 0#8] =
        [writeAt 0x0018#13 0x47404413#32, writeAt 0x0018#13 0#32] := by decide

/-! ## Witnesses: concrete states and operands that meet the hypotheses of each statement, clause by clause -/

/-- A state whose next move is the engine's, performing a command. -/
def engineState (c : Command) (s : State) : State := { s with pending := some c, latency := 0 }

/-- A state whose next move is the host's. -/
def hostState (m : HostMove) (s : State) : State := { s with host := [m] }

theorem test_meets_DecodeEncodeRoundTrip :
    Instr.wf (.rsmEnd { TsHeader.zero with cc := 15#4, pid := 0x1FFF#13 }) = true ∧
      decode (encode (.rsmEnd { TsHeader.zero with cc := 15#4, pid := 0x1FFF#13 })) =
        .ok (.rsmEnd { TsHeader.zero with cc := 15#4, pid := 0x1FFF#13 }) := by decide +kernel

theorem test_meets_DecodedOperationsAreWellFormed :
    decode (.bus 0b1_1111111111111#14 5#32) = .ok (.wrIgnored 0x1FFF#13 5#32) := rfl

/-- A full frame (HeaderWordRoundTrip, FreshRecordPerFrame, DecodeFrameCommand). -/
theorem test_meets_full_frame : (full (startFrame [0#8])).fill = 188 ∧ (started 14#4 []).fill = 188 := ⟨rfl, rfl⟩

theorem test_meets_OffsetLowBitsIgnored :
    0x0017#13 &&& 0x1FFC#13 = 0x0014#13 &&& 0x1FFC#13 ∧ (0x0017#13 : BitVec 13) ≠ 0x0014#13 := by decide

/-- The pending command's move, a transaction's, a reset and an idle step. -/
theorem test_meets_StepRunsTheFetchedOperation :
    (fetch (engineState .rsmReset State.reset) = some (.cmd 0x02#32) ∧ decode (.cmd 0x02#32) = .ok .rsmReset ∧
      Instr.wf .rsmReset = true ∧ EngineMoves (engineState .rsmReset State.reset) .rsmReset) ∧
    (fetch (hostState (.access (writeAt 0x0014#13 7#32)) busyState) = some (.bus 0b1_0000000010100#14 7#32) ∧
      decode (.bus 0b1_0000000010100#14 7#32) = .ok (.push8 7#32) ∧ Instr.wf (.push8 7#32) = true ∧
      HostMoves (hostState (.access (writeAt 0x0014#13 7#32)) busyState) (.access (writeAt 0x0014#13 7#32))) ∧
    (fetch (hostState .reset State.reset) = none ∧ HostMoves (hostState .reset State.reset) .reset) ∧
    (fetch State.reset = none ∧ State.reset.pending = none ∧ State.reset.host = []) :=
  ⟨⟨rfl, rfl, rfl, rfl, rfl⟩, ⟨rfl, rfl, rfl, .inr (by decide), rfl⟩, ⟨rfl, .inl rfl, rfl⟩, rfl, rfl, rfl⟩

theorem test_meets_PendingCommandCompletes :
    busyState.pending = some .decodeFrame ∧ HostMove.reset ∉ busyState.host.take busyState.latency ∧
      (hostState (.access (writeAt 0x0014#13 7#32)) busyState).pending = some .decodeFrame ∧
      HostMove.reset ∉ (hostState (.access (writeAt 0x0014#13 7#32)) busyState).host.take 2 := by decide

theorem test_meets_BusyHostChangesNothing :
    (hostState (.access (writeAt 0x0004#13 0x80#32)) busyState).pending = some .decodeFrame ∧
      HostMoves (hostState (.access (writeAt 0x0004#13 0x80#32)) busyState) (.access (writeAt 0x0004#13 0x80#32)) :=
  ⟨rfl, .inr (by decide), rfl⟩

/-- A reset while a command waits, with something to lose. -/
theorem test_meets_ResetEvent :
    HostMoves (hostState .reset { busyState with fill := 3, targetPid := 5#13 }) .reset := ⟨.inr (by decide), rfl⟩

/-- Both sides of the block's 0x2000 bytes. -/
theorem test_meets_AddressDecode :
    (∃ addr, addr < Config.base ∨ Config.base + 0x2000 ≤ addr) ∧ offsetOf (Config.base + 0x1FFF) = some 0x1FFF#13 ∧
      offsetOf (Config.base + 0x2000) = none := by
  refine ⟨⟨Config.base + 0x2000, .inr (Nat.le_refl _)⟩, ?_, ?_⟩
  · unfold offsetOf
    rw [if_pos ⟨by omega, by unfold Config.regSpace; omega⟩, Nat.add_sub_cancel_left]
  · unfold offsetOf
    rw [if_neg (by unfold Config.regSpace; omega)]

/-- FILL 187, FILL 188, a command pending. -/
theorem test_meets_Push8Result :
    (Memory.wf (full [1#8]).fb ∧ (full [1#8]).pending = none ∧ 188 ≤ (full [1#8]).fill) ∧
      (Memory.wf (frame [1#8]) ∧ ({ full [1#8] with fill := 187 } : State).fill < 188) ∧
      Memory.wf busyState.fb ∧ busyState.pending ≠ none := by decide

/-- FILL 184 takes all four bytes, 185 drops one; a command pending. -/
theorem test_meets_Push32Result :
    let s : State := { full [1#8] with fill := 184 }
    let t : State := { full [1#8] with fill := 185 }
    (Memory.wf s.fb ∧ s.pending = none ∧ (after (.push32 0x01020304#32) s).fill = 188 ∧
      raised .fillOvf (after (.push32 0x01020304#32) s) = false) ∧
    (Memory.wf t.fb ∧ t.pending = none ∧ (after (.push32 0x01020304#32) t).fill = 188 ∧
      raised .fillOvf (after (.push32 0x01020304#32) t) = true) ∧
    Memory.wf busyState.fb ∧ busyState.pending ≠ none := by decide

theorem test_meets_FrameLinesFillTheBuffer :
    (List.replicate 188 (0x47#8 : Byte)).length = 188 ∧ Memory.wf State.reset.fb ∧ State.reset.pending = none ∧
      State.reset.fill = 0 := ⟨List.length_replicate, by decide, rfl, rfl⟩

/-- Nothing pending, and a command pending (WriteTargetPidResult, CommandIssue, ReservedOpcodeRefused,
WritesWhileBusy, ReservedSpaceReadsZero, IdleReadsRepeat, ReadsWhileBusy, PayloadWindowRead). -/
theorem test_meets_idle_and_busy : State.reset.pending = none ∧ busyState.pending ≠ none := by decide

/-- Opcodes 3 and 4, where the clauses meet; and a step that issues a command. -/
theorem test_meets_CommandIssue :
    (3#32).toNat % 256 ≤ 3 ∧ 3 < (4#32).toNat % 256 ∧
      ∃ t, step (hostState (.access (writeAt 0x0006#13 0x103#32)) State.reset) = .next t ∧
        (hostState (.access (writeAt 0x0006#13 0x103#32)) State.reset).pending = none ∧ t.pending ≠ none :=
  ⟨by decide, by decide, _, rfl, rfl, by decide⟩

theorem test_meets_ReservedOpcodeRefused :
    Instr.reserved80ff 0x80#8 ∈ [Instr.reserved0407 0x80#8, .reserved080f 0x80#8, .reserved101f 0x80#8,
      .reserved203f 0x80#8, .reserved407f 0x80#8, .reserved80ff 0x80#8] := by decide

/-- FRAME_DATA32 with low bits set, and its neighbours FRAME_FILL and 0x001C. -/
theorem test_meets_WritesWhileBusy :
    (0x001B#13 : BitVec 13) &&& 0x1FFC#13 ∈ [0x0004#13, 0x000C#13, 0x0014#13, 0x0018#13] ∧
      (0x0010#13 : BitVec 13) &&& 0x1FFC#13 ∉ [0x0004#13, 0x000C#13, 0x0014#13, 0x0018#13] ∧
      (0x001C#13 : BitVec 13) &&& 0x1FFC#13 ∉ [0x0004#13, 0x000C#13, 0x0014#13, 0x0018#13] := by decide

/-- An offset that no write acts on, the first reserved offset after AUD_FSIZE, a write-only register, two data words
that differ only above bit 12. -/
theorem test_meets_ReservedSpaceReadsZero :
    writable 0x0010#13 = false ∧ 0x074 ≤ (0x074#12 : BitVec 12).toNat ∧
      (0x007#12 : BitVec 12).toNat / 4 ∈ [1, 5, 6, 7] ∧
      0xFFFFE044#32 &&& 0x1FFF#32 = 0x44#32 &&& 0x1FFF#32 := by decide

/-- A row of each list, in a state at the bounds of FILL and BUF_LEN. -/
theorem test_meets_RegisterFieldsRead :
    let s : State := { State.reset with fill := 188, bufLen := 3117 }
    s.pending = none ∧ s.fill ≤ 188 ∧ s.bufLen ≤ 3117 ∧
      (⟨0x010#12, 0, 8, 188⟩ : FieldRow) ∈ controlFields s ++ recordFields s ++ unitFields s ∧
      (⟨0x05C#12, 0, 8, 0⟩ : FieldRow) ∈ controlFields s ++ recordFields s ++ unitFields s ∧
      (⟨0x058#12, 0, 13, 3117⟩ : FieldRow) ∈ controlFields s ++ recordFields s ++ unitFields s := by
  refine ⟨rfl, by decide, by decide, ?_, ?_, ?_⟩ <;> simp [controlFields, recordFields, unitFields, State.reset, Record.zero]

/-- The first and the last volatile register, and the registers on both sides of them. -/
theorem test_meets_ReadsWhileBusy :
    busyState.pending ≠ none ∧ 0x020 ≤ (0x020#12 : BitVec 12).toNat ∧ (0x073#12 : BitVec 12).toNat < 0x074 ∧
      0x074 ≤ (0x074#12 : BitVec 12).toNat ∧ (0x01F#12 : BitVec 12).toNat / 4 ∈ [1, 5, 6, 7] ∧
      (⟨0x008#12, 0, 1, 1⟩ : FieldRow) ∈ controlFields busyState ∧ busyState.fill ≤ 188 := by
  refine ⟨by decide, by decide, by decide, by decide, by decide, ?_, by decide⟩
  simp [controlFields, busyState, State.reset]

/-- A full frame and one byte less; and a frame for each arm of the dispatch. -/
theorem test_meets_DecodeFrameCommand :
    (full (startFrame [0#8])).fill = 188 ∧ ({ full [] with fill := 187 } : State).fill ≠ 188 ∧
      [rsmOp (headerOf (frame [0x47#8, 0x01#8, 0x45#8, 0x20#8])) (full []),
       rsmOp (headerOf (frame [0x47#8, 0x40#8, 0x44#8, 0x30#8])) (full []),
       rsmOp (headerOf (frame [0x47#8, 0x00#8, 0x44#8, 0x10#8])) (full []),
       rsmOp (headerOf (frame [0x47#8, 0x00#8, 0x44#8, 0x1F#8])) (started 14#4 []),
       rsmOp (headerOf (frame [0x47#8, 0x00#8, 0x44#8, 0x10#8])) (started 15#4 []),
       rsmOp (headerOf (frame [0x47#8, 0x00#8, 0x44#8, 0x1F#8])) (started 15#4 [])] =
        [.notTracked, .start, .idle, .ends, .continues, .disc] := by decide +kernel

/-- Decoded frames: no adaptation field, one without a PCR, no Start, nothing appended. -/
theorem test_meets_FreshRecordPerFrame :
    (after .decodeFrame (full [0x47#8, 0x00#8, 0x44#8, 0x10#8])).record.ts.afc.toNat < 2 ∧
      (after .decodeFrame (full [0x47#8, 0x00#8, 0x44#8, 0x20#8, 7#8, 0xEF#8])).record.af.flags.getLsbD 4 = false ∧
      (after .decodeFrame (full [0x47#8, 0x00#8, 0x44#8, 0x20#8, 7#8, 0xEF#8])).record.event = .idle := by
  decide +kernel

/-- With a PCR and without one; a stuffing count of 0 and of -1. -/
theorem test_meets_AfDecodeResult :
    (readByte (full [0#8, 0#8, 0#8, 0#8, 7#8, 0x10#8]).fb 5).getLsbD 4 = true ∧
      (readByte (full [0#8, 0#8, 0#8, 0#8, 1#8, 0xEF#8]).fb 5).getLsbD 4 = false ∧
      (readByte (full [0#8, 0#8, 0#8, 0#8, 1#8, 0xEF#8]).fb 4).toNat = 1 ∧
      (readByte (full [0#8, 0#8, 0#8, 0#8, 0#8, 0xEF#8]).fb 4).toNat = 0 := by decide +kernel

/-- Every selection of ReassemblyReportsOnly. -/
theorem test_meets_ReassemblyReportsOnly :
    rsmOp { TsHeader.zero with pid := 0x045#13 } (full []) = .notTracked ∧
      rsmOp { TsHeader.zero with pid := 0x044#13 } (full []) = .idle ∧
      rsmOp { TsHeader.zero with pid := 0x044#13, cc := 1#4 } (started 15#4 []) = .disc := by decide +kernel

/-- RsmContinueResult and RsmEndResult: a payload buffer in canonical form, and both sides of the selections. -/
theorem test_meets_RsmContinueResult :
    Memory.wf (payload [1#8, 0#8, 2#8]).buf ∧
      rsmOp { TsHeader.zero with pid := 0x044#13, cc := 0#4 } (started 15#4 []) = .continues ∧
      rsmOp { TsHeader.zero with pid := 0x044#13, cc := 15#4 } (started 14#4 []) = .ends := by decide +kernel

/-- f[14] 173 appends nothing without PES_OVERRUN, 174 raises it; and a frame that is selected. -/
theorem test_meets_RsmStartResult :
    Memory.wf (full (startFrame [173#8])).buf ∧
      raised .pesOverrun (after (.rsmStart TsHeader.zero) (full (startFrame [173#8]))) = false ∧
      raised .pesOverrun (after (.rsmStart TsHeader.zero) (full (startFrame [174#8]))) = true ∧
      rsmOp { TsHeader.zero with pid := 0x044#13, pusi := 1#1 } (full []) = .start := by decide +kernel

/-- One frame that ends a unit (counter 14), and one of sixteen after counter 15. -/
theorem test_meets_UnitEndsAtFifteen :
    ((started 14#4 []).phase = .start ∧ InSequence 0x044#13 14#4 [frame [0x47#8, 0#8, 0x44#8, 0x1F#8]] ∧
      [frame [0x47#8, 0#8, 0x44#8, 0x1F#8]].length = framesToEnd 14#4) ∧
    ((started 15#4 []).phase = .start ∧ InSequence 0x044#13 15#4 [frame [0x47#8, 0#8, 0x44#8, 0x10#8]] ∧
      [frame [0x47#8, 0#8, 0x44#8, 0x10#8]].length < framesToEnd 15#4 ∧ framesToEnd 15#4 = 16) := by
  refine ⟨⟨rfl, ⟨by decide +kernel, by decide +kernel, trivial⟩, rfl⟩,
    rfl, ⟨by decide +kernel, by decide +kernel, trivial⟩, by decide, rfl⟩

/-- A step that is no Start (a push), and a decoded frame inside a unit with PUSI 1. -/
theorem test_meets_BufferOnlyGrows :
    let s := hostState (.access (writeAt 0x0014#13 7#32)) State.reset
    let u := engineState .decodeFrame (started 2#4 [0x47#8, 0x40#8, 0x44#8, 0x13#8])
    ((∃ t, step s = .next t) ∧ ¬ EngineMoves s .rsmReset ∧ ¬ HostMoves s .reset ∧ ¬ EngineMoves s .decodeFrame) ∧
    ((∃ t, step u = .next t) ∧ EngineMoves u .decodeFrame ∧ u.fill = 188 ∧ u.phase = .start) := by
  refine ⟨⟨⟨_, rfl⟩, ?_, ?_, ?_⟩, ⟨_, rfl⟩, ⟨rfl, rfl⟩, rfl, rfl⟩ <;> simp only [EngineMoves, HostMoves] <;> decide

/-- BrLookupResult and SrLookupResult: every branch of their chains, at its ends. -/
theorem test_meets_BrLookupResult :
    [lookupBitrate 0#4 1#2 0#2, lookupBitrate 15#4 1#2 0#2, lookupBitrate 1#4 1#2 3#2, lookupBitrate 14#4 3#2 0#2].map
        (fun b => b.kind) = [.free, .bad, .unresolved, .unresolved] ∧
      [lookupBitrate 1#4 3#2 3#2, lookupBitrate 14#4 0#2 1#2].map (fun b => b.kbps.toNat) = [32, 160] ∧
      [lookupSrate 3#2 3#2, lookupSrate 0#2 1#2].map (fun r => r.kind) = [.reserved, .reserved] ∧
      [lookupSrate 0#2 3#2, lookupSrate 2#2 0#2].map (fun r => r.hz.toNat) = [44100, 8000] := by decide

theorem test_meets_TableValuesAndRanges :
    (lookupBitrate 1#4 3#2 3#2).kind = .numeric ∧ (lookupSrate 0#2 3#2).kind = .numeric := by decide

/-- Both numeric, both from lookups; and registers that are not. -/
theorem test_meets_FsizeResult :
    let s : State := { State.reset with
      aud := { AudRegs.zero with bitrate := lookupBitrate 9#4 3#2 1#2, srate := lookupSrate 0#2 3#2 } }
    (s.aud.bitrate.kind = .numeric ∧ s.aud.srate.kind = .numeric ∧
      (∃ i v l, s.aud.bitrate = lookupBitrate i v l) ∧ ∃ r v, s.aud.srate = lookupSrate r v) ∧
    ¬ (State.reset.aud.bitrate.kind = .numeric ∧ State.reset.aud.srate.kind = .numeric) :=
  ⟨⟨rfl, rfl, ⟨9#4, 3#2, 1#2, rfl⟩, 0#2, 3#2, rfl⟩, by decide⟩

/-- A state of each outcome. -/
theorem test_meets_AudioOutcomesTellApart :
    [audioOutcome State.reset, audioOutcome (after .audShort State.reset),
      audioOutcome (after (.audSyncMiss ⟨0#11, AudCodes.zero⟩) State.reset),
      audioOutcome (after (.audFields ⟨0x7FF#11, AudCodes.zero⟩) State.reset)] =
      [.noDecode, .tooShort, .syncMiss, .found] := by decide

/-- The invariants hold after reset and in a unit that ends (StepKeepsMemoryInv, StepKeepsReassemblyInv,
StepKeepsRecordInv), and a step runs there. -/
theorem test_meets_StepKeepsInvariants :
    let s := engineState .decodeFrame (started 14#4 [0x47#8, 0#8, 0x44#8, 0x1F#8])
    MemoryInv s ∧ ReassemblyInv s ∧ RecordInv s.record ∧ ∃ t, step s = .next t := by
  refine ⟨?_, ?_, ?_, _, rfl⟩
  · unfold MemoryInv; decide +kernel
  · unfold ReassemblyInv; decide +kernel
  · unfold RecordInv; decide +kernel

theorem test_meets_StepKeepsUnitInv :
    UnitInv (engineState .decodeFrame (full (startFrame [0#8]))) ∧
      ∃ t, step (engineState .decodeFrame (full (startFrame [0#8]))) = .next t := by
  refine ⟨?_, _, rfl⟩
  unfold UnitInv AudioInv
  decide +kernel

/-- A step that changes PHASE, and the unit and record registers (PhaseOnlyMovedBy, UnitRegistersWrittenBy). -/
theorem test_meets_PhaseOnlyMovedBy :
    let s := engineState .decodeFrame (full (startFrame [0#8]))
    (∃ t, step s = .next t) ∧ (afterStep s).phase ≠ s.phase ∧ (afterStep s).pes ≠ s.pes ∧
      (afterStep s).record ≠ s.record := by
  refine ⟨⟨_, rfl⟩, ?_⟩
  decide +kernel

/-- A raised bit, in a step that is neither CLEAR_STICKY nor a reset. -/
theorem test_meets_StickyBitsStay :
    let s := hostState (.access (writeAt 0x0014#13 7#32)) { State.reset with sticky := 1#9 }
    (∃ t, step s = .next t) ∧ raised .unitEnded s = true ∧ ¬ EngineMoves s .clearSticky ∧ ¬ HostMoves s .reset := by
  refine ⟨⟨_, rfl⟩, by decide, ?_, ?_⟩ <;> simp only [EngineMoves, HostMoves] <;> decide

/-- Two states that differ in a hidden byte of each buffer, at its very first place. -/
theorem test_meets_HiddenBytesInvisible :
    let s : State := { State.reset with fb := [(2, 0x11#8)], fill := 2, buf := [(0, 9#8)], bufLen := 1 }
    let t : State := { State.reset with fb := [], fill := 2, buf := [(0, 9#8), (1, 7#8)], bufLen := 1 }
    SameVisible s t ∧ s ≠ t ∧ (∃ u, step s = .next u) ∧ ∃ u, step t = .next u := by
  refine ⟨⟨rfl, by decide, by decide, by decide, by decide, by decide, by decide⟩, by decide, ⟨_, rfl⟩, _, rfl⟩

theorem test_meets_PartialResetSequence :
    State.reset.fill < 188 ∧ (started 3#4 []).fill - 1 < 188 ∧ ({ started 3#4 [] with fill := 187 } : State).fill < 188 := by
  decide

end Sys2Proof.Tests
end

section
/-! PROOFS of the scope's statements: what a step runs and which words were fetched, by the move that comes next, and
the address decode outside the block. -/

namespace Sys2Proof.Machine

/-! ## The words that are fetched -/

theorem fetch_of_engineMoves {s : State} {c : Command} (h : EngineMoves s c) : fetch s = some (.cmd c.word) := by
  simp only [fetch, nextMove_of_engineMoves h]

theorem fetch_of_hostMoves_access {s : State} {a : Access} (h : HostMoves s (.access a)) :
    fetch s = some (.bus (busKey a.write a.offset) a.data) := by
  simp only [fetch, nextMove_of_hostMoves h]

theorem fetch_of_hostMoves_reset {s : State} (h : HostMoves s .reset) : fetch s = none := by
  simp only [fetch, nextMove_of_hostMoves h]

/-- Nobody moves only where the host has no move left. -/
theorem host_eq_nil_of_nextMove_idle {s : State} (h : nextMove s = .idle) : s.host = [] := by
  unfold nextMove at h
  split at h
  · cases h
  · cases h
  · next hh _ => exact hh

/-- No word is fetched only where the next move is a reset or the host has none. -/
theorem reset_or_host_eq_nil_of_fetch_eq_none {s : State} (h : fetch s = none) :
    HostMoves s .reset ∨ s.host = [] := by
  unfold fetch at h
  split at h
  · cases h
  · cases h
  · next hr => exact .inl (hostMoves_of_nextMove hr)
  · next hi => exact .inr (host_eq_nil_of_nextMove_idle hi)

/-! ## What a step runs -/

theorem step_of_engineMoves {s : State} {c : Command} (h : EngineMoves s c) :
    step s = exec (commandInstr c) s := by
  simp only [step, nextMove_of_engineMoves h]

theorem step_of_hostMoves_access {s : State} {a : Access} (h : HostMoves s (.access a)) :
    step s = exec (accessInstr a) (advance s) := by
  simp only [step, nextMove_of_hostMoves h]

/-- In the engine's move, the operation that the fetched words decode to runs in the state itself. -/
theorem step_engine_eq_exec_of_decode {s : State} {c : Command} {p : Packet} {i : Instr} (h : EngineMoves s c)
    (hp : fetch s = some p) (hi : decode p = .ok i) : step s = exec i s := by
  obtain rfl : Packet.cmd c.word = p := Option.some.inj ((fetch_of_engineMoves h).symm.trans hp)
  obtain rfl : commandInstr c = i := Except.ok.inj hi
  exact step_of_engineMoves h

/-- In the host's move, it runs in the state with the move taken off the host's list. -/
theorem step_host_eq_exec_of_decode {s : State} {m : HostMove} {p : Packet} {i : Instr} (h : HostMoves s m)
    (hp : fetch s = some p) (hi : decode p = .ok i) : step s = exec i (advance s) := by
  cases m with
  | access a =>
    obtain rfl : Packet.bus (busKey a.write a.offset) a.data = p :=
      Option.some.inj ((fetch_of_hostMoves_access h).symm.trans hp)
    obtain rfl : accessInstr a = i := Except.ok.inj hi
    exact step_of_hostMoves_access h
  | reset => cases (fetch_of_hostMoves_reset h).symm.trans hp

/-- With nothing pending and no move of the host, a step leaves the state as it is. -/
theorem step_of_nothing_to_do {s : State} (hp : s.pending = none) (hh : s.host = []) : step s = .next s := by
  have hm : nextMove s = .idle := by simp only [nextMove, hp, hh]
  have ha : advance s = s := by rw [advance_eq, if_pos hp, hh, List.tail_nil, ← hh]
  simp only [step, hm, ha]

/-- Settles O7, by the agent whose move is next. -/
theorem stepRunsTheFetchedOperation : Obligations.StepRunsTheFetchedOperation := by
  intro s
  refine ⟨fun p i hp hi _ => ⟨fun c h => ?_, fun m h => ?_⟩, ?_, ?_, ?_, ?_⟩
  · exact step_engine_eq_exec_of_decode h hp hi
  · rw [← advance_eq]
    exact step_host_eq_exec_of_decode h hp hi
  · exact fun _ => fetch_of_engineMoves
  · exact fun _ => fetch_of_hostMoves_access
  · exact reset_or_host_eq_nil_of_fetch_eq_none
  · exact step_of_nothing_to_do

/-! ## The address decode -/

/-- The block's size as the number written in the statement: BASE is opaque, so the unifier does not see through
REG_SPACE inside terms that hold it. -/
theorem regSpace_eq : Config.regSpace = 0x2000 := rfl

theorem base_mod_regSpace : Config.base % Config.regSpace = 0 := by
  unfold Config.base
  exact Nat.mul_mod_left _ _

/-- The address BASE + off is offset off of the block. -/
theorem offsetOf_base_add (off : BitVec 13) : offsetOf (Config.base + off.toNat) = some off := by
  have hlt : off.toNat < Config.regSpace := off.isLt
  unfold offsetOf
  rw [if_pos (by omega), Nat.add_sub_cancel_left, BitVec.ofNat_toNat, BitVec.setWidth_eq]

/-- An address outside the block's bytes is no offset. -/
theorem offsetOf_eq_none {addr : Nat} (h : addr < Config.base ∨ Config.base + Config.regSpace ≤ addr) :
    offsetOf addr = none := by
  unfold offsetOf
  rw [if_neg (by omega)]

/-- Settles O13: BASE is a multiple of the block's 0x2000 bytes, which 13-bit offsets fill exactly. -/
theorem addressDecode : Obligations.AddressDecode := by
  unfold Obligations.AddressDecode
  rw [← regSpace_eq]
  exact ⟨base_mod_regSpace, offsetOf_base_add, fun _ => offsetOf_eq_none⟩

end Sys2Proof.Machine
end

section
/-! PROOFS of the state's invariants, part 1: what one step can do to the reassembly state, to the record registers
and to the unit registers, said once. A step that touches them decodes a full frame (with a report, a Start or an
append), or is RSM_RESET, or is the reset input. -/

namespace Sys2Proof.Machine

/-! ## The part of the record that the header and the adaptation field decide -/

/-- The clauses of `RecordInv` about the header, the adaptation field and the PCR. -/
structure FrameFields (r : Record) : Prop where
  tsHdr : r.tsHdr = r.ts.pack
  valid : r.af.valid = r.ts.afc.getLsbD 1
  pcrValid : r.af.pcrValid = (r.af.valid && r.af.flags.getLsbD 4)
  absent : r.af.valid = false → r.af = AfInfo.zero ∧ r.afStuff = 0#32
  stuff : r.af.valid = true → r.afStuff.toInt = stuffing r.af.length r.af.pcrValid
  noPcr : r.af.pcrValid = false → r.pcr = PcrRegs.zero
  ticks : (r.pcr.ticksHi ++ r.pcr.ticksLo).toNat = (r.pcr.baseHi ++ r.pcr.baseLo).toNat * 300 + r.pcr.ext.toNat

/-- The clauses of `RecordInv` about the event (rules R35, R39, R41). -/
structure EventFields (r : Record) : Prop where
  attached : r.attached = (r.event == .start)
  start : r.event = .start → r.lastAppend.toNat ≤ 173
  append : r.event = .continued ∨ r.event = .ended → r.lastAppend = 184#8
  report : r.event = .notTracked ∨ r.event = .idle ∨ r.event = .disc → r.lastAppend = 0#8
  bound : r.lastAppend.toNat ≤ 184

theorem recordInv_iff (r : Record) : RecordInv r ↔ FrameFields r ∧ EventFields r :=
  ⟨fun ⟨h1, h2, h3, h4, h5, h6, h7, h8, h9, h10, h11, h12⟩ => ⟨⟨h1, h2, h3, h4, h5, h6, h7⟩, h8, h9, h10, h11, h12⟩,
    fun ⟨⟨h1, h2, h3, h4, h5, h6, h7⟩, h8, h9, h10, h11, h12⟩ => ⟨h1, h2, h3, h4, h5, h6, h7, h8, h9, h10, h11, h12⟩⟩

/-- The attachments of rule R110 leave the frame's fields alone. -/
theorem FrameFields.attach {r : Record} (h : FrameFields r) (e : Event) (a : Bool) (n : BitVec 8) :
    FrameFields { r with event := e, attached := a, lastAppend := n } :=
  ⟨h.tsHdr, h.valid, h.pcrValid, h.absent, h.stuff, h.noPcr, h.ticks⟩

/-- Two neighbouring fields of a word, put together again, are the word. -/
theorem extract_append_extract {i j : Nat} (w : BitVec (i + j)) : w.extractLsb' j i ++ w.extractLsb' 0 j = w := by
  apply BitVec.eq_of_getLsbD_eq
  intro k hk
  rw [BitVec.getLsbD_append]
  by_cases hj : k < j
  · simp [hj]
  · simp [hj, show k - j < i by omega, show j + (k - j) = k by omega]

/-- The ticks fit their 42 bits (rule R98). -/
theorem ticks_toNat (base : BitVec 33) (ext : BitVec 9) : (ticks base ext).toNat = base.toNat * 300 + ext.toNat := by
  have hb := base.isLt
  have he := ext.isLt
  rw [ticks, BitVec.toNat_ofNat, Nat.mod_eq_of_lt (by omega)]

/-- AF_STUFF holds the stuffing count, negative or not (rule R96). -/
theorem toInt_stuffing (length : Byte) (pcr : Bool) :
    (BitVec.ofInt 32 (stuffing length pcr)).toInt = stuffing length pcr := by
  have hl := length.isLt
  rw [BitVec.toInt_ofInt]
  apply Int.bmod_eq_of_le <;> cases pcr <;> simp only [stuffing] <;> split <;> omega

/-- The PCR registers after PCR_DECODE hold the ticks of their base and extension (rule R98). -/
theorem pcrDecode_ticks (s : State) :
    ((pcrDecode s).record.pcr.ticksHi ++ (pcrDecode s).record.pcr.ticksLo).toNat =
      ((pcrDecode s).record.pcr.baseHi ++ (pcrDecode s).record.pcr.baseLo).toNat * 300 +
        (pcrDecode s).record.pcr.ext.toNat := by
  simp only [pcrDecode]
  rw [extract_append_extract (i := 10) (j := 32), extract_append_extract (i := 1) (j := 32), ticks_toNat]

/-- So do the registers of a frame with no PCR. -/
theorem pcrRegs_zero_ticks : (PcrRegs.zero.ticksHi ++ PcrRegs.zero.ticksLo).toNat =
    (PcrRegs.zero.baseHi ++ PcrRegs.zero.baseLo).toNat * 300 + PcrRegs.zero.ext.toNat := by decide

/-- The record that AF_DECODE leaves (rule R94). -/
theorem afDecode_record (s : State) :
    (afDecode s).record = { s.record with
      af := { valid := true, pcrValid := (readByte s.fb 5).getLsbD 4, length := readByte s.fb 4,
              flags := readByte s.fb 5 },
      afStuff := BitVec.ofInt 32 (stuffing (readByte s.fb 4) ((readByte s.fb 5).getLsbD 4)),
      pcr := if (readByte s.fb 5).getLsbD 4 then (pcrDecode s).record.pcr else PcrRegs.zero } := by
  simp only [afDecode]
  split
  · simp only [pcrDecode, raiseIf_record, raiseIf_fb]
  · simp only [pcrClear_record, raiseIf_record]

/-- AF_DECODE leaves a record that describes the frame, if the header's AFC selects it (rules R94, R96 to R98). -/
theorem afDecode_frameFields {s : State} (hh : s.record.tsHdr = s.record.ts.pack)
    (hv : s.record.ts.afc.getLsbD 1 = true) : FrameFields (afDecode s).record := by
  rw [afDecode_record]
  refine ⟨hh, hv.symm, rfl, fun h => Bool.noConfusion h, fun _ => toInt_stuffing _ _,
     fun h => if_neg (Bool.eq_false_iff.1 h), ?_⟩
  dsimp only
  split
  · exact pcrDecode_ticks s
  · exact pcrRegs_zero_ticks

/-- AF_ABSENT does, if the header's AFC selects that (rule R95). -/
theorem afAbsent_frameFields {s : State} (hh : s.record.tsHdr = s.record.ts.pack)
    (hv : s.record.ts.afc.getLsbD 1 = false) : FrameFields (afAbsent s).record :=
  ⟨hh, hv.symm, rfl, fun _ => ⟨rfl, rfl⟩, fun h => Bool.noConfusion h, fun _ => rfl, pcrRegs_zero_ticks⟩

/-- After TS_EXTRACT and the adaptation field the record describes the header's frame (rules R93 to R98). -/
theorem adaptation_frameFields (h : TsHeader) (s : State) : FrameFields (adaptation h (tsExtract h s)).record := by
  rw [tsExtract_frame, adaptation]
  split
  · next hv => exact afDecode_frameFields rfl hv
  · next hv => exact afAbsent_frameFields rfl (Bool.eq_false_iff.2 hv)

/-! ## The three ways of a decoded frame -/

/-- The reassembly state and the unit registers are as before. -/
structure UnitKept (s t : State) : Prop where
  phase : t.phase = s.phase
  lastCc : t.lastCc = s.lastCc
  bufLen : t.bufLen = s.bufLen
  buf : t.buf = s.buf
  pes : t.pes = s.pes
  aud : t.aud = s.aud

/-- The frame only reports its event (rules R112, R117, R118). -/
structure FrameReport (s t : State) : Prop where
  event : t.record.event = .notTracked ∨ t.record.event = .idle ∨ t.record.event = .disc
  lastAppend : t.record.lastAppend = 0#8
  kept : UnitKept s t

/-- The frame starts a unit (rules R113, R114). -/
structure FrameStart (s t : State) : Prop where
  phase_before : s.phase = .waiting ∨ s.phase = .ended
  phase : t.phase = .start
  event : t.record.event = .start
  lastAppend : t.record.lastAppend.toNat ≤ 173
  bufLen : t.bufLen ≤ 173
  buf : ∃ bs : List Byte, bs.length ≤ 173 ∧ t.buf = writeBytes s.buf 0 bs
  pes_valid : t.pes.valid = true
  hdl : 9 ≤ t.pes.hdl.toNat ∧ t.pes.hdl.toNat ≤ 264
  aud : ∃ u, t.aud = (audioDecode u).aud

/-- The frame appends its bytes 4 to 187 and goes on with the unit or ends it (rules R115, R116, R120). -/
structure FrameAppend (s t : State) : Prop where
  phase_before : s.phase = .start ∨ s.phase = .continuing
  lastCc : t.lastCc = nextCc s
  outcome : (t.lastCc = 15#4 ∧ t.phase = .ended ∧ t.record.event = .ended) ∨
    (t.lastCc ≠ 15#4 ∧ t.phase = .continuing ∧ t.record.event = .continued)
  lastAppend : t.record.lastAppend = 184#8
  bufLen : t.bufLen = s.bufLen + 184
  buf : t.buf = writeBytes s.buf s.bufLen (slice s.fb 4 188)
  pes : t.pes = s.pes
  aud : t.aud = s.aud

/-- One of the three. -/
def FrameOutcome (s t : State) : Prop := FrameReport s t ∨ FrameStart s t ∨ FrameAppend s t

theorem rsmStart_frameStart (h : TsHeader) {s : State} (hp : s.phase = .waiting ∨ s.phase = .ended) :
    FrameStart s (rsmStart h s) := by
  have hn := (readByte s.fb 14).isLt
  have hd := headerDataLength_framePes s
  have haud : ∃ u, (rsmStart h s).aud = (audioDecode u).aud := ⟨_, rfl⟩
  have e := rsmStart_eq h s _ rfl
  generalize (readByte s.fb 14).toNat = n at *
  generalize rsmStart h s = t at *
  refine ⟨hp, by rw [e], by rw [e], ?_, by rw [e]; simp, ?_, by rw [e]; rfl, by rw [e]; simp only [pesDecode_pes]; omega,
    haud⟩
  · rw [e]
    exact (Nat.mod_le _ _).trans (Nat.sub_le _ _)
  · by_cases hle : n ≤ 173
    · exact ⟨slice s.fb (15 + n) 188, by rw [length_slice]; omega, by rw [e]; exact if_pos hle⟩
    · exact ⟨[], by simp, by rw [e]; exact if_neg hle⟩

/-- The reassembly of a frame has one of the three outcomes and attaches ATTACHED with its event. -/
theorem reassemble_outcome (h : TsHeader) (s : State) :
    FrameOutcome s (reassemble h s) ∧
      (reassemble h s).record.attached = ((reassemble h s).record.event == .start) := by
  rcases reassemble_cases h s with ⟨-, e⟩ | ⟨-, hp, -, e⟩ | ⟨-, -, -, e⟩ | ⟨-, hp, hc, h15, e⟩ | ⟨-, hp, hc, h15, e⟩ |
    ⟨-, -, -, e⟩ <;> rw [e]
  · exact ⟨.inl ⟨.inl rfl, rfl, ⟨rfl, rfl, rfl, rfl, rfl, rfl⟩⟩, rfl⟩
  · exact ⟨.inr (.inl (rsmStart_frameStart h hp)), rfl⟩
  · exact ⟨.inl ⟨.inr (.inl rfl), rfl, ⟨rfl, rfl, rfl, rfl, rfl, rfl⟩⟩, rfl⟩
  · rw [rsmEnd_eq]
    exact ⟨.inr (.inr ⟨hp, hc, .inl ⟨h15, rfl, rfl⟩, rfl, rfl, by dsimp only, rfl, rfl⟩), rfl⟩
  · rw [rsmContinue_eq]
    exact ⟨.inr (.inr ⟨hp, hc, .inr ⟨h15, rfl, rfl⟩, rfl, rfl, by dsimp only, rfl, rfl⟩), rfl⟩
  · exact ⟨.inl ⟨.inr (.inr rfl), rfl, ⟨rfl, rfl, rfl, rfl, rfl, rfl⟩⟩, rfl⟩

/-- An outcome depends on nothing of the state before but the frame, the reassembly state and the unit registers, and
the end of the engine step (rules R137, R141) changes nothing that it speaks of. -/
theorem FrameOutcome.decodeFrame {s t : State} {r : Record} {st : BitVec 9}
    (h : FrameOutcome { s with record := r, sticky := st } t) : FrameOutcome s (retire .ok { t with fill := 0 }) := by
  rcases h with ⟨h1, h2, ⟨k1, k2, k3, k4, k5, k6⟩⟩ | ⟨h1, h2, h3, h4, h5, h6, h7, h8, h9⟩ |
    ⟨h1, h2, h3, h4, h5, h6, h7, h8⟩
  · exact .inl ⟨h1, h2, ⟨k1, k2, k3, k4, k5, k6⟩⟩
  · exact .inr (.inl ⟨h1, h2, h3, h4, h5, h6, h7, h8, h9⟩)
  · exact .inr (.inr ⟨h1, h2, h3, h4, h5, h6, h7, h8⟩)

/-- A decoded frame has one of the three outcomes, and its record describes the frame (rule R107). -/
theorem frameDecode_outcome (s : State) :
    FrameOutcome s (retire .ok { frameDecode s with fill := 0 }) ∧ FrameFields (frameDecode s).record ∧
      (frameDecode s).record.attached = ((frameDecode s).record.event == .start) := by
  have hf := adaptation_frameFields (header s) s
  rw [frameDecode_eq]
  obtain ⟨r, st, e⟩ := beforeReassembly (header s) s
  rw [e] at hf ⊢
  obtain ⟨ho, ha⟩ := reassemble_outcome (header s) { s with record := r, sticky := st }
  refine ⟨ho.decodeFrame, ?_, ha⟩
  rw [reassemble_frame]
  exact hf.attach _ _ _

/-! ## Steps -/

theorem EngineMoves.command_unique {s : State} {c d : Command} (h : EngineMoves s c) (k : EngineMoves s d) : c = d :=
  Option.some.inj (h.1.symm.trans k.1)

/-- The engine and the host never both move next. -/
theorem EngineMoves.not_hostMoves {s : State} {c : Command} {m : HostMove} (h : EngineMoves s c) : ¬ HostMoves s m :=
  fun k => by cases (nextMove_of_engineMoves h).symm.trans (nextMove_of_hostMoves k)

/-- Everything a step can do to the reassembly state, the record registers and the unit registers. -/
theorem step_unit_cases {s t : State} (h : step s = .next t) :
    (EngineMoves s .decodeFrame ∧ s.fill = 188 ∧ FrameOutcome s t ∧ FrameFields t.record ∧
        t.record.attached = (t.record.event == .start)) ∨
      (EngineMoves s .rsmReset ∧ t = rsmReset s) ∨ (HostMoves s .reset ∧ t = resetBlock (advance s)) ∨
      (¬ (EngineMoves s .decodeFrame ∧ s.fill = 188) ∧ UnitKept s t ∧ t.record = s.record) := by
  rcases step_effects h with ⟨hm, hf, rfl⟩ | ⟨-, hf, rfl⟩ | ⟨hm, rfl⟩ | hr | ⟨hm, rfl⟩ | hr | ⟨hm, e, -, -⟩
  · obtain ⟨ho, hff, ha⟩ := frameDecode_outcome s
    exact .inl ⟨hm, hf, ho, hff, ha⟩
  · exact .inr (.inr (.inr ⟨fun ⟨_, hf'⟩ => hf hf', ⟨rfl, rfl, rfl, rfl, rfl, rfl⟩, rfl⟩))
  · exact .inr (.inr (.inr ⟨fun ⟨hd, _⟩ => Command.noConfusion (hm.command_unique hd),
      ⟨rfl, rfl, rfl, rfl, rfl, rfl⟩, rfl⟩))
  · exact .inr (.inl hr)
  · exact .inr (.inr (.inr ⟨fun ⟨hd, _⟩ => Command.noConfusion (hm.command_unique hd),
      ⟨rfl, rfl, rfl, rfl, rfl, rfl⟩, rfl⟩))
  · exact .inr (.inr (.inl hr))
  · refine .inr (.inr (.inr ⟨fun ⟨hd, _⟩ => ?_, ⟨by rw [e], by rw [e], by rw [e], by rw [e], by rw [e], by rw [e]⟩,
      by rw [e]⟩))
    rcases hm with hi | ⟨a, ha⟩
    · cases (nextMove_of_engineMoves hd).symm.trans hi
    · exact hd.not_hostMoves ha

end Sys2Proof.Machine
end

section
/-! PROOFS of the state's invariants, part 2: each invariant holds after reset and every step keeps it, by the ways a
step can touch what it speaks of (`step_unit_cases`). -/

namespace Sys2Proof.Machine

/-! ## The two buffers (rule R48) -/

theorem FrameOutcome.buf_wf {s t : State} (h : FrameOutcome s t) (hw : Memory.wf s.buf) : Memory.wf t.buf := by
  rcases h with h | h | h
  · rw [h.kept.buf]
    exact hw
  · obtain ⟨bs, -, e⟩ := h.buf
    rw [e]
    exact writeBytes_wf hw _ _
  · rw [h.buf]
    exact writeBytes_wf hw _ _

theorem memoryInv_reset : MemoryInv State.reset := by
  unfold MemoryInv
  decide

/-- Settles O52: a full frame empties FILL and writes the payload buffer alone, and a host effect keeps the invariant. -/
theorem stepKeepsMemoryInv : Obligations.StepKeepsMemoryInv := by
  intro s t hs h
  obtain ⟨hfb, hbuf, hbelow, hfill⟩ := hs
  rcases step_effects h with ⟨-, -, rfl⟩ | ⟨-, -, rfl⟩ | ⟨-, rfl⟩ | ⟨-, rfl⟩ | ⟨-, rfl⟩ | ⟨-, rfl⟩ | ⟨-, -, -, he⟩
  · rw [frameDecode_frame]
    exact ⟨hfb, (frameDecode_outcome s).1.buf_wf hbuf, hbelow, Nat.zero_le _⟩
  · exact ⟨hfb, hbuf, hbelow, Nat.zero_le _⟩
  · exact ⟨hfb, hbuf, hbelow, hfill⟩
  · exact ⟨hfb, hbuf, hbelow, hfill⟩
  · exact ⟨hfb, hbuf, hbelow, hfill⟩
  · exact memoryInv_reset
  · exact he ⟨hfb, hbuf, hbelow, hfill⟩

/-! ## The reassembly state (rule R52) -/

theorem reassemblyInv_reset : ReassemblyInv State.reset := by
  unfold ReassemblyInv
  decide

/-- The bound of a unit that is not yet ended leaves room for one more frame (rule R52). -/
theorem bufLen_add_frame_le {s : State} (h : ReassemblyInv s) (hp : s.phase = .start ∨ s.phase = .continuing) :
    s.bufLen + 184 ≤ 3117 ∧ (nextCc s ≠ 15#4 → s.bufLen + 184 ≤ unitBound .continuing (nextCc s)) := by
  obtain ⟨hb, -, -, hc, -⟩ := h
  rcases hp with hp | hp <;> rw [hp] at hb <;> simp only [unitBound] at hb ⊢
  · omega
  · have hlt := s.lastCc.isLt
    have h15 : s.lastCc.toNat ≠ 15 := fun e => hc hp (BitVec.eq_of_toNat_eq e)
    have hn : (nextCc s).toNat = s.lastCc.toNat + 1 := by
      rw [(eq_nextCc_iff _ s).1 rfl]
      omega
    omega

theorem FrameOutcome.reassemblyInv {s t : State} (h : FrameOutcome s t) (hs : ReassemblyInv s) : ReassemblyInv t := by
  obtain ⟨hbound, hbelow, hwaiting, hcontinuing, hended⟩ := hs
  rcases h with ⟨-, -, k⟩ | h | h
  · unfold ReassemblyInv
    rw [k.phase, k.lastCc, k.bufLen, k.buf]
    exact ⟨hbound, hbelow, hwaiting, hcontinuing, hended⟩
  · obtain ⟨bs, hl, hbuf⟩ := h.buf
    unfold ReassemblyInv
    rw [h.phase, hbuf]
    exact ⟨h.bufLen, writeBytes_below hbelow bs (by omega), nofun, nofun, nofun⟩
  · obtain ⟨hroom, hnext⟩ := bufLen_add_frame_le ⟨hbound, hbelow, hwaiting, hcontinuing, hended⟩ h.phase_before
    have hb := writeBytes_below (a := s.bufLen) hbelow (slice s.fb 4 188) (by rw [length_slice]; omega)
    rw [← h.lastCc] at hnext
    unfold ReassemblyInv
    rw [h.bufLen, h.buf]
    rcases h.outcome with ⟨h15, hp, -⟩ | ⟨h15, hp, -⟩ <;> rw [hp]
    · exact ⟨hroom, hb, nofun, nofun, fun _ => h15⟩
    · exact ⟨hnext h15, hb, nofun, fun _ => h15, nofun⟩

/-- No unit is longer than 3117 bytes (rule R52). -/
theorem ReassemblyInv.bufLen_le {s : State} (h : ReassemblyInv s) : s.bufLen ≤ 3117 := by
  obtain ⟨hb, -⟩ := id h
  cases hp : s.phase with
  | waiting => rw [hp] at hb; exact hb.trans (Nat.zero_le _)
  | start => have := bufLen_add_frame_le h (.inl hp); omega
  | continuing => have := bufLen_add_frame_le h (.inr hp); omega
  | ended => rw [hp] at hb; exact hb

/-- Settles O53: a Start leaves at most 173 bytes, and each append has room for its 184. -/
theorem stepKeepsReassemblyInv : Obligations.StepKeepsReassemblyInv := by
  refine ⟨fun s t hs h => ?_, fun s => ReassemblyInv.bufLen_le⟩
  rcases step_unit_cases h with ⟨-, -, ho, -, -⟩ | ⟨-, rfl⟩ | ⟨-, rfl⟩ | ⟨-, k, -⟩
  · exact ho.reassemblyInv hs
  · obtain ⟨-, hbelow, -, -, -⟩ := hs
    exact ⟨Nat.zero_le _, hbelow, fun _ => rfl, nofun, nofun⟩
  · exact reassemblyInv_reset
  · unfold ReassemblyInv at hs ⊢
    rw [k.phase, k.lastCc, k.bufLen, k.buf]
    exact hs

/-! ## The record registers (rule R108) -/

theorem recordInv_reset : RecordInv State.reset.record := by
  unfold RecordInv
  decide

theorem FrameOutcome.eventFields {s t : State} (h : FrameOutcome s t)
    (ha : t.record.attached = (t.record.event == .start)) : EventFields t.record := by
  rcases h with h | h | h
  · rcases h.event with e | e | e <;>
      exact ⟨ha, by simp [e], by simp [e], fun _ => h.lastAppend, by simp [h.lastAppend]⟩
  · exact ⟨ha, fun _ => h.lastAppend, by simp [h.event], by simp [h.event], h.lastAppend.trans (by decide)⟩
  · rcases h.outcome with ⟨-, -, e⟩ | ⟨-, -, e⟩ <;>
      exact ⟨ha, by simp [e], fun _ => h.lastAppend, by simp [e], by simp [h.lastAppend]⟩

/-- RSM_RESET clears EVENT and ATTACHED and leaves the other record registers (rule R143). -/
theorem RecordInv.clearEvent {r : Record} (h : RecordInv r) :
    RecordInv { r with event := .noEvent, attached := false } := by
  obtain ⟨hf, he⟩ := (recordInv_iff r).1 h
  exact (recordInv_iff _).2 ⟨hf.attach _ _ _, rfl, nofun, by simp, by simp, he.bound⟩

/-- Settles O54: a decoded frame writes the whole record, and RSM_RESET clears the event alone. -/
theorem stepKeepsRecordInv : Obligations.StepKeepsRecordInv := by
  intro s t hs h
  rcases step_unit_cases h with ⟨-, -, ho, hf, ha⟩ | ⟨-, rfl⟩ | ⟨-, rfl⟩ | ⟨-, -, e⟩
  · exact (recordInv_iff _).2 ⟨hf, ho.eventFields ha⟩
  · exact hs.clearEvent
  · exact recordInv_reset
  · rw [e]
    exact hs

/-! ## The unit registers (rules R53, R131) -/

theorem unitInv_reset : UnitInv State.reset := by
  unfold UnitInv AudioInv
  decide

/-- A bitrate that is NUMERIC is a table entry, at most 448 kbit/s (rules R127, R130). -/
theorem lookupBitrate_kbps_le (i : BitVec 4) (v l : BitVec 2) : (lookupBitrate i v l).kbps.toNat ≤ 448 := by
  revert i v l
  decide

/-- A sample rate that is NUMERIC is a table entry, at least 8000 Hz (rules R128, R130). -/
theorem le_lookupSrate_hz {r v : BitVec 2} (h : (lookupSrate r v).kind = .numeric) :
    8000 ≤ (lookupSrate r v).hz.toNat := by
  revert r v
  decide

/-- The frame size at such values fits its 16 bits (rule R130). -/
theorem frameSizeNat_lt {kbps hz : BitVec 16} (hk : kbps.toNat ≤ 448) (hz8000 : 8000 ≤ hz.toNat) (p : Bit) :
    frameSizeNat kbps hz p < 2 ^ 16 := by
  have hq : 144 * kbps.toNat * 1000 / hz.toNat ≤ 144 * 448 * 1000 / 8000 :=
    Nat.div_le_div (by omega) hz8000 (by decide)
  have hp := p.isLt
  unfold frameSizeNat
  omega

/-- AUD_FSIZE of two lookups: the frame size itself where both are NUMERIC, 0 otherwise (rule R129). -/
theorem frameSize_lookups (i : BitVec 4) (v l r w : BitVec 2) (p : Bit) :
    let b := lookupBitrate i v l
    let z := lookupSrate r w
    ((frameSize b z p).valid = true ↔ b.kind = .numeric ∧ z.kind = .numeric) ∧
      ((frameSize b z p).valid = true → (frameSize b z p).size.toNat = frameSizeNat b.kbps z.hz p) ∧
      ((frameSize b z p).valid = false → (frameSize b z p).size = 0#16) := by
  intro b z
  by_cases h : b.kind = .numeric ∧ z.kind = .numeric
  · have hz := le_lookupSrate_hz h.2
    have hlt := frameSizeNat_lt (lookupBitrate_kbps_le i v l) hz p
    have hne : z.hz ≠ 0#16 := fun e => absurd (e ▸ hz) (by decide)
    have e : frameSize b z p = ⟨true, BitVec.ofNat 16 (frameSizeNat b.kbps z.hz p)⟩ := by
      rw [frameSize, if_pos h, if_neg (not_or.2 ⟨hne, hlt.not_ge⟩)]
    rw [e]
    exact ⟨iff_of_true rfl h, fun _ => Nat.mod_eq_of_lt hlt, nofun⟩
  · have e : frameSize b z p = ⟨false, 0⟩ := by rw [frameSize, if_neg h]
    rw [e]
    exact ⟨iff_of_false nofun h, nofun, fun _ => rfl⟩

/-- A found header leaves its codes, their lookups and the frame size of both (rules R124 to R129). -/
theorem audFields_audioInv {a : AudHeader} (h : a.sync = audSync) (s : State) : AudioInv (audFields a s).aud := by
  have hu : AudHeader.unpack (audFields a s).aud.raw = a := AudHeader_unpack_pack a
  refine ⟨nofun, nofun, fun _ _ => ⟨fun _ => by rw [hu]; exact h, fun _ => rfl⟩, nofun,
    fun _ => ⟨(congrArg AudHeader.codes hu).symm, rfl, rfl, frameSize_lookups _ _ _ _ _ _⟩⟩

theorem audShort_audioInv (s : State) : AudioInv (audShort s).aud :=
  ⟨nofun, fun _ => ⟨rfl, rfl⟩, nofun, fun _ => ⟨rfl, rfl, rfl, rfl⟩, nofun⟩

theorem audSyncMiss_audioInv {a : AudHeader} (h : a.sync ≠ audSync) (s : State) : AudioInv (audSyncMiss a s).aud := by
  have hu : AudHeader.unpack (audSyncMiss a s).aud.raw = a := AudHeader_unpack_pack a
  exact ⟨nofun, nofun, fun _ _ => ⟨nofun, fun e => absurd (hu ▸ e) h⟩, fun _ => ⟨rfl, rfl, rfl, rfl⟩, nofun⟩

/-- The audio decode leaves registers that agree with one decode, attempted (rules R123, R124, R132). -/
theorem audioDecode_audioInv (s : State) :
    AudioInv (audioDecode s).aud ∧ (audioDecode s).aud.fields.attempted = true := by
  unfold audioDecode
  split
  · exact ⟨audShort_audioInv s, rfl⟩
  · split
    · next h => exact ⟨audFields_audioInv h s, rfl⟩
    · next h => exact ⟨audSyncMiss_audioInv h s, rfl⟩

theorem FrameOutcome.unitInv {s t : State} (h : FrameOutcome s t) (hs : UnitInv s) : UnitInv t := by
  obtain ⟨hphase, hzero, hhdl, hatt, haud⟩ := hs
  rcases h with ⟨-, -, k⟩ | h | h
  · unfold UnitInv
    rw [k.phase, k.pes, k.aud]
    exact ⟨hphase, hzero, hhdl, hatt, haud⟩
  · obtain ⟨u, hu⟩ := h.aud
    obtain ⟨hi, ha⟩ := audioDecode_audioInv u
    unfold UnitInv
    rw [h.phase, h.pes_valid, hu]
    exact ⟨⟨nofun, fun _ => rfl⟩, nofun, fun _ => h.hdl, ha, hi⟩
  · have hv : s.pes.valid = true := hphase.2 (by rcases h.phase_before with e | e <;> rw [e] <;> nofun)
    have hp : t.phase ≠ .waiting := by rcases h.outcome with ⟨-, e, -⟩ | ⟨-, e, -⟩ <;> rw [e] <;> nofun
    unfold UnitInv
    rw [h.pes, h.aud]
    exact ⟨⟨fun _ => hp, fun _ => hv⟩, hzero, hhdl, hatt, haud⟩

/-- Settles O55: a Start writes the unit registers, an append keeps them, RSM_RESET and reset clear them. -/
theorem stepKeepsUnitInv : Obligations.StepKeepsUnitInv := by
  intro s t hs h
  rcases step_unit_cases h with ⟨-, -, ho, -, -⟩ | ⟨-, rfl⟩ | ⟨-, rfl⟩ | ⟨-, k, -⟩
  · exact ho.unitInv hs
  · exact unitInv_reset
  · exact unitInv_reset
  · unfold UnitInv at hs ⊢
    rw [k.phase, k.pes, k.aud]
    exact hs

/-- Settles O51, invariant by invariant. -/
theorem resetMeetsTheInvariants : Obligations.ResetMeetsTheInvariants :=
  ⟨memoryInv_reset, reassemblyInv_reset, recordInv_reset, unitInv_reset⟩

/-! ## What writes the reassembly state, the unit registers and the record registers -/

/-- A decoded frame that is no Start keeps the payload buffer, or appends to it (rules R49, R119). -/
theorem FrameOutcome.buffer_grows {s t : State} (h : FrameOutcome s t) (hne : t.record.event ≠ .start) :
    s.bufLen ≤ t.bufLen ∧ ∀ i, i < s.bufLen → readByte t.buf i = readByte s.buf i := by
  rcases h with ⟨-, -, k⟩ | h | h
  · rw [k.bufLen, k.buf]
    exact ⟨le_rfl, fun _ _ => rfl⟩
  · exact absurd h.event hne
  · rw [h.bufLen, h.buf]
    exact ⟨Nat.le_add_right _ _, fun i hi => readByte_writeBytes_outside _ _ (.inl hi)⟩

/-- Inside a unit no frame makes a Start, whatever its PUSI (rule R119). -/
theorem FrameOutcome.keeps_unit {s t : State} (h : FrameOutcome s t) (hp : s.phase = .start ∨ s.phase = .continuing) :
    t.record.event ≠ .start ∧ t.pes = s.pes ∧ t.aud = s.aud := by
  rcases h with h | h | h
  · exact ⟨by rcases h.event with e | e | e <;> simp [e], h.kept.pes, h.kept.aud⟩
  · rcases hp with hp | hp <;> rcases h.phase_before with e | e <;> cases hp.symm.trans e
  · exact ⟨by rcases h.outcome with ⟨-, -, e⟩ | ⟨-, -, e⟩ <;> simp [e], h.pes, h.aud⟩

/-- Settles O43, by the outcome of the frame. -/
theorem bufferOnlyGrows : Obligations.BufferOnlyGrows := by
  intro s t h
  rcases step_unit_cases h with ⟨hm, hf, ho, -, -⟩ | ⟨hm, -⟩ | ⟨hm, -⟩ | ⟨hn, k, -⟩
  · exact ⟨fun _ _ hs => ho.buffer_grows fun he => hs ⟨hm, he, hf⟩, fun _ _ => ho.keeps_unit⟩
  · exact ⟨fun hr => absurd hm hr, fun hd => Command.noConfusion (hm.command_unique hd)⟩
  · exact ⟨fun _ hr => absurd hm hr, fun hd => absurd hm hd.not_hostMoves⟩
  · rw [k.bufLen, k.buf]
    exact ⟨fun _ _ _ => ⟨le_rfl, fun _ _ => rfl⟩, fun hd hf => absurd ⟨hd, hf⟩ hn⟩

/-- Settles O56: of the outcomes of a frame only a report keeps both, and every other step that moves them is named. -/
theorem phaseOnlyMovedBy : Obligations.PhaseOnlyMovedBy := by
  intro s t h hne
  rcases step_unit_cases h with ⟨hm, hf, ho, -, -⟩ | ⟨hm, -⟩ | ⟨hm, -⟩ | ⟨-, k, -⟩
  · refine .inl ⟨hm, hf, ?_⟩
    rcases ho with ⟨-, -, k⟩ | h | h
    · rw [k.phase, k.lastCc] at hne
      simp at hne
    · simp [h.event]
    · rcases h.outcome with ⟨-, -, e⟩ | ⟨-, -, e⟩ <;> simp [e]
  · exact .inr (.inl hm)
  · exact .inr (.inr hm)
  · rw [k.phase, k.lastCc] at hne
    simp at hne

/-- Settles O57: of the outcomes of a frame only a Start writes the unit registers. -/
theorem unitRegistersWrittenBy : Obligations.UnitRegistersWrittenBy := by
  intro s t h
  rcases step_unit_cases h with ⟨hm, hf, ho, -, -⟩ | ⟨hm, rfl⟩ | ⟨hm, -⟩ | ⟨-, k, e⟩
  · refine ⟨fun hne => .inl ⟨hm, hf, ?_⟩, fun _ => .inl ⟨hm, hf⟩⟩
    rcases ho with ⟨-, -, k⟩ | h | h
    · rw [k.pes, k.aud] at hne
      simp at hne
    · exact h.event
    · rw [h.pes, h.aud] at hne
      simp at hne
  · exact ⟨fun _ => .inr (.inl hm), fun _ => .inr (.inl ⟨hm, rfl⟩)⟩
  · exact ⟨fun _ => .inr (.inr hm), fun _ => .inr (.inr hm)⟩
  · rw [k.pes, k.aud, e]
    simp

end Sys2Proof.Machine
end

section
/-! PROOFS of the state's noninterference (rule R161): an operation run on two states that differ in hidden bytes only
ends in two such states. Operations that do not touch the buffers commute with replacing them; a decoded frame reads
bytes 0 to 187 of a full frame buffer and the bytes below BUF_LEN, which are equal. -/

namespace Sys2Proof.Machine

/-! ## Operations that leave the buffers alone -/

/-- The state with other buffers. -/
def withBuffers (f b : List Host.Cell) (s : State) : State := { s with fb := f, buf := b }

theorem SameVisible.eq {s t : State} (h : SameVisible s t) : t = withBuffers t.fb t.buf s := h.1

theorem SameVisible.bufLen_eq {s t : State} (h : SameVisible s t) : t.bufLen = s.bufLen := by
  rw [h.eq]
  rfl

theorem SameVisible.busy_eq {s t : State} (h : SameVisible s t) : busy t = busy s := by
  rw [h.eq]
  rfl

/-- States that uncover no byte and differ in their buffers as `s` and `t` do are related as they are. -/
theorem SameVisible.of_eq {s t s' t' : State} (h : SameVisible s t) (e' : t' = withBuffers t.fb t.buf s')
    (hfb : s'.fb = s.fb) (hbuf : s'.buf = s.buf) (hfill : s'.fill ≤ s.fill) (hlen : s'.bufLen ≤ s.bufLen) :
    SameVisible s' t' := by
  obtain ⟨-, w1, w2, w3, w4, hf, hb⟩ := h
  rw [e']
  exact ⟨rfl, hfb ▸ w1, w2, hbuf ▸ w3, w4, fun i hi => by rw [hfb]; exact hf i (by omega),
    fun i hi => by rw [hbuf]; exact hb i (by omega)⟩

/-- An operation that commutes with replacing the buffers and uncovers no byte keeps the relation. -/
theorem SameVisible.map {s t : State} (h : SameVisible s t) (f : State → State)
    (hcomm : ∀ a b, f (withBuffers a b s) = withBuffers a b (f s)) (hfb : (f s).fb = s.fb) (hbuf : (f s).buf = s.buf)
    (hfill : (f s).fill ≤ s.fill) (hlen : (f s).bufLen ≤ s.bufLen) : SameVisible (f s) (f t) :=
  h.of_eq ((congrArg f h.eq).trans (hcomm _ _)) hfb hbuf hfill hlen

theorem SameVisible.raise {s t : State} (h : SameVisible s t) (c : Cause) : SameVisible (raise c s) (raise c t) :=
  h.map _ (fun _ _ => rfl) rfl rfl le_rfl le_rfl

theorem SameVisible.raiseIf {s t : State} (h : SameVisible s t) (b : Bool) (c : Cause) :
    SameVisible (raiseIf b c s) (raiseIf b c t) := by
  cases b
  · exact h
  · exact h.raise c

theorem SameVisible.guardWrite {s t : State} (h : SameVisible s t) {f : State → State}
    (hf : SameVisible (f s) (f t)) : SameVisible (guardWrite f s) (guardWrite f t) := by
  unfold Machine.guardWrite
  rw [h.busy_eq]
  split
  · exact h.raise _
  · exact hf

theorem SameVisible.command {s t : State} (h : SameVisible s t) (op : BitVec 8) :
    SameVisible (command op s) (command op t) := by
  unfold Machine.command
  split
  · exact h.map _ (fun _ _ => rfl) rfl rfl le_rfl le_rfl
  · exact h.map badCommand (fun _ _ => rfl) rfl rfl le_rfl le_rfl

/-! ## Reads and pushes -/

theorem regWord_withBuffers (k : Nat) (a b : List Host.Cell) (s : State) :
    regWord k (withBuffers a b s) = regWord k s := by
  unfold regWord
  split <;> rfl

theorem SameVisible.payloadWord_eq {s t : State} (h : SameVisible s t) (k : Nat) : payloadWord k t = payloadWord k s := by
  obtain ⟨e, -, -, -, -, -, hb⟩ := h
  have hl : t.bufLen = s.bufLen := by rw [e]
  have hp : ∀ i, payloadByte t i = payloadByte s i := fun i => by
    unfold payloadByte
    rw [hl]
    split
    · next hi => exact (hb i hi).symm
    · rfl
  simp only [payloadWord, hp]

theorem SameVisible.respond {s t : State} (h : SameVisible s t) {v w : Word} (e : w = v) :
    SameVisible (respond v s) (respond w t) :=
  e ▸ h.map _ (fun _ _ => rfl) rfl rfl le_rfl le_rfl

theorem SameVisible.respondFree {s t : State} (h : SameVisible s t) : SameVisible (respondFree s) (respondFree t) :=
  h.map _ (fun _ _ => rfl) rfl rfl le_rfl le_rfl

/-- The byte that a push writes is visible, and the same, in both states. -/
theorem SameVisible.pushByte {s t : State} (h : SameVisible s t) (b : Byte) :
    SameVisible (pushByte b s) (pushByte b t) := by
  have hfill : t.fill = s.fill := by rw [h.eq]; rfl
  unfold Machine.pushByte
  rw [hfill]
  split
  · obtain ⟨e, w1, w2, w3, w4, hf, hb⟩ := h
    refine ⟨by rw [e], writeByte_wf w1 _ _, writeByte_wf w2 _ _, w3, w4, fun i hi => ?_, hb⟩
    dsimp only at hi ⊢
    rw [readByte_writeByte w1, readByte_writeByte w2]
    split
    · rfl
    · exact hf i (by omega)
  · exact h.raise _

theorem SameVisible.pushBytes {s t : State} (h : SameVisible s t) (bs : List Byte) :
    SameVisible (pushBytes bs s) (pushBytes bs t) := by
  induction bs generalizing s t with
  | nil => exact h
  | cons b bs ih => exact ih (h.pushByte b)

/-! ## The frame decode -/

section Frame

variable {s t : State} (h : SameVisible s t) (hfull : s.fill = 188)
include h hfull

theorem SameVisible.readByte_fb {i : Nat} (hi : i < 188) : readByte t.fb i = readByte s.fb i := by
  obtain ⟨-, -, -, -, -, hf, -⟩ := h
  exact (hf i (by omega)).symm

theorem SameVisible.header_eq : header t = header s := by
  unfold header headerWord
  rw [be_congr 4 fun x _ hx => h.readByte_fb hfull (i := x) (by omega)]

theorem SameVisible.framePes_eq : framePes t = framePes s := by
  unfold framePes
  rw [be_congr 9 fun x _ hx => h.readByte_fb hfull (i := x) (by omega)]

theorem SameVisible.slice_eq (i : Nat) : slice t.fb i 188 = slice s.fb i 188 :=
  slice_congr fun _ _ hk => h.readByte_fb hfull hk

theorem SameVisible.pcrBase_eq : pcrBase t.fb = pcrBase s.fb := by
  unfold pcrBase bits
  rw [be_congr 4 fun x _ hx => h.readByte_fb hfull (i := x) (by omega), h.readByte_fb hfull (i := 10) (by omega)]

theorem SameVisible.pcrExt_eq : pcrExt t.fb = pcrExt s.fb := by
  unfold pcrExt bits
  rw [h.readByte_fb hfull (i := 10) (by omega), h.readByte_fb hfull (i := 11) (by omega)]

theorem SameVisible.pcrDecode : SameVisible (pcrDecode s) (pcrDecode t) := by
  refine h.of_eq ?_ rfl rfl le_rfl le_rfl
  unfold Machine.pcrDecode
  rw [h.pcrBase_eq hfull, h.pcrExt_eq hfull]
  obtain ⟨f, b, rfl⟩ : ∃ f b, t = withBuffers f b s := ⟨_, _, h.eq⟩
  rfl

theorem SameVisible.afDecode : SameVisible (afDecode s) (afDecode t) := by
  unfold Machine.afDecode
  rw [h.readByte_fb hfull (i := 4) (by omega), h.readByte_fb hfull (i := 5) (by omega)]
  generalize readByte s.fb 4 = length
  generalize readByte s.fb 5 = flags
  have h' := (h.map (fun u => { u with record := { u.record with
      af := { valid := true, pcrValid := flags.getLsbD 4, length := length, flags := flags },
      afStuff := BitVec.ofInt 32 (stuffing length (flags.getLsbD 4)) } }) (fun _ _ => rfl) rfl rfl le_rfl
    le_rfl).raiseIf (decide (stuffing length (flags.getLsbD 4) < 0)) .afNegStuff
  dsimp only
  split
  · exact h'.pcrDecode (by rw [raiseIf_fill]; exact hfull)
  · exact h'.map pcrClear (fun _ _ => rfl) rfl rfl le_rfl le_rfl

theorem SameVisible.adaptation (hd : TsHeader) : SameVisible (adaptation hd s) (adaptation hd t) := by
  unfold Machine.adaptation
  split
  · exact h.afDecode hfull
  · exact h.map Machine.afAbsent (fun _ _ => rfl) rfl rfl le_rfl le_rfl

end Frame

theorem SameVisible.tsExtract {s t : State} (h : SameVisible s t) (hd : TsHeader) :
    SameVisible (tsExtract hd s) (tsExtract hd t) :=
  (h.map (fun u => { u with record := { u.record with tsHdr := hd.pack, ts := hd } }) (fun _ _ => rfl) rfl rfl le_rfl
    le_rfl).raiseIf _ _

/-- Bytes appended to both payload buffers are the same visible bytes of both. -/
theorem SameVisible.appendBytes {s t : State} (h : SameVisible s t) (bs : List Byte) :
    SameVisible (appendBytes bs s) (appendBytes bs t) := by
  obtain ⟨e, w1, w2, w3, w4, hf, hb⟩ := h
  have hl : t.bufLen = s.bufLen := by rw [e]
  refine ⟨by rw [e]; rfl, w1, w2, writeBytes_wf w3 _ _, writeBytes_wf w4 _ _, hf, fun i hi => ?_⟩
  simp only [appendBytes_bufLen, appendBytes_buf, hl] at hi ⊢
  by_cases hlt : i < s.bufLen
  · rw [readByte_writeBytes_outside _ _ (.inl hlt), readByte_writeBytes_outside _ _ (.inl hlt)]
    exact hb i hlt
  · have hin : i - s.bufLen < bs.length := by omega
    rw [show i = s.bufLen + (i - s.bufLen) by omega, readByte_writeBytes_inside w3 _ _ _ hin,
      readByte_writeBytes_inside w4 _ _ _ hin]

/-- The audio decode reads the first four bytes where they are visible, and none where they are not (rule R123). -/
theorem SameVisible.audioDecode {s t : State} (h : SameVisible s t) :
    SameVisible (audioDecode s) (audioDecode t) := by
  unfold Machine.audioDecode
  rw [h.bufLen_eq]
  split
  · exact h.map audShort (fun _ _ => rfl) rfl rfl le_rfl le_rfl
  · next h4 =>
    have hp : payloadHeader t = payloadHeader s := by
      obtain ⟨-, -, -, -, -, -, hb⟩ := h
      unfold payloadHeader
      rw [be_congr 4 fun x _ hx => (hb x (by omega)).symm]
    rw [hp]
    split
    · exact h.map (audFields _) (fun _ _ => rfl) rfl rfl le_rfl le_rfl
    · exact h.map (audSyncMiss _) (fun _ _ => rfl) rfl rfl le_rfl le_rfl

theorem SameVisible.move {s t : State} (h : SameVisible s t) (cc : BitVec 4) (p : Phase) :
    SameVisible { s with lastCc := cc, phase := p } { t with lastCc := cc, phase := p } :=
  h.map (fun u => { u with lastCc := cc, phase := p }) (fun _ _ => rfl) rfl rfl le_rfl le_rfl

theorem SameVisible.attach {s t : State} (h : SameVisible s t) (e : Event) {m n : Nat} (hn : n = m) :
    SameVisible (attach e m s) (attach e n t) :=
  hn ▸ h.map _ (fun _ _ => rfl) rfl rfl le_rfl le_rfl

section Reassembly

variable {s t : State} (h : SameVisible s t) (hfull : s.fill = 188)
include h hfull

theorem SameVisible.appendFrame : SameVisible (appendFrame s) (appendFrame t) := by
  unfold Machine.appendFrame
  rw [show slice t.fb 4 Config.frameBytes = slice s.fb 4 Config.frameBytes from h.slice_eq hfull 4]
  exact h.appendBytes _

theorem SameVisible.startAppend : SameVisible (startAppend s) (startAppend t) := by
  have hp : t.pes = s.pes := by rw [h.eq]; rfl
  unfold Machine.startAppend
  rw [hp, show slice t.fb _ Config.frameBytes = slice s.fb _ Config.frameBytes from h.slice_eq hfull _]
  split
  · exact h.appendBytes _
  · exact h.raise _

theorem SameVisible.rsmStart (hd : TsHeader) : SameVisible (rsmStart hd s) (rsmStart hd t) := by
  have h1 : SameVisible { pesDecode (framePes s) s with lastCc := hd.cc, bufLen := 0 }
      { pesDecode (framePes t) t with lastCc := hd.cc, bufLen := 0 } := by
    rw [h.framePes_eq hfull]
    exact h.map (fun u => { pesDecode (framePes s) u with lastCc := hd.cc, bufLen := 0 }) (fun _ _ => rfl) rfl rfl
      le_rfl (Nat.zero_le _)
  have h2 := ((h1.startAppend hfull).map (fun u => { u with phase := .start }) (fun _ _ => rfl) rfl rfl le_rfl
    le_rfl).audioDecode
  unfold Machine.rsmStart
  exact h2.attach .start h2.bufLen_eq

theorem SameVisible.rsmContinue (hd : TsHeader) : SameVisible (rsmContinue hd s) (rsmContinue hd t) := by
  unfold Machine.rsmContinue
  exact ((h.appendFrame hfull).move _ _).attach _ rfl

theorem SameVisible.rsmEnd (hd : TsHeader) : SameVisible (rsmEnd hd s) (rsmEnd hd t) := by
  unfold Machine.rsmEnd
  exact (((h.appendFrame hfull).move _ _).raise _).attach _ rfl

theorem SameVisible.reassemble (hd : TsHeader) : SameVisible (reassemble hd s) (reassemble hd t) := by
  have hpid : t.targetPid = s.targetPid := by rw [h.eq]; rfl
  have hphase : t.phase = s.phase := by rw [h.eq]; rfl
  have hcc : nextCc t = nextCc s := by rw [h.eq]; rfl
  unfold Machine.reassemble
  rw [hpid, hphase, hcc]
  have hstart : SameVisible (if hd.pusi = 1#1 then Machine.rsmStart hd s else rsmIdle s)
      (if hd.pusi = 1#1 then Machine.rsmStart hd t else rsmIdle t) := by
    split
    · exact h.rsmStart hfull hd
    · exact h.attach _ rfl
  have hnext : SameVisible
      (if hd.cc = nextCc s then (if hd.cc = 15#4 then Machine.rsmEnd hd s else Machine.rsmContinue hd s) else rsmDisc s)
      (if hd.cc = nextCc s then (if hd.cc = 15#4 then Machine.rsmEnd hd t else Machine.rsmContinue hd t)
        else rsmDisc t) := by
    split
    · split
      · exact h.rsmEnd hfull hd
      · exact h.rsmContinue hfull hd
    · exact (h.raise _).attach _ rfl
  split
  · exact h.attach _ rfl
  · cases s.phase with
    | waiting => exact hstart
    | start => exact hnext
    | continuing => exact hnext
    | ended => exact hstart

theorem SameVisible.frameDecode : SameVisible (frameDecode s) (frameDecode t) := by
  rw [frameDecode_eq, frameDecode_eq, h.header_eq hfull]
  have h1 := h.tsExtract (header s)
  have hf1 : (Machine.tsExtract (header s) s).fill = 188 := by rw [tsExtract_frame]; exact hfull
  have hf2 : (Machine.adaptation (header s) (Machine.tsExtract (header s) s)).fill = 188 := by
    rw [adaptation_frame]; exact hf1
  exact (h1.adaptation hf1 _).reassemble hf2 _

end Reassembly

/-! ## Steps -/

theorem SameVisible.decodeFrame {s t : State} (h : SameVisible s t) : SameVisible (decodeFrame s) (decodeFrame t) := by
  have hfill : t.fill = s.fill := by rw [h.eq]; rfl
  by_cases hf : s.fill = 188
  · rw [decodeFrame_full hf, decodeFrame_full (hfill.trans hf)]
    exact (h.frameDecode hf).map (fun u => retire .ok { u with fill := 0 }) (fun _ _ => rfl) rfl rfl (Nat.zero_le _)
      le_rfl
  · rw [decodeFrame_short hf, decodeFrame_short (hfill ▸ hf)]
    exact (h.raise _).map (fun u => retire .shortRead { u with fill := 0 }) (fun _ _ => rfl) rfl rfl (Nat.zero_le _)
      le_rfl

/-- The engine step of each command keeps the relation. -/
theorem SameVisible.exec_command {s t s' t' : State} {c : Command} (h : SameVisible s t)
    (hs : exec c.instr s = .next s') (ht : exec c.instr t = .next t') : SameVisible s' t' := by
  cases c <;> injection hs with hs <;> injection ht with ht <;> subst hs ht
  · exact h.map (retire .ok) (fun _ _ => rfl) rfl rfl le_rfl le_rfl
  · exact h.decodeFrame
  · exact h.map rsmReset (fun _ _ => rfl) rfl rfl le_rfl (Nat.zero_le _)
  · exact h.map clearSticky (fun _ _ => rfl) rfl rfl le_rfl le_rfl

/-- A host transaction keeps the relation. -/
theorem SameVisible.exec_access {s t s' t' : State} {a : Access} (h : SameVisible s t)
    (hs : exec (accessInstr a) s = .next s') (ht : exec (accessInstr a) t = .next t') : SameVisible s' t' := by
  rcases accessInstr_cases a with ⟨off, e⟩ | ⟨off, e⟩ | e | e | e | e | ⟨off, e⟩ <;> rw [e] at hs ht <;>
    injection hs with hs <;> injection ht with ht <;> subst hs ht
  · rw [h.busy_eq]
    split
    · exact h.respondFree
    · exact h.respond (by rw [h.eq, regWord_withBuffers])
  · rw [h.busy_eq]
    split
    · exact h.respondFree
    · exact h.respond (h.payloadWord_eq _)
  · exact h.guardWrite (h.command _)
  · exact h.guardWrite (h.map (fun u => { u with targetPid := a.data.extractLsb' 0 13 }) (fun _ _ => rfl) rfl rfl
      le_rfl le_rfl)
  · exact h.guardWrite (h.pushByte _)
  · exact h.guardWrite (h.pushBytes _)
  · exact h

theorem SameVisible.advance {s t : State} (h : SameVisible s t) : SameVisible (advance s) (advance t) :=
  h.map _ (fun _ _ => rfl) rfl rfl le_rfl le_rfl

/-- The reset input hides every byte of both buffers (rules R160, R161). -/
theorem SameVisible.resetBlock {s t : State} (h : SameVisible s t) : SameVisible (resetBlock s) (resetBlock t) := by
  have e : Machine.resetBlock t = Machine.resetBlock s := by rw [h.eq]; rfl
  obtain ⟨hfb, hbuf, -, -⟩ := memoryInv_reset
  rw [e]
  exact ⟨rfl, hfb, hfb, hbuf, hbuf, nofun, nofun⟩

/-- Settles O59: both states make the same move. -/
theorem hiddenBytesInvisible : Obligations.HiddenBytesInvisible := by
  intro s t s' t' h hs ht
  have hm : nextMove t = nextMove s := by rw [h.eq]; rfl
  unfold step at hs ht
  rw [hm] at ht
  cases hn : nextMove s with
  | engine c =>
    simp only [hn, commandInstr_eq] at hs ht
    exact h.exec_command hs ht
  | host m =>
    cases m with
    | access a =>
      simp only [hn] at hs ht
      exact h.advance.exec_access hs ht
    | reset =>
      simp only [hn, Host.Outcome.next.injEq] at hs ht
      subst hs ht
      exact h.advance.resetBlock
  | idle =>
    simp only [hn, Host.Outcome.next.injEq] at hs ht
    subst hs ht
    exact h.advance

end Sys2Proof.Machine
end

section
/-! PROOFS of the state's statements about the decoder, the pending command and the reset values. -/

namespace Sys2Proof.Machine

/-! ## What the decoder accepts -/

/-- The row check accepts well-formed operations only. -/
theorem wf_of_checkRow_eq_ok {m : String} {i j : Instr} (h : checkRow m i = .ok j) : j.wf = true := by
  unfold checkRow at h
  split at h
  · next hw => cases h; exact hw
  · cases h

/-- A command word selects a defined command or the row whose fixed bits its opcode has (rule R73). -/
theorem reservedInstr_wf : ∀ op : BitVec 8, commandOf op = none → (reservedInstr op).wf = true := by decide

theorem decodeCmd_wf (w : Word) : (decodeCmd w).wf = true := by
  unfold decodeCmd
  split
  · next c _ => cases c <;> rfl
  · next h => exact reservedInstr_wf _ h

/-- A key is the direction and the offset it is made of (rule R86). -/
theorem busKey_getLsbD_extractLsb' (key : BitVec 14) : busKey (key.getLsbD 13) (key.extractLsb' 0 13) = key := by
  unfold busKey
  apply BitVec.eq_of_getLsbD_eq
  intro i hi
  rw [BitVec.getLsbD_append]
  split
  · next h => simp [h]
  · next h =>
    obtain rfl : i = 13 := by omega
    simp

theorem accessInstr_wf (a : Access) : (accessInstr a).wf = true := by
  obtain ⟨write, off, v⟩ := a
  cases write
  · rw [accessInstr_read]
    split <;> rfl
  · rw [accessInstr_write]
    repeat' split
    · rfl
    · rfl
    · rfl
    · rfl
    · next h1 h2 h3 h4 => simp [Instr.wf, writable, h1, h2, h3, h4]

/-- Settles O2, by the packet's format. -/
theorem decodedOperationsAreWellFormed : Obligations.DecodedOperationsAreWellFormed := by
  intro p i h
  cases p with
  | bus key data =>
    obtain rfl : decodeBus key data = i := Except.ok.inj h
    rw [← busKey_getLsbD_extractLsb' key]
    exact accessInstr_wf ⟨_, _, data⟩
  | cmd w =>
    obtain rfl : decodeCmd w = i := Except.ok.inj h
    exact decodeCmd_wf w
  | ts op w => exact wf_of_checkRow_eq_ok h
  | pes w =>
    obtain rfl : Instr.pesDecode (PesHeader.unpack w) = i := Except.ok.inj h
    rfl
  | aud op w => exact wf_of_checkRow_eq_ok h

/-! ## A pending command -/

/-- A transaction while a command is pending leaves the command, its count and the host's later moves alone
(rules R68, R139). -/
theorem access_keeps_pending {a : Access} {s : State} (hp : s.pending ≠ none) :
    ∃ t, exec (accessInstr a) s = .next t ∧ t.pending = s.pending ∧ t.latency = s.latency ∧ t.host = s.host := by
  obtain ⟨t, ht⟩ := exec_continues (accessInstr a) s
  refine ⟨t, ht, ?_⟩
  rcases accessInstr_cases a with ⟨off, e⟩ | ⟨off, e⟩ | e | e | e | e | ⟨off, e⟩ <;> rw [e] at ht <;>
    injection ht with ht <;> subst ht
  · split <;> exact ⟨rfl, rfl, rfl⟩
  · split <;> exact ⟨rfl, rfl, rfl⟩
  · rw [guardWrite_busy _ hp]; exact ⟨rfl, rfl, rfl⟩
  · rw [guardWrite_busy _ hp]; exact ⟨rfl, rfl, rfl⟩
  · rw [guardWrite_busy _ hp]; exact ⟨rfl, rfl, rfl⟩
  · rw [guardWrite_busy _ hp]; exact ⟨rfl, rfl, rfl⟩
  · exact ⟨rfl, rfl, rfl⟩

/-- A move before the command's time, other than a reset, leaves it pending and lowers its count (rule R169;
log entry 1). -/
theorem step_of_waiting {s : State} {c : Command} {n : Nat} (hp : s.pending = some c) (hl : s.latency = n + 1)
    (hr : s.host.head? ≠ some .reset) :
    ∃ t, step s = .next t ∧ t.pending = some c ∧ t.latency = n ∧ t.host = s.host.tail := by
  have hne : s.pending ≠ none := by rw [hp]; nofun
  have ha : (advance s).latency = n := by rw [advance_eq, if_neg hne, hl]; rfl
  unfold step
  cases hm : nextMove s with
  | engine d => exact absurd (nextMove_engine hm).2 (by omega)
  | host m =>
    cases m with
    | access a =>
      obtain ⟨t, ht, h1, h2, h3⟩ := access_keeps_pending (a := a) (s := advance s) hne
      exact ⟨t, ht, h1.trans hp, h2.trans ha, h3⟩
    | reset => exact absurd (hostMoves_of_nextMove hm).2 hr
  | idle => exact ⟨advance s, rfl, hp, ha, rfl⟩

theorem not_mem_take_succ {m : HostMove} {ms : List HostMove} {n : Nat} (h : m ∉ ms.take (n + 1)) :
    ms.head? ≠ some m ∧ m ∉ ms.tail.take n := by
  cases ms with
  | nil => simp
  | cons a ms =>
    rw [List.take_succ_cons, List.mem_cons, not_or] at h
    obtain ⟨hne, hmem⟩ := h
    exact ⟨fun e => hne (Option.some.inj e).symm, hmem⟩

/-- As many moves as the count says, none of them a reset, lead to the command's engine step (rules R137, R169). -/
theorem runMoves_latency (n : Nat) {s : State} {c : Command} (hp : s.pending = some c) (hl : s.latency = n)
    (hr : HostMove.reset ∉ s.host.take n) : Yields (runMoves n s) fun u => EngineMoves u c := by
  induction n generalizing s with
  | zero => exact ⟨s, rfl, hp, hl⟩
  | succ n ih =>
    obtain ⟨hhead, htail⟩ := not_mem_take_succ hr
    obtain ⟨t, ht, h1, h2, h3⟩ := step_of_waiting hp hl hhead
    obtain ⟨u, hu, hm⟩ := ih h1 h2 (h3 ▸ htail)
    exact ⟨u, by simp only [runMoves, ht, hu], hm⟩

/-- The engine step of a command leaves none pending (rule R137). -/
theorem exec_command_retires (c : Command) (s : State) : Yields (exec c.instr s) fun t => t.pending = none := by
  cases c with
  | nop => exact ⟨_, rfl, rfl⟩
  | decodeFrame =>
    refine ⟨decodeFrame s, rfl, ?_⟩
    unfold decodeFrame
    split <;> rfl
  | rsmReset => exact ⟨_, rfl, rfl⟩
  | clearSticky => exact ⟨_, rfl, rfl⟩

/-- Settles O9: the moves before the command's time leave it pending, then it is the engine's move. -/
theorem pendingCommandCompletes : Obligations.PendingCommandCompletes := by
  intro s c hp hr
  obtain ⟨u, hu, hm⟩ := runMoves_latency s.latency hp rfl hr
  have hs : step u = exec c.instr u := by rw [step_of_engineMoves hm, commandInstr_eq]
  exact ⟨u, hu, hm, hs, hs ▸ exec_command_retires c u⟩

/-! ## Reset -/

/-- Every word from 29 on, from offset 0x074, is reserved and reads 0 (rules R19, R55). -/
theorem regWord_of_ge {k : Nat} (h : 29 ≤ k) (s : State) : regWord k s = 0#32 := by
  unfold regWord
  split
  case h_30 => rfl
  all_goals omega

/-- The registers of a block right after reset do not depend on what the host and the read bus hold. -/
theorem regWord_resetBlock (k : Nat) (s : State) : regWord k (resetBlock s) = regWord k State.reset := by
  unfold regWord
  split <;> rfl

/-- The registers right after reset (rule R56). -/
theorem regWord_reset (k : Nat) :
    regWord k State.reset = if k = 0 then 0x54535031#32 else if k = 3 then 0x00001FFF#32 else 0#32 := by
  have hmapped : ∀ k < 29, regWord k State.reset =
      if k = 0 then 0x54535031#32 else if k = 3 then 0x00001FFF#32 else 0#32 := by decide
  by_cases hk : k < 29
  · exact hmapped k hk
  · rw [regWord_of_ge (by omega), if_neg (by omega), if_neg (by omega)]

/-- With BUF_LEN 0 the PAYLOAD window reads 0 (rules R47, R56). -/
theorem payloadWord_reset (k : Nat) : payloadWord k State.reset = 0#32 := by
  have h : ∀ i, payloadByte State.reset i = 0#8 := fun i => if_neg (Nat.not_lt_zero i)
  simp only [payloadWord, h]
  rfl

/-- Settles O12, register by register. -/
theorem resetValues : Obligations.ResetValues :=
  ⟨rfl, regWord_reset, payloadWord_reset⟩

/-- Settles O11: only the host's later moves, the draw counter and the read bus survive a reset. -/
theorem resetEvent : Obligations.ResetEvent := by
  intro s h
  refine ⟨resetBlock (advance s), by rw [step, nextMove_of_hostMoves h], rfl, rfl, ?_, rfl, rfl, rfl, rfl, rfl,
    fun k => (regWord_resetBlock k _).trans (regWord_reset k)⟩
  exact fun c => BitVec.getLsbD_zero

end Sys2Proof.Machine
end

section
/-! PROOFS of the state's statements about the register map: where each field of a register stands in the word that a
read returns, the bits and words that are reserved, and the PAYLOAD window. -/

namespace Sys2Proof.Machine

/-! ## What a read returns -/

/-- A register that is not volatile, or one read while nothing is pending, returns its word (rules R138, R146). -/
theorem exec_rd {off : BitVec 12} {s : State} (h : (busy s && volatileReg (off.toNat / 4)) = false) :
    exec (.rd off) s = .next (respond (regWord (off.toNat / 4) s) s) := by
  rw [← wordIndex_eq] at h ⊢
  exact congrArg Host.Outcome.next (if_neg (Bool.eq_false_iff.1 h))

theorem exec_rd_idle (off : BitVec 12) {s : State} (h : s.pending = none) :
    exec (.rd off) s = .next (respond (regWord (off.toNat / 4) s) s) :=
  exec_rd (by rw [busy_of_none h, Bool.false_and])

/-- With nothing pending a read of the window returns its word, while busy it returns a free value (rules R47, R138). -/
theorem exec_rdPayload_idle (off : BitVec 12) {s : State} (h : s.pending = none) :
    exec (.rdPayload off) s = .next (respond (payloadWord (off.toNat / 4) s) s) := by
  rw [← wordIndex_eq]
  exact congrArg Host.Outcome.next (if_neg (Bool.eq_false_iff.1 (busy_of_none h)))

theorem exec_rdPayload_busy (off : BitVec 12) {s : State} (h : s.pending ≠ none) :
    exec (.rdPayload off) s = .next (respondFree s) :=
  congrArg Host.Outcome.next (if_pos (busy_of_ne_none h))

/-- A write to an offset that is not writable is ignored (rules R55, R61). -/
theorem accessInstr_write_ignored {off : BitVec 13} (h : writable off = false) (v : Word) :
    accessInstr ⟨true, off, v⟩ = .wrIgnored off v := by
  obtain ⟨⟨⟨h1, h2⟩, h3⟩, h4⟩ : ((off &&& 0x1FFC#13 ≠ 0x0004#13 ∧ off &&& 0x1FFC#13 ≠ 0x000C#13) ∧
      off &&& 0x1FFC#13 ≠ 0x0014#13) ∧ off &&& 0x1FFC#13 ≠ 0x0018#13 := by simpa [writable] using h
  rw [accessInstr_write, if_neg h1, if_neg h2, if_neg h3, if_neg h4]

/-- No offset of the PAYLOAD window is writable. -/
theorem writable_payload (off : BitVec 12) : writable (1#1 ++ off) = false := by
  have h : ∀ c : BitVec 13, c.getLsbD 12 = false → (1#1 ++ off) &&& 0x1FFC#13 ≠ c := fun c hc e => by
    rw [← e, BitVec.getLsbD_and, BitVec.getLsbD_append] at hc
    exact absurd hc (by simp)
  simp [writable, h]

/-! ## Fields of a word -/

/-- The field of `width` bits from bit `lo` on, as a number. -/
def field {n : Nat} (w : BitVec n) (lo width : Nat) : Nat := (w.extractLsb' lo width).toNat

theorem field_eq {n : Nat} (w : BitVec n) (lo width : Nat) : field w lo width = w.toNat / 2 ^ lo % 2 ^ width :=
  toNat_extract w lo width

theorem field_full {n : Nat} (w : BitVec n) : field w 0 n = w.toNat := by
  rw [field, BitVec.extractLsb'_eq_self]

theorem field_append_low {n m lo width : Nat} (x : BitVec n) (y : BitVec m) (h : lo + width ≤ m) :
    field (x ++ y) lo width = field y lo width := by
  rw [field, field, BitVec.extractLsb'_append_eq_of_add_le h]

theorem field_append_high {n m lo width : Nat} (x : BitVec n) (y : BitVec m) (h : m ≤ lo) :
    field (x ++ y) lo width = field x (lo - m) width := by
  rw [field, field, BitVec.extractLsb'_append_eq_of_le h]

theorem field_setWidth {n v lo width : Nat} (x : BitVec n) (h : lo + width ≤ v) :
    field (x.setWidth v) lo width = field x lo width := by
  rw [field, field, BitVec.extractLsb'_setWidth_of_le h]

/-- A sticky bit is the one-bit field at its index (rule R149). -/
theorem raised_toNat (c : Cause) (s : State) : (raised c s).toNat = field s.sticky c.index 1 := by
  rw [field_eq, raised, BitVec.getLsbD, Nat.toNat_testBit, pow_one]

/-! ## Every field at its bits (rules R19 to R46) -/

/-- The row's value stands at the row's bits of its register's word. -/
def FieldRow.ReadIn (r : FieldRow) (s : State) : Prop := field (regWord (r.off.toNat / 4) s) r.lo r.width = r.value

theorem controlFields_readIn {s : State} (hfill : s.fill ≤ 188) : ∀ r ∈ controlFields s, r.ReadIn s := by
  have hbusy : (busy s).toNat = if s.pending = none then 0 else 1 := by
    unfold busy
    cases s.pending <;> rfl
  have hfill8 : s.fill % 256 = s.fill := Nat.mod_eq_of_lt (by omega)
  simp (disch := decide) only [controlFields, List.forall_mem_cons, List.not_mem_nil, false_implies,
    implies_true, FieldRow.ReadIn, regWord,
    statusWord, Config.idValue, BitVec.toNat_ofNat, BitVec.toNat_ofBool, field_append_low, field_append_high,
    field_setWidth, field_full, raised_toNat, Cause.index, hbusy, hfill8, Nat.reducePow, Nat.reduceMod, Nat.reduceDiv,
    Nat.reduceSub, and_true, true_and]
  cases s.lastResult <;> rfl

theorem recordFields_readIn (s : State) : ∀ r ∈ recordFields s, r.ReadIn s := by
  simp (disch := decide) only [recordFields, List.forall_mem_cons, List.not_mem_nil, false_implies,
    implies_true, FieldRow.ReadIn, regWord,
    tsFieldsWord, afInfoWord, pesInfoWord, rsmWord, BitVec.toNat_ofNat, BitVec.toNat_ofBool, field_append_low,
    field_append_high, field_setWidth, field_full, Nat.reducePow, Nat.reduceMod, Nat.reduceDiv, Nat.reduceSub, and_true,
    true_and]
  cases s.record.event <;> rfl

theorem unitFields_readIn {s : State} (hlen : s.bufLen ≤ 3117) : ∀ r ∈ unitFields s, r.ReadIn s := by
  have hlen13 : s.bufLen % 8192 = s.bufLen := Nat.mod_eq_of_lt (by omega)
  simp (disch := decide) only [unitFields, List.forall_mem_cons, List.not_mem_nil, false_implies,
    implies_true, FieldRow.ReadIn, regWord,
    pesInfoWord, rsmWord, audFieldsWord, bitrateWord, srateWord, fsizeWord, BitVec.toNat_ofNat, BitVec.toNat_ofBool,
    field_append_low, field_append_high, field_setWidth, field_full, hlen13, Nat.reducePow, Nat.reduceMod,
    Nat.reduceDiv, Nat.reduceSub, and_true, true_and]
  refine ⟨?_, ?_, ?_⟩
  · cases s.phase <;> rfl
  · cases s.aud.bitrate.kind <;> rfl
  · cases s.aud.srate.kind <;> rfl

/-- Settles O23, by the list that the field's row stands in. -/
theorem registerFieldsRead : Obligations.RegisterFieldsRead := by
  intro s r hidle hfill hlen hr
  refine ⟨_, exec_rd_idle r.off hidle, ?_⟩
  change (regWord (r.off.toNat / 4) s).toNat / 2 ^ r.lo % 2 ^ r.width = r.value
  rw [← field_eq]
  rcases List.mem_append.1 hr with hr | hr
  · rcases List.mem_append.1 hr with hr | hr
    · exact controlFields_readIn hfill r hr
    · exact recordFields_readIn s r hr
  · exact unitFields_readIn hlen r hr

/-! ## Reserved bits and words (rule R55) -/

/-- The word is 0 at the bits of the mask. -/
def ClearAt {n : Nat} (w mask : BitVec n) : Prop := w &&& mask = 0#n

theorem clearAt_zero {n : Nat} (w : BitVec n) : ClearAt w 0#n := BitVec.and_zero

theorem zero_clearAt {n : Nat} (mask : BitVec n) : ClearAt 0#n mask := BitVec.zero_and

theorem clearAt_append {n m : Nat} {x a : BitVec n} {y b : BitVec m} :
    ClearAt (x ++ y) (a ++ b) ↔ ClearAt x a ∧ ClearAt y b := by
  unfold ClearAt
  rw [BitVec.and_append, ← BitVec.zero_append_zero]
  refine ⟨fun h => ⟨?_, ?_⟩, fun ⟨hx, hy⟩ => by rw [hx, hy]⟩
  · have := congrArg (BitVec.extractLsb' m n) h
    rwa [BitVec.extractLsb'_append_eq_left, BitVec.extractLsb'_append_eq_left] at this
  · have := congrArg (BitVec.extractLsb' 0 m) h
    rwa [BitVec.extractLsb'_append_eq_right, BitVec.extractLsb'_append_eq_right] at this

/-- A narrow register is 0 above its width. -/
theorem setWidth_clearAt {n v : Nat} (x : BitVec n) {mask : BitVec v} (h : mask.setWidth n = 0#n) :
    ClearAt (x.setWidth v) mask := by
  apply BitVec.eq_of_getLsbD_eq
  intro i _
  have hi : i < n → mask.getLsbD i = false := fun hn => by
    have := congrArg (fun w : BitVec n => w.getLsbD i) h
    simpa [hn] using this
  rw [BitVec.getLsbD_and, BitVec.getLsbD_setWidth, BitVec.getLsbD_zero]
  by_cases hn : i < n
  · rw [hi hn, Bool.and_false]
  · rw [BitVec.getLsbD_of_ge x i (by omega), Bool.and_false, Bool.false_and]

theorem statusWord_clearAt (s : State) : ClearAt (statusWord s) 0xFFFE00F8#32 := by
  rw [show 0xFFFE00F8#32 = 0x7FFF#15 ++ 0#9 ++ 0x1F#5 ++ 0#2 ++ 0#1 from rfl]
  simp only [statusWord, clearAt_append, zero_clearAt, clearAt_zero, and_self]

theorem afInfoWord_clearAt (a : AfInfo) : ClearAt (afInfoWord a) 0xFF0000FC#32 := by
  rw [show 0xFF0000FC#32 = 0xFF#8 ++ 0#8 ++ 0#8 ++ 0x3F#6 ++ 0#1 ++ 0#1 from rfl]
  simp only [afInfoWord, clearAt_append, zero_clearAt, clearAt_zero, and_self]

theorem pesInfoWord_clearAt (p : PesRegs) (attached : Bool) : ClearAt (pesInfoWord p attached) 0xFFFF00FC#32 := by
  rw [show 0xFFFF00FC#32 = 0xFFFF#16 ++ 0#8 ++ 0x3F#6 ++ 0#1 ++ 0#1 from rfl]
  simp only [pesInfoWord, clearAt_append, zero_clearAt, clearAt_zero, and_self]

theorem rsmWord_clearAt (s : State) : ClearAt (rsmWord s) 0xFFFFF80C#32 := by
  rw [show 0xFFFFF80C#32 = 0x1FFFFF#21 ++ 0#3 ++ 0#4 ++ 0x3#2 ++ 0#2 from rfl]
  simp only [rsmWord, clearAt_append, zero_clearAt, clearAt_zero, and_self]

theorem audFieldsWord_clearAt (f : AudFields) : ClearAt (audFieldsWord f) 0xF0000E08#32 := by
  rw [show 0xF0000E08#32 = 0xF#4 ++ 0#2 ++ 0#1 ++ 0#1 ++ 0#2 ++ 0#2 ++ 0#1 ++ 0#1 ++ 0#2 ++ 0#4 ++ 0x7#3 ++ 0#1 ++ 0#2 ++
    0#2 ++ 1#1 ++ 0#1 ++ 0#1 ++ 0#1 from rfl]
  simp only [audFieldsWord, clearAt_append, zero_clearAt, clearAt_zero, and_self]

theorem bitrateWord_clearAt (b : Bitrate) : ClearAt (bitrateWord b) 0xFFF80000#32 := by
  rw [show 0xFFF80000#32 = 0x1FFF#13 ++ 0#3 ++ 0#16 from rfl]
  simp only [bitrateWord, clearAt_append, zero_clearAt, clearAt_zero, and_self]

theorem srateWord_clearAt (r : Srate) : ClearAt (srateWord r) 0xFFFC0000#32 := by
  rw [show 0xFFFC0000#32 = 0x3FFF#14 ++ 0#2 ++ 0#16 from rfl]
  simp only [srateWord, clearAt_append, zero_clearAt, clearAt_zero, and_self]

theorem fsizeWord_clearAt (z : FrameSize) : ClearAt (fsizeWord z) 0xFFFE0000#32 := by
  rw [show 0xFFFE0000#32 = 0x7FFF#15 ++ 0#1 ++ 0#16 from rfl]
  simp only [fsizeWord, clearAt_append, zero_clearAt, clearAt_zero, and_self]

/-- The reserved bits of every register read 0, register by register. -/
theorem regWord_clearAt (s : State) : ∀ k, ClearAt (regWord k s) (reservedBits k)
  | 0 | 8 | 9 | 11 | 13 | 16 | 24 => clearAt_zero _
  | 1 | 5 | 6 | 7 => zero_clearAt _
  | 2 => statusWord_clearAt s
  | 3 | 4 | 12 | 14 | 15 | 18 | 19 | 20 | 22 | 23 => setWidth_clearAt _ rfl
  | 10 => afInfoWord_clearAt _
  | 17 => pesInfoWord_clearAt _ _
  | 21 => rsmWord_clearAt s
  | 25 => audFieldsWord_clearAt _
  | 26 => bitrateWord_clearAt _
  | 27 => srateWord_clearAt _
  | 28 => fsizeWord_clearAt _
  | k + 29 => by rw [regWord_of_ge (by omega)]; exact zero_clearAt _

/-- Write-only registers and reserved words are not volatile and read 0. -/
theorem exec_rd_reserved {off : BitVec 12} (h : off.toNat / 4 ∈ [1, 5, 6, 7] ∨ 0x074 ≤ off.toNat) (s : State) :
    exec (.rd off) s = .next { s with rdata := 0#32 } := by
  have hv : volatileReg (off.toNat / 4) = false := by
    simp only [List.mem_cons, List.not_mem_nil, or_false] at h
    exact decide_eq_false (by omega)
  have hw : regWord (off.toNat / 4) s = 0#32 := by
    rcases h with h | h
    · simp only [List.mem_cons, List.not_mem_nil, or_false] at h
      rcases h with h | h | h | h <;> rw [h] <;> rfl
    · exact regWord_of_ge (by omega) s
  rw [exec_rd (by rw [hv, Bool.and_false]), hw]
  rfl

/-- TARGET_PID takes bits 12 to 0 of the word written. -/
theorem extract_pid_congr {v w : Word} (h : v &&& 0x1FFF#32 = w &&& 0x1FFF#32) :
    v.extractLsb' 0 13 = w.extractLsb' 0 13 := by
  have key : ∀ u : Word, (u &&& 0x1FFF#32).extractLsb' 0 13 = u.extractLsb' 0 13 := fun u => by
    rw [BitVec.extractLsb'_and]
    exact BitVec.and_allOnes
  rw [← key v, h, key w]

/-- Settles O21, clause by clause. -/
theorem reservedSpaceReadsZero : Obligations.ReservedSpaceReadsZero := by
  refine ⟨fun off v s h => ⟨accessInstr_write_ignored h v, rfl⟩, fun off s h => exec_rd_reserved h s,
    fun off s h => ⟨_, exec_rd_idle off h, rfl, regWord_clearAt s _⟩, fun v w s h => ?_⟩
  simp only [exec, execWrTargetPid, extract_pid_congr h]

/-! ## The PAYLOAD window (rule R47) -/

/-- Byte j of a window word, the first most significant (rule R60). -/
theorem payloadWord_byte (k : Nat) (s : State) {j : Nat} (hj : j < 4) :
    (payloadWord k s).extractLsb' (8 * (3 - j)) 8 = payloadByte s (4 * k + j) := by
  unfold payloadWord
  interval_cases j <;>
    simp (disch := decide) only [BitVec.extractLsb'_append_eq_of_add_le, BitVec.extractLsb'_append_eq_of_le,
      BitVec.extractLsb'_eq_self, Nat.reduceSub, Nat.reduceMul, Nat.add_zero]

/-- Settles O25, clause by clause. -/
theorem payloadWindowRead : Obligations.PayloadWindowRead := by
  intro off s
  refine ⟨fun h => ⟨_, exec_rdPayload_idle off h, rfl, fun j hj => payloadWord_byte _ s hj⟩, fun v => ?_,
    fun h => ⟨_, exec_rdPayload_busy off h, rfl⟩⟩
  rw [accessInstr_write_ignored (writable_payload off)]
  rfl

end Sys2Proof.Machine
end

section
/-! PROOFS of the memory's statements: the word that an offset names, what a transaction can do while a command waits,
the PUSH32 lines of a frame, and reads that repeat. -/

namespace Sys2Proof.Machine

/-! ## The word that an offset names (rule R58) -/

/-- Offsets that agree under the mask 0x1FFC name the same word, bits 12 to 2. -/
theorem offset_word_congr {off off' : BitVec 13} (h : off &&& 0x1FFC#13 = off' &&& 0x1FFC#13) :
    off.extractLsb' 2 11 = off'.extractLsb' 2 11 := by
  have key : ∀ o : BitVec 13, (o &&& 0x1FFC#13).extractLsb' 2 11 = o.extractLsb' 2 11 := fun o => by
    rw [BitVec.extractLsb'_and]
    exact BitVec.and_allOnes
  rw [← key off, h, key off']

/-- The half of the block that an offset lies in is the word's top bit. -/
theorem getLsbD_twelve_eq (off : BitVec 13) : off.getLsbD 12 = (off.extractLsb' 2 11).getLsbD 10 := by
  simp

/-- The index that a read takes from an offset is the rest of the word. -/
theorem wordIndex_extractLsb' (off : BitVec 13) :
    wordIndex (off.extractLsb' 0 12) = ((off.extractLsb' 2 11).extractLsb' 0 10).toNat := by
  simp only [wordIndex_eq, toNat_extract]
  omega

/-- Reads of the registers, and of the PAYLOAD window, depend on the word index alone. -/
theorem exec_rd_congr {off off' : BitVec 12} (h : wordIndex off = wordIndex off') (s : State) :
    exec (.rd off) s = exec (.rd off') s := by
  simp only [exec, execRd, h]

theorem exec_rdPayload_congr {off off' : BitVec 12} (h : wordIndex off = wordIndex off') (s : State) :
    exec (.rdPayload off) s = exec (.rdPayload off') s := by
  simp only [exec, execRdPayload, h]

/-- Settles O4: a read takes the offset's word only, a write compares the masked offset. -/
theorem offsetLowBitsIgnored : Obligations.OffsetLowBitsIgnored := by
  intro write off off' v s h
  cases write with
  | false =>
    have hw := offset_word_congr h
    have hi : wordIndex (off.extractLsb' 0 12) = wordIndex (off'.extractLsb' 0 12) := by
      rw [wordIndex_extractLsb', wordIndex_extractLsb', hw]
    rw [accessInstr_read, accessInstr_read, getLsbD_twelve_eq off, getLsbD_twelve_eq off', hw]
    split
    · exact exec_rd_congr hi s
    · exact exec_rdPayload_congr hi s
  | true =>
    rw [accessInstr_write, accessInstr_write, h]
    repeat' split
    all_goals rfl

/-! ## Transactions while a command waits (rules R68, R138, R139) -/

/-- A volatile register read while BUSY = 1 returns a free value (rule R138). -/
theorem exec_rd_busy_volatile {off : BitVec 12} {s : State} (hp : s.pending ≠ none)
    (hv : volatileReg (off.toNat / 4) = true) : exec (.rd off) s = .next (respondFree s) := by
  rw [← wordIndex_eq] at hv
  exact congrArg Host.Outcome.next (if_pos (by rw [busy_of_ne_none hp, hv]; rfl))

/-- While BUSY = 1 a transaction does nothing, answers a read, or is a write ignored with WR_BUSY. -/
theorem access_busy_cases (a : Access) {s : State} (hp : s.pending ≠ none) :
    exec (accessInstr a) s = .next s ∨ (∃ v, exec (accessInstr a) s = .next (respond v s)) ∨
      exec (accessInstr a) s = .next (respondFree s) ∨ exec (accessInstr a) s = .next (raise .wrBusy s) := by
  have guarded : ∀ f : State → State, Host.Outcome.next (guardWrite f s) =
      (.next (raise .wrBusy s) : Host.Outcome State Fault Refusal) := fun f => by rw [guardWrite_busy f hp]
  rcases accessInstr_cases a with ⟨off, e⟩ | ⟨off, e⟩ | e | e | e | e | ⟨off, e⟩ <;> rw [e]
  · cases hv : volatileReg (off.toNat / 4) with
    | true => exact .inr (.inr (.inl (exec_rd_busy_volatile hp hv)))
    | false => exact .inr (.inl ⟨_, exec_rd (by rw [hv, Bool.and_false])⟩)
  · exact .inr (.inr (.inl (exec_rdPayload_busy off hp)))
  · exact .inr (.inr (.inr (guarded _)))
  · exact .inr (.inr (.inr (guarded _)))
  · exact .inr (.inr (.inr (guarded _)))
  · exact .inr (.inr (.inr (guarded _)))
  · exact .inl rfl

/-- Taking the host's move off its list while a command is pending. -/
theorem advance_busy {s : State} (h : s.pending ≠ none) :
    advance s = { s with host := s.host.tail, latency := s.latency - 1 } := by
  rw [advance_eq, if_neg h]

/-- Settles O10: after the move is taken off the list, the transaction is one of four that touch only the read bus,
the draw counter and WR_BUSY. -/
theorem busyHostChangesNothing : Obligations.BusyHostChangesNothing := by
  intro s c a hc hm
  have hp : s.pending ≠ none := by rw [hc]; nofun
  rw [step_of_hostMoves_access hm, advance_busy hp]
  rcases access_busy_cases a (s := { s with host := s.host.tail, latency := s.latency - 1 }) hp with
    e | ⟨v, e⟩ | e | e
  · exact ⟨_, e, rfl, fun _ _ => rfl⟩
  · exact ⟨_, e, rfl, fun _ _ => rfl⟩
  · exact ⟨_, e, rfl, fun _ _ => rfl⟩
  · refine ⟨_, e, rfl, fun k hk => ?_⟩
    rw [raised_raise, beq_false_of_ne hk, Bool.or_false]
    rfl

/-! ## The lines of a frame (rules R60, R88, R135) -/

/-- Four bytes put together, the first most significant, are the four bytes that PUSH32 takes apart. -/
theorem wordBytes_append (a b c d : Byte) : wordBytes (a ++ b ++ c ++ d) = [a, b, c, d] := by
  unfold wordBytes
  simp (disch := decide) only [BitVec.extractLsb'_append_eq_of_add_le, BitVec.extractLsb'_append_eq_of_le,
    BitVec.extractLsb'_eq_self, Nat.reduceSub]

/-- A `push32` line with nothing pending pushes its word's bytes. -/
theorem exec_push32_line (v : Word) {s : State} (h : s.pending = none) :
    exec (accessInstr (AsmLine.push32 v).access) s = .next (pushBytes (wordBytes v) s) := by
  have ha : accessInstr (AsmLine.push32 v).access = .push32 v := accessInstr_write 0x0018#13 v
  rw [ha]
  exact congrArg Host.Outcome.next (guardWrite_idle _ h)

theorem pushBytes_append (bs cs : List Byte) (s : State) : pushBytes (bs ++ cs) s = pushBytes cs (pushBytes bs s) :=
  List.foldl_append

theorem pushBytes_pending (bs : List Byte) (s : State) : (pushBytes bs s).pending = s.pending := by
  rw [pushBytes_frame]

/-- Bytes that the frame buffer has room for are written from FILL on, and nothing is raised (rule R134). -/
theorem pushBytes_of_fits (bs : List Byte) (s : State) (h : s.fill + bs.length ≤ 188) :
    pushBytes bs s = { s with fb := writeBytes s.fb s.fill bs, fill := s.fill + bs.length } := by
  induction bs generalizing s with
  | nil => rfl
  | cons b bs ih =>
    rw [List.length_cons] at h
    have hb : pushByte b s = { s with fb := writeByte s.fb s.fill b, fill := s.fill + 1 } := by
      rcases pushByte_cases b s with ⟨-, e⟩ | ⟨hfull, -⟩
      · exact e
      · omega
    calc pushBytes (b :: bs) s
      _ = pushBytes bs { s with fb := writeByte s.fb s.fill b, fill := s.fill + 1 } := by rw [← hb]; rfl
      _ = _ := ih _ (by simp only; omega)
      _ = _ := by simp only [writeBytes, List.length_cons, Nat.add_assoc, Nat.add_comm 1]

/-- A list that does not begin with four bytes is shorter than four. -/
theorem length_lt_four {bs : List Byte} (h : ∀ a b c d rest, bs = a :: b :: c :: d :: rest → False) :
    bs.length < 4 := by
  match bs, h with
  | [], _ | [_], _ | [_, _], _ | [_, _, _], _ => simp
  | a :: b :: c :: d :: rest, h => exact (h a b c d rest rfl).elim

/-- A frame line is one `push32` line for each four bytes. -/
theorem length_asmFrame (bs : List Byte) : (asmFrame bs).length = bs.length / 4 := by
  induction bs using asmFrame.induct with
  | case1 a b c d rest ih => simp only [asmFrame, List.length_cons, ih]; omega
  | case2 bs h => rw [asmFrame.eq_2 bs h, Nat.div_eq_of_lt (length_lt_four h), List.length_nil]

/-- Run with nothing pending, the lines of a whole number of words push the bytes in order. -/
theorem runAccesses_asmFrame (bs : List Byte) (s : State) (h4 : 4 ∣ bs.length) (hp : s.pending = none) :
    runAccesses (asmFrame bs) s = .next (pushBytes bs s) := by
  induction bs using asmFrame.induct generalizing s with
  | case1 a b c d rest ih =>
    have hrest : 4 ∣ rest.length := by simp only [List.length_cons] at h4; omega
    have hline := exec_push32_line (a ++ b ++ c ++ d) hp
    rw [wordBytes_append] at hline
    calc runAccesses (asmFrame (a :: b :: c :: d :: rest)) s
      _ = runAccesses (asmFrame rest) (pushBytes [a, b, c, d] s) := by
        simp only [runAccesses, asmFrame, List.map_cons, execAll, hline]
      _ = .next (pushBytes rest (pushBytes [a, b, c, d] s)) := ih _ hrest ((pushBytes_pending _ s).trans hp)
      _ = .next (pushBytes (a :: b :: c :: d :: rest) s) := by rw [← pushBytes_append]; rfl
  | case2 bs h =>
    obtain rfl : bs = [] := List.eq_nil_of_length_eq_zero (Nat.eq_zero_of_dvd_of_lt h4 (length_lt_four h))
    rfl

/-- Settles O16: the 47 lines push the 188 bytes in order, and from FILL 0 all of them have room. -/
theorem frameLinesFillTheBuffer : Obligations.FrameLinesFillTheBuffer := by
  intro bs s hlen hw hp hf
  have hrun : runAccesses (asmFrame bs) s = .next { s with fb := writeBytes s.fb 0 bs, fill := 188 } := by
    rw [runAccesses_asmFrame bs s (by omega) hp, pushBytes_of_fits bs s (by omega), hf, hlen, Nat.zero_add]
  refine ⟨by rw [length_asmFrame, hlen], _, hrun, rfl, fun i => ?_⟩
  split
  · next hi => simpa only [Nat.zero_add] using readByte_writeBytes_inside hw 0 bs i hi
  · next hi => exact readByte_writeBytes_outside s.fb bs (by omega)

/-! ## Reads that repeat (rule R146) -/

/-- No register and no word of the PAYLOAD window shows the read bus. -/
theorem regWord_respond (k : Nat) (v : Word) (s : State) : regWord k (respond v s) = regWord k s := by
  unfold regWord
  split <;> rfl

theorem payloadWord_respond (k : Nat) (v : Word) (s : State) : payloadWord k (respond v s) = payloadWord k s := rfl

/-- So with nothing pending a read answers the same whatever the read bus holds. -/
theorem exec_rd_respond (off : BitVec 12) (v : Word) {s : State} (h : s.pending = none) :
    exec (.rd off) (respond v s) = .next (respond (regWord (off.toNat / 4) s) s) := by
  have hv : (respond v s).pending = none := h
  rw [exec_rd_idle off hv, regWord_respond]
  rfl

theorem exec_rdPayload_respond (off : BitVec 12) (v : Word) {s : State} (h : s.pending = none) :
    exec (.rdPayload off) (respond v s) = .next (respond (payloadWord (off.toNat / 4) s) s) := by
  have hv : (respond v s).pending = none := h
  rw [exec_rdPayload_idle off hv, payloadWord_respond]
  rfl

/-- Settles O22: the word that a read leaves on the read bus is none that a read returns. -/
theorem idleReadsRepeat : Obligations.IdleReadsRepeat := by
  intro off s h
  refine ⟨exec_rd_idle off h, fun i hi => ?_⟩
  simp only [List.mem_cons, List.not_mem_nil, or_false] at hi
  obtain rfl | rfl := hi
  · exact ⟨_, exec_rd_idle off h, rfl, exec_rd_respond off _ h⟩
  · exact ⟨_, exec_rdPayload_idle off h, rfl, exec_rdPayload_respond off _ h⟩

end Sys2Proof.Machine
end

section
/-! PROOFS of the encoding's statements: command words by the range of their opcode, words written from operations
and read back, and the operations that take fields out of frame and payload bytes. -/

namespace Sys2Proof.Machine

/-! ## Command words (rule R73) -/

/-- An opcode from 4 on is no defined command. -/
theorem commandOf_of_ge {op : BitVec 8} (h : 4 ≤ op.toNat) : commandOf op = none := by
  have hne : ∀ c : BitVec 8, c.toNat < 4 → op ≠ c := by rintro c hc rfl; omega
  rw [commandOf, if_neg (hne _ (by decide)), if_neg (hne _ (by decide)), if_neg (hne _ (by decide)),
    if_neg (hne _ (by decide))]

/-- The fixed bits of the reserved rows are the ranges of opcodes that the rows' names give. -/
theorem reserved_mask_iff : ∀ op : BitVec 8,
    (op &&& 0x80#8 = 0x80#8 ↔ 0x80 ≤ op.toNat) ∧
      (op &&& 0xC0#8 = 0x40#8 ↔ 0x40 ≤ op.toNat ∧ op.toNat < 0x80) ∧
      (op &&& 0xE0#8 = 0x20#8 ↔ 0x20 ≤ op.toNat ∧ op.toNat < 0x40) ∧
      (op &&& 0xF0#8 = 0x10#8 ↔ 0x10 ≤ op.toNat ∧ op.toNat < 0x20) ∧
      (op &&& 0xF8#8 = 0x08#8 ↔ 0x08 ≤ op.toNat ∧ op.toNat < 0x10) ∧
      (op &&& 0xFC#8 = 0x04#8 ↔ 0x04 ≤ op.toNat ∧ op.toNat < 0x08) := by decide

/-- The row of a reserved opcode, by range. -/
theorem reservedInstr_eq (op : BitVec 8) :
    reservedInstr op =
      if op.toNat < 0x08 then .reserved0407 op
      else if op.toNat < 0x10 then .reserved080f op
      else if op.toNat < 0x20 then .reserved101f op
      else if op.toNat < 0x40 then .reserved203f op
      else if op.toNat < 0x80 then .reserved407f op
      else .reserved80ff op := by
  obtain ⟨h80, h40, h20, h10, h08, -⟩ := reserved_mask_iff op
  simp only [reservedInstr, h80, h40, h20, h10, h08]
  grind

theorem opcodeOf_toNat (w : Word) : (opcodeOf w).toNat = w.toNat % 256 := by
  simp only [opcodeOf, toNat_extract, pow_zero, Nat.div_one, Nat.reducePow]

/-- Settles O5: a defined opcode is its command, any other is in the row of its range. -/
theorem commandWordDecodes : Obligations.CommandWordDecodes := by
  intro w
  have hop : BitVec.ofNat 8 (w.toNat % 256) = opcodeOf w := by
    rw [← opcodeOf_toNat, BitVec.ofNat_toNat, BitVec.setWidth_eq]
  rw [hop, ← opcodeOf_toNat, decode, decodeCmd]
  generalize opcodeOf w = op
  by_cases h : 4 ≤ op.toNat
  · rw [commandOf_of_ge h, if_neg (show op.toNat ≠ 0x00 by omega), if_neg (show op.toNat ≠ 0x01 by omega),
      if_neg (show op.toNat ≠ 0x02 by omega), if_neg (show op.toNat ≠ 0x03 by omega), ← reservedInstr_eq]
  · obtain rfl | rfl | rfl | rfl : op = 0x00#8 ∨ op = 0x01#8 ∨ op = 0x02#8 ∨ op = 0x03#8 := by bv_omega
    all_goals rfl

/-! ## Words written and read back (rules R73, R86) -/

/-- An opcode with a reserved row's fixed bits is no defined command and in no other row. -/
theorem reservedInstr_of_wf {row : BitVec 8 → Instr}
    (hrow : row ∈ [.reserved0407, .reserved080f, .reserved101f, .reserved203f, .reserved407f, .reserved80ff])
    {op : BitVec 8} (hw : (row op).wf = true) : commandOf op = none ∧ reservedInstr op = row op := by
  obtain ⟨h80, h40, h20, h10, h08, h04⟩ := reserved_mask_iff op
  simp only [List.mem_cons, List.not_mem_nil, or_false] at hrow
  obtain rfl | rfl | rfl | rfl | rfl | rfl := hrow
  all_goals
    simp only [Instr.wf, beq_iff_eq, h80, h40, h20, h10, h08, h04] at hw
    refine ⟨commandOf_of_ge (by omega), ?_⟩
    rw [reservedInstr_eq]
    grind

/-- The word of a reserved command is read as its row. -/
theorem decode_cmdPacket {row : BitVec 8 → Instr}
    (hrow : row ∈ [.reserved0407, .reserved080f, .reserved101f, .reserved203f, .reserved407f, .reserved80ff])
    {op : BitVec 8} (hw : (row op).wf = true) : decode (cmdPacket op) = .ok (row op) := by
  have hop : opcodeOf (op.setWidth 32) = op := by
    rw [opcodeOf, BitVec.extractLsb'_setWidth_of_le (by decide), BitVec.extractLsb'_eq_self]
  obtain ⟨hc, hr⟩ := reservedInstr_of_wf hrow hw
  rw [cmdPacket, decode, decodeCmd, hop, hc, hr]

/-- A read is of the register half or of the PAYLOAD window, by its offset's bit 12. -/
theorem decode_bus_read (half : Bit) (off : BitVec 12) (v : Word) :
    decode (.bus (busKey false (half ++ off)) v) = .ok (if half = 0#1 then .rd off else .rdPayload off) := by
  have hhalf : (half ++ off).getLsbD 12 = false ↔ half = 0#1 := by
    rw [BitVec.getLsbD_append, if_neg (by decide)]
    revert half
    decide
  have hoff : (half ++ off).extractLsb' 0 12 = off := BitVec.extractLsb'_append_eq_right
  have hread := accessInstr_read (half ++ off) v
  simp only [hhalf, hoff] at hread
  exact congrArg Except.ok hread

/-- Settles O1, by the operation's format. -/
theorem decodeEncodeRoundTrip : Obligations.DecodeEncodeRoundTrip := by
  intro i hw
  cases i with
  | rd off => exact decode_bus_read 0#1 off 0#32
  | rdPayload off => exact decode_bus_read 1#1 off 0#32
  | wrCmd v => exact congrArg Except.ok (accessInstr_write 0x0004#13 v)
  | wrTargetPid v => exact congrArg Except.ok (accessInstr_write 0x000C#13 v)
  | push8 v => exact congrArg Except.ok (accessInstr_write 0x0014#13 v)
  | push32 v => exact congrArg Except.ok (accessInstr_write 0x0018#13 v)
  | wrIgnored off v =>
    have hoff : writable off = false := by simpa [Instr.wf] using hw
    exact congrArg Except.ok (accessInstr_write_ignored hoff v)
  | nop | decodeFrame | rsmReset | clearSticky => rfl
  | reserved0407 op => exact decode_cmdPacket (row := .reserved0407) (by simp) hw
  | reserved080f op => exact decode_cmdPacket (row := .reserved080f) (by simp) hw
  | reserved101f op => exact decode_cmdPacket (row := .reserved101f) (by simp) hw
  | reserved203f op => exact decode_cmdPacket (row := .reserved203f) (by simp) hw
  | reserved407f op => exact decode_cmdPacket (row := .reserved407f) (by simp) hw
  | reserved80ff op => exact decode_cmdPacket (row := .reserved80ff) (by simp) hw
  | tsExtract h => exact decode_ts_pack .extract h hw
  | afDecode h => exact decode_ts_pack .afDecode h hw
  | afAbsent h => exact decode_ts_pack .afAbsent h hw
  | pcrDecode h => exact decode_ts_pack .pcrDecode h hw
  | rsmNotTracked h => exact decode_ts_pack .notTracked h hw
  | rsmStart h => exact decode_ts_pack .start h hw
  | rsmIdle h => exact decode_ts_pack .idle h hw
  | rsmContinue h => exact decode_ts_pack .continues h hw
  | rsmEnd h => exact decode_ts_pack .ends h hw
  | rsmDisc h => exact decode_ts_pack .disc h hw
  | pesDecode p => exact congrArg (fun q => Except.ok (Instr.pesDecode q)) (PesHeader_unpack_pack p)
  | audShort => rfl
  | audSyncMiss a => exact decode_aud_pack .syncMiss a hw
  | audFields a => exact decode_aud_pack .fields a hw
  | brLookup a => exact decode_aud_pack .brLookup a hw
  | srLookup a => exact decode_aud_pack .srLookup a hw
  | fsize a => exact decode_aud_pack .fsize a hw

/-- Settles O6: each word is evaluated. -/
theorem sampleWordsDecode : Obligations.SampleWordsDecode := by
  unfold Obligations.SampleWordsDecode
  decide

/-! ## PCR_DECODE (rules R76, R97) -/

theorem bits_toNat (m : List Host.Cell) (i hi lo : Nat) :
    (bits m i hi lo).toNat = (readByte m i).toNat / 2 ^ lo % 2 ^ (hi - lo + 1) :=
  toNat_extract (readByte m i) lo (hi - lo + 1)

theorem pcrBase_toNat (m : List Host.Cell) :
    (pcrBase m).toNat =
      (readByte m 6).toNat * 2 ^ 25 + (readByte m 7).toNat * 2 ^ 17 + (readByte m 8).toNat * 2 ^ 9 +
        (readByte m 9).toNat * 2 + (readByte m 10).toNat / 128 := by
  have hbit : (bits m 10 7 7).toNat = (readByte m 10).toNat / 128 := by
    have := (readByte m 10).isLt
    rw [bits_toNat]
    omega
  calc (pcrBase m).toNat
    _ = (be m 6 4).toNat * 2 + (bits m 10 7 7).toNat := toNat_append_add _ _
    _ = _ := by rw [hbit, be_four_toNat]; ring

theorem pcrExt_toNat (m : List Host.Cell) :
    (pcrExt m).toNat = (readByte m 10).toNat % 2 * 256 + (readByte m 11).toNat := by
  calc (pcrExt m).toNat
    _ = (bits m 10 0 0).toNat * 256 + (readByte m 11).toNat := toNat_append_add _ _
    _ = _ := by rw [bits_toNat, pow_zero, Nat.div_one, Nat.sub_self, Nat.zero_add, pow_one]

/-- Settles O35: the two base registers together are the 33-bit base of the six bytes. -/
theorem pcrDecodeResult : Obligations.PcrDecodeResult := by
  intro h s
  have hbase : (pcrDecode s).record.pcr.baseHi ++ (pcrDecode s).record.pcr.baseLo = pcrBase s.fb :=
    extract_append_extract (i := 1) (j := 32) _
  exact ⟨pcrDecode s, rfl, pcrDecode_frame s, (congrArg BitVec.toNat hbase).trans (pcrBase_toNat s.fb),
    pcrExt_toNat s.fb⟩

/-! ## The audio header word of the payload (rules R78, R83, R123, R124) -/

/-- The sync is the first byte and the top three bits of the second. -/
theorem unpack_be_sync (m : List Host.Cell) :
    (AudHeader.unpack (be m 0 4)).sync.toNat = (readByte m 0).toNat * 8 + (readByte m 1).toNat / 32 := by
  have hword := be_four_toNat m 0
  have h : (AudHeader.unpack (be m 0 4)).sync.toNat = (be m 0 4).toNat / 2 ^ 21 % 2 ^ 11 := toNat_extract _ _ _
  have h0 := (readByte m 0).isLt
  have h1 := (readByte m 1).isLt
  have h2 := (readByte m 2).isLt
  have h3 := (readByte m 3).isLt
  simp only [Nat.zero_add] at hword
  omega

theorem payloadHeader_sync_iff (s : State) :
    (payloadHeader s).sync = audSync ↔ (readByte s.buf 0).toNat * 8 + (readByte s.buf 1).toNat / 32 = 0x7FF := by
  rw [← BitVec.toNat_inj, payloadHeader, unpack_be_sync]
  rfl

/-- AUDIO_DECODE's selection by the bytes of the payload buffer (rules R83, R123, R124). -/
theorem decode_audioPacket (s : State) :
    decode (audioPacket s) = .ok
      (if s.bufLen < 4 then .audShort
       else if (readByte s.buf 0).toNat * 8 + (readByte s.buf 1).toNat / 32 = 0x7FF
         then .audFields (AudHeader.unpack (be s.buf 0 4))
         else .audSyncMiss (AudHeader.unpack (be s.buf 0 4))) := by
  simp only [audioPacket, ← payloadHeader_sync_iff]
  by_cases hlen : s.bufLen < 4
  · rw [if_pos hlen, if_pos hlen]
    rfl
  · rw [if_neg hlen, if_neg hlen]
    by_cases hsync : (payloadHeader s).sync = audSync
    · rw [if_pos hsync, if_pos hsync]
      exact checkRow_ok (beq_iff_eq.2 hsync)
    · rw [if_neg hsync, if_neg hsync]
      exact checkRow_ok (bne_iff_ne.2 hsync)

/-- The registers of a lookup that was not made read 0 (rules R44 to R46). -/
theorem audRegs_zero_words :
    bitrateWord AudRegs.zero.bitrate = 0#32 ∧ srateWord AudRegs.zero.srate = 0#32 ∧
      fsizeWord AudRegs.zero.fsize = 0#32 := by decide

/-- Settles O44: both operations leave the lookups' registers 0 and one flag or two in AUD_FIELDS. -/
theorem audShortAndSyncMiss : Obligations.AudShortAndSyncMiss := by
  obtain ⟨hbitrate, hsrate, hfsize⟩ := audRegs_zero_words
  have hshort : audFieldsWord { AudFields.zero with attempted := true, short := true } = 0x00000006#32 := by decide
  have hmiss : audFieldsWord { AudFields.zero with attempted := true } = 0x00000002#32 := by decide
  exact ⟨decode_audioPacket, fun s => ⟨audShort s, rfl, rfl, rfl, hshort, hbitrate, hsrate, hfsize⟩,
    fun a s => ⟨audSyncMiss a s, rfl, rfl, rfl, hmiss, hbitrate, hsrate, hfsize⟩⟩

/-- The lookups read the codes and each other's results, which AUD_FIELDS has left in place: a second run changes
nothing. -/
theorem execAll_lookups_audFields (a : AudHeader) (s : State) :
    execAll [.brLookup a, .srLookup a, .fsize a] (audFields a s) = .next (audFields a s) :=
  calc execAll [.brLookup a, .srLookup a, .fsize a] (audFields a s)
    _ = .next (fsize a (srLookup a (brLookup a (audFields a s)))) := rfl
    _ = .next (audFields a s) := by simp only [audFields, fsize, srLookup, brLookup]

/-- Each code below the sync lies inside one byte of the header word. -/
theorem unpack_be_codes (m : List Host.Cell) :
    AudCodes.unpack (be m 0 4) = {
      version := (readByte m 1).extractLsb' 3 2
      layer := (readByte m 1).extractLsb' 1 2
      protection := (readByte m 1).extractLsb' 0 1
      brIndex := (readByte m 2).extractLsb' 4 4
      srIndex := (readByte m 2).extractLsb' 2 2
      padding := (readByte m 2).extractLsb' 1 1
      spare := (readByte m 2).extractLsb' 0 1
      channelMode := (readByte m 3).extractLsb' 6 2
      modeExt := (readByte m 3).extractLsb' 4 2
      copyright := (readByte m 3).extractLsb' 3 1
      original := (readByte m 3).extractLsb' 2 1
      emphasis := (readByte m 3).extractLsb' 0 2 } := by
  have hbe : be m 0 4 = be m 0 1 ++ readByte m 1 ++ readByte m 2 ++ readByte m 3 := rfl
  rw [hbe]
  simp (disch := decide) only [AudCodes.unpack, BitVec.extractLsb'_append_eq_of_add_le,
    BitVec.extractLsb'_append_eq_of_le, Nat.reduceSub]

/-- Settles O45: the lookups' fixed point, and each code as the quotient and remainder of its byte. -/
theorem audFieldsResult : Obligations.AudFieldsResult := by
  refine ⟨fun a s => ⟨audFields a s, rfl, rfl, rfl, rfl, execAll_lookups_audFields a s⟩,
    fun b => ⟨AudHeader_pack_unpack _, unpack_be_sync b, ?_⟩⟩
  have hcodes : (AudHeader.unpack (be b 0 4)).codes = AudCodes.unpack (be b 0 4) := rfl
  have h2 := (readByte b 2).isLt
  have h3 := (readByte b 3).isLt
  simp only [hcodes, unpack_be_codes, toNat_extract, pow_zero, Nat.div_one, Nat.reducePow, true_and, and_true]
  omega

end Sys2Proof.Machine
end

section
/-! PROOFS about the decode of a TS packet (40_bitfield.md, 43_ts_packet.md). -/

namespace Sys2Proof.Machine

/-! ## The header word and its fields after a decoded frame (rules R93, R105) -/

/-- What follows TS_EXTRACT in a frame decode leaves TS_FIELDS alone. -/
theorem frameDecode_ts (s : State) : (frameDecode s).record.ts = header s := by
  rw [frameDecode_eq, reassemble_frame, adaptation_frame, tsExtract_frame]

theorem frameDecode_tsHdr (s : State) : (frameDecode s).record.tsHdr = headerWord s := by
  obtain ⟨-, hfields, -⟩ := frameDecode_outcome s
  calc (frameDecode s).record.tsHdr
    _ = (frameDecode s).record.ts.pack := hfields.tsHdr
    _ = (TsHeader.unpack (headerWord s)).pack := by rw [frameDecode_ts, header]
    _ = headerWord s := TsHeader_pack_unpack _

/-- Settles O3: the fields are those the word unpacks to, and packed again they are the word. -/
theorem headerWordRoundTrip : Obligations.HeaderWordRoundTrip := by
  intro s hfill
  obtain ⟨-, hfields, -⟩ := frameDecode_outcome s
  refine ⟨retire .ok { frameDecode s with fill := 0 }, congrArg Host.Outcome.next (decodeFrame_full hfill),
    frameDecode_tsHdr s, ?_⟩
  exact (TsHeader_pack_toNat _).symm.trans (congrArg BitVec.toNat hfields.tsHdr.symm)

end Sys2Proof.Machine
end

section
/-! PROOFS about the adaptation field and the PCR (41_adaptation_field.md). -/

namespace Sys2Proof.Machine

/-! ## PCR ticks and seconds (rules R98, R99) -/

/-- The ticks of the largest base and extension (rule R98). -/
theorem ticks_toNat_le (base : BitVec 33) (ext : BitVec 9) : (ticks base ext).toNat ≤ 2576980377811 := by
  have hbase := base.isLt
  have hext := ext.isLt
  rw [ticks_toNat]
  omega

theorem pcrTicks_pcrDecode (s : State) : pcrTicks (pcrDecode s) = (ticks (pcrBase s.fb) (pcrExt s.fb)).toNat :=
  congrArg BitVec.toNat (extract_append_extract (i := 10) (j := 32) _)

/-- The two tick registers, read as bus words, are the ticks (rule R34). -/
theorem pcrTicks_eq_regWords (s : State) : pcrTicks s = (regWord 15 s).toNat * 2 ^ 32 + (regWord 16 s).toNat := by
  have hhi : (regWord 15 s).toNat = s.record.pcr.ticksHi.toNat := BitVec.toNat_setWidth_of_le (by decide)
  rw [hhi]
  exact toNat_append_add _ _

/-- Settles O36: the 42 bits of the ticks hold the largest value, and the seconds are a quotient in ℚ. -/
theorem pcrTicksExact : Obligations.PcrTicksExact := by
  refine ⟨fun _ s => ⟨pcrDecode s, rfl, pcrDecode_ticks s, ?_, by decide⟩, fun s => ?_⟩
  · rw [pcrTicks_pcrDecode]
    exact ticks_toNat_le _ _
  · rw [← pcrTicks_eq_regWords]
    exact div_mul_cancel₀ _ (by norm_num)

/-! ## Which of the two operations a frame runs (rules R94, R95) -/

/-- The AFC field lies in f[3]. -/
theorem headerOf_afc (m : List Host.Cell) : (headerOf m).afc = (readByte m 3).extractLsb' 4 2 :=
  BitVec.extractLsb'_append_eq_of_add_le (xhi := be m 0 3) (by decide)

theorem headerOf_afc_bit (m : List Host.Cell) : (headerOf m).afc.getLsbD 1 = (readByte m 3).getLsbD 5 := by
  rw [headerOf_afc, BitVec.getLsbD_extractLsb']
  rfl

theorem framePackets_adaptation (s : State) :
    (framePackets s)[1]? =
      some (.ts (if (readByte s.fb 3).getLsbD 5 then .afDecode else .afAbsent) (headerWord s)) := by
  rw [← headerOf_afc_bit]
  rfl

theorem framePackets_afDecode_iff (s : State) :
    (framePackets s)[1]? = some (.ts .afDecode (headerWord s)) ↔ (readByte s.fb 3).getLsbD 5 = true := by
  rw [framePackets_adaptation]
  cases (readByte s.fb 3).getLsbD 5 <;> simp

theorem framePackets_afAbsent_iff (s : State) :
    (framePackets s)[1]? = some (.ts .afAbsent (headerWord s)) ↔ (readByte s.fb 3).getLsbD 5 = false := by
  rw [framePackets_adaptation]
  cases (readByte s.fb 3).getLsbD 5 <;> simp

/-! ## AF_ABSENT (rule R95) -/

/-- The five PCR registers read 0 where the frame has no PCR. -/
theorem regWord_pcr_zero {s : State} (h : s.record.pcr = PcrRegs.zero) :
    ∀ k ∈ [12, 13, 14, 15, 16], regWord k s = 0#32 := by
  simp [regWord, h, PcrRegs.zero]

/-- Settles O34: the record of AF_ABSENT, register by register. -/
theorem afAbsentResult : Obligations.AfAbsentResult := by
  intro h s
  have hinfo : regWord 10 (afAbsent s) = 0#32 := show afInfoWord AfInfo.zero = 0#32 by decide
  have hstuff : regWord 11 (afAbsent s) = 0#32 := rfl
  refine ⟨afAbsent s, rfl, afAbsent_frame s, ?_, framePackets_afAbsent_iff s⟩
  exact List.forall_mem_cons.2 ⟨hinfo, List.forall_mem_cons.2 ⟨hstuff, regWord_pcr_zero rfl⟩⟩

/-! ## AF_DECODE (rules R94, R96) -/

/-- The stuffing count as rule R96 writes it. -/
theorem stuffing_eq (length : Byte) (pcr : Bool) :
    stuffing length pcr = (length.toNat : Int) - 1 - 6 * (if pcr then 1 else 0) := by
  cases pcr <;> rfl

theorem stuffing_bounds (length : Byte) (pcr : Bool) : -7 ≤ stuffing length pcr ∧ stuffing length pcr ≤ 254 := by
  have hlength := length.isLt
  cases pcr <;> simp only [stuffing] <;> omega

theorem afDecode_af (s : State) :
    (afDecode s).record.af =
      { valid := true, pcrValid := (readByte s.fb 5).getLsbD 4, length := readByte s.fb 4,
        flags := readByte s.fb 5 } :=
  congrArg Record.af (afDecode_record s)

theorem afDecode_afStuff_toInt (s : State) :
    (afDecode s).record.afStuff.toInt = stuffing (readByte s.fb 4) ((readByte s.fb 5).getLsbD 4) := by
  rw [afDecode_record]
  exact toInt_stuffing _ _

theorem afDecode_pcr (s : State) :
    (afDecode s).record.pcr =
      if (readByte s.fb 5).getLsbD 4 then (pcrDecode s).record.pcr else PcrRegs.zero :=
  congrArg Record.pcr (afDecode_record s)

@[simp] theorem pcrDecode_sticky (s : State) : (pcrDecode s).sticky = s.sticky := rfl

/-- The PCR registers, written after the raise, leave the sticky bits alone. -/
theorem afDecode_sticky (s : State) :
    (afDecode s).sticky =
      (raiseIf (decide (stuffing (readByte s.fb 4) ((readByte s.fb 5).getLsbD 4) < 0)) .afNegStuff s).sticky := by
  simp only [afDecode]
  split
  · rw [pcrDecode_sticky, raiseIf_sticky, raiseIf_sticky]
  · rw [pcrClear_sticky, raiseIf_sticky, raiseIf_sticky]

/-- AF_DECODE raises AF_NEG_STUFF where the stuffing count is negative, and no other condition. -/
theorem afDecode_stickyIs (s : State) :
    StickyIs (afDecode s) s
      (if stuffing (readByte s.fb 4) ((readByte s.fb 5).getLsbD 4) < 0 then [.afNegStuff] else []) := by
  intro c
  rw [raised_congr (afDecode_sticky s)]
  split
  · next hneg => rw [decide_eq_true hneg]; exact stickyIs_raise .afNegStuff s c
  · next hneg => rw [decide_eq_false hneg]; exact (Bool.or_false _).symm

/-- Settles O33: the record of AF_DECODE, its sticky bit and its selection, each by its own lemma. -/
theorem afDecodeResult : Obligations.AfDecodeResult := by
  intro h s
  obtain ⟨hlow, hhigh⟩ := stuffing_bounds (readByte s.fb 4) ((readByte s.fb 5).getLsbD 4)
  refine ⟨afDecode s, rfl, ?_⟩
  simp only [← stuffing_eq]
  refine ⟨?_, afDecode_afStuff_toInt s, hlow, hhigh, afDecode_stickyIs s, fun hpcr => ⟨pcrDecode s, rfl, ?_⟩,
    fun hpcr => regWord_pcr_zero ?_, framePackets_afDecode_iff s⟩
  · rw [← afDecode_af]
    exact afDecode_frame s
  · exact (afDecode_pcr s).trans (if_pos hpcr)
  · exact (afDecode_pcr s).trans (if_neg (Bool.eq_false_iff.1 hpcr))

end Sys2Proof.Machine
end

section
/-! PROOFS about the decode of the PES header (42_pes_header.md). -/

namespace Sys2Proof.Machine

/-! ## Runs of bytes inside a word of the frame -/

theorem be_one (m : List Host.Cell) (i : Nat) : be m i 1 = readByte m i := by
  apply BitVec.eq_of_toNat_eq
  calc (be m i 1).toNat
    _ = (0#0).toNat * 2 ^ 8 + (readByte m i).toNat := toNat_append_add _ _
    _ = (readByte m i).toNat := Nat.zero_add _

theorem be_add_toNat (m : List Host.Cell) (i a b : Nat) :
    (be m i (a + b)).toNat = (be m i a).toNat * 2 ^ (8 * b) + (be m (i + a) b).toNat := by
  induction b with
  | zero => simp [be]
  | succ b ih =>
    calc (be m i (a + (b + 1))).toNat
      _ = (be m i (a + b)).toNat * 2 ^ 8 + (readByte m (i + (a + b))).toNat := toNat_append_add _ _
      _ = (be m i a).toNat * 2 ^ (8 * (b + 1)) +
          ((be m (i + a) b).toNat * 2 ^ 8 + (readByte m (i + a + b)).toNat) := by
        rw [ih, ← Nat.add_assoc i a b]; ring
      _ = _ := congrArg _ (toNat_append_add _ _).symm

/-- The b bytes that follow the first a and stand before the last c are a field of the word of all of them. -/
theorem extractLsb'_be (m : List Host.Cell) (i a b c : Nat) :
    (be m i (a + b + c)).extractLsb' (8 * c) (8 * b) = be m (i + a) b := by
  apply BitVec.eq_of_toNat_eq
  rw [toNat_extract, be_add_toNat m i (a + b) c, be_add_toNat m i a b, Nat.mul_comm _ (2 ^ (8 * c)),
    Nat.mul_add_div (Nat.two_pow_pos _), Nat.div_eq_of_lt (be m (i + (a + b)) c).isLt, Nat.add_zero,
    Nat.mul_add_mod_self_right, Nat.mod_eq_of_lt (be m (i + a) b).isLt]

/-! ## PES_DECODE (rules R77, R101, R102) -/

/-- The fields of the nine header bytes; f[12] and f[13] are in none of them. -/
theorem unpack_be_pes (f : List Host.Cell) :
    PesHeader.unpack (be f 6 9) =
      { startCode := be f 6 3, streamId := readByte f 9, packetLength := be f 10 2, hdlRaw := readByte f 14 } := by
  have hstart : (be f 6 9).extractLsb' 48 24 = be f 6 3 := extractLsb'_be f 6 0 3 6
  have hid : (be f 6 9).extractLsb' 40 8 = readByte f 9 := (extractLsb'_be f 6 3 1 5).trans (be_one f 9)
  have hlength : (be f 6 9).extractLsb' 24 16 = be f 10 2 := extractLsb'_be f 6 4 2 3
  have hhdl : (be f 6 9).extractLsb' 0 8 = readByte f 14 := (extractLsb'_be f 6 8 1 0).trans (be_one f 14)
  rw [PesHeader.unpack, hstart, hid, hlength, hhdl]

/-- The sum does not wrap in the nine bits of HDL. -/
theorem headerDataLength_toNat (b : Byte) : (headerDataLength b).toNat = b.toNat + 9 := by
  have hb := b.isLt
  rw [headerDataLength, BitVec.toNat_add, BitVec.toNat_setWidth]
  change (b.toNat % 512 + 9) % 512 = b.toNat + 9
  omega

/-- Settles O37: HDL by its own lemma, and the fields by their places in the nine bytes. -/
theorem pesDecodeResult : Obligations.PesDecodeResult := by
  refine ⟨fun p s => ⟨pesDecode p s, rfl, ?_⟩,
    fun f => ⟨⟨be f 6 3, readByte f 9, be f 10 2, readByte f 14⟩, ?_, rfl, rfl, rfl, rfl⟩⟩
  · have hhdl : (pesDecode p s).pes.hdl.toNat = p.hdlRaw.toNat + 9 := headerDataLength_toNat p.hdlRaw
    have hbyte := p.hdlRaw.isLt
    exact ⟨rfl, rfl, rfl, rfl, rfl, hhdl, by omega, by omega⟩
  · exact congrArg (fun p => Except.ok (Instr.pesDecode p)) (unpack_be_pes f)

end Sys2Proof.Machine
end

section
/-! PROOFS about the decode of a TS packet (40_bitfield.md, 43_ts_packet.md), part 2: TS_EXTRACT, the operations that
a full frame runs, and the record that it leaves. -/

namespace Sys2Proof.Machine

/-! ## TS_EXTRACT (rules R105, R106) -/

theorem raised_tsExtract (c : Cause) (h : TsHeader) (s : State) :
    raised c (tsExtract h s) = (raised c s || (h.sync != Config.syncByte && c == .syncByteErr)) := by
  rw [tsExtract, raised_raiseIf]
  rfl

theorem tsExtract_stickyIs (h : TsHeader) (s : State) :
    StickyIs (tsExtract h s) s (if h.sync = Config.syncByte then [] else [.syncByteErr]) := by
  intro c
  rw [raised_tsExtract]
  split
  · next hsync => rw [bne_eq_false_iff_eq.2 hsync]; rfl
  · next hsync => rw [bne_iff_ne.2 hsync, Bool.true_and, List.contains_cons, List.contains_nil, Bool.or_false]

/-- Settles O32: the sync byte is compared as a number, and the record is written whatever it is. -/
theorem syncByteCheck : Obligations.SyncByteCheck := by
  intro h s
  have hsync : h.sync.toNat = 0x47 ↔ h.sync = Config.syncByte := BitVec.toNat_inj (y := Config.syncByte)
  refine ⟨tsExtract h s, rfl, ?_, by rw [tsExtract_frame]⟩
  simp only [hsync]
  exact tsExtract_stickyIs h s

theorem framePid_toNat (f : List Host.Cell) :
    (framePid f).toNat = (readByte f 1).toNat % 32 * 256 + (readByte f 2).toNat := by
  calc (framePid f).toNat
    _ = (bits f 1 4 0).toNat * 256 + (readByte f 2).toNat := toNat_append_add _ _
    _ = _ := by rw [bits_toNat, pow_zero, Nat.div_one]; rfl

/-- The header's fields in the frame's bytes (rule R91). -/
theorem headerOf_eq (f : List Host.Cell) :
    headerOf f =
      { sync := readByte f 0, tei := bits f 1 7 7, pusi := bits f 1 6 6, tp := bits f 1 5 5, pid := framePid f,
        tsc := bits f 3 7 6, afc := bits f 3 5 4, cc := bits f 3 3 0 } := by
  have hpid : (be f 0 4).extractLsb' 8 13 = framePid f := by
    have hword := be_four_toNat f 0
    simp only [Nat.zero_add] at hword
    have h2 := (readByte f 2).isLt
    have h3 := (readByte f 3).isLt
    apply BitVec.eq_of_toNat_eq
    rw [toNat_extract, framePid_toNat]
    omega
  have hbe : be f 0 4 = be f 0 1 ++ readByte f 1 ++ readByte f 2 ++ readByte f 3 := rfl
  rw [headerOf, TsHeader.unpack, hpid, hbe, be_one]
  simp (disch := decide) only [bits, BitVec.extractLsb, BitVec.extractLsb'_append_eq_of_add_le,
    BitVec.extractLsb'_append_eq_of_le, BitVec.extractLsb'_eq_self, Nat.reduceSub, Nat.reduceAdd]

/-- Settles O31: the record by the frame lemma, each field as a quotient and remainder of its byte. -/
theorem tsExtractResult : Obligations.TsExtractResult := by
  refine ⟨fun h s => ⟨tsExtract h s, rfl, tsExtract_frame h s, fun c hc => ?_⟩,
    fun f => ⟨checkRow_ok rfl, TsHeader_pack_unpack _, ?_⟩⟩
  · rw [raised_tsExtract, beq_false_of_ne hc, Bool.and_false, Bool.or_false]
  · have h1 := (readByte f 1).isLt
    have h3 := (readByte f 3).isLt
    simp only [headerOf_eq, framePid_toNat, bits_toNat, true_and]
    omega

/-! ## The operations of a decoded frame (rules R82, R107, R141) -/

theorem decode_ts {op : TsOp} {w : Word} (hw : (op.instr (TsHeader.unpack w)).wf = true) :
    decode (.ts op w) = .ok (op.instr (TsHeader.unpack w)) := checkRow_ok hw

/-- AF_DECODE or AF_ABSENT, by AFC (rules R80, R107). -/
def adaptationOp (h : TsHeader) : TsOp := if h.afc.getLsbD 1 then .afDecode else .afAbsent

theorem framePackets_eq (s : State) :
    framePackets s =
      [.ts .extract (headerWord s), .ts (adaptationOp (header s)) (headerWord s),
        .ts (rsmOp (header s) s) (headerWord s)] := rfl

/-- The upper bit of AFC says that it is 2 or 3. -/
theorem two_le_afc_iff : ∀ afc : BitVec 2, 2 ≤ afc.toNat ↔ afc.getLsbD 1 = true := by decide

theorem adaptationOp_instr (h : TsHeader) :
    (adaptationOp h).instr h = if 2 ≤ h.afc.toNat then .afDecode h else .afAbsent h := by
  simp only [two_le_afc_iff, adaptationOp]
  split <;> rfl

theorem adaptationOp_wf (h : TsHeader) : ((adaptationOp h).instr h).wf = true := by
  unfold adaptationOp
  split
  · next hafc => exact hafc
  · next hafc => exact (Bool.not_eq_true' _).mpr (Bool.eq_false_iff.2 hafc)

theorem exec_adaptationOp (h : TsHeader) (s : State) :
    exec ((adaptationOp h).instr h) s = .next (adaptation h s) := by
  unfold adaptationOp adaptation
  split <;> rfl

/-- The six selections of the dispatch, with the operation that each runs (rule R82). -/
theorem rsmOp_instr (h : TsHeader) (s : State) :
    (rsmOp h s).instr h =
      if h.pid ≠ s.targetPid then .rsmNotTracked h
      else if s.phase = .waiting ∨ s.phase = .ended then
        if h.pusi = 1#1 then .rsmStart h else .rsmIdle h
      else if h.cc.toNat = (s.lastCc.toNat + 1) % 16 then
        if h.cc = 15#4 then .rsmEnd h else .rsmContinue h
      else .rsmDisc h := by
  simp only [← eq_nextCc_iff, rsmOp]
  cases s.phase with
  | waiting | ended =>
    simp only [reduceCtorEq, or_false, or_true, if_true]
    repeat' split
    all_goals rfl
  | start | continuing =>
    simp only [reduceCtorEq, or_self, if_false]
    repeat' split
    all_goals rfl

theorem rsmOp_wf (h : TsHeader) (s : State) : ((rsmOp h s).instr h).wf = true := by
  rw [rsmOp_instr]
  repeat' split
  · rfl
  · next hpusi => exact beq_iff_eq.2 hpusi
  · next hpusi => exact beq_iff_eq.2 ((bit_cases h.pusi).resolve_left hpusi)
  · next hcc => exact beq_iff_eq.2 hcc
  · next hcc => exact bne_iff_ne.2 hcc
  · rfl

theorem exec_rsmOp (h : TsHeader) (s : State) : exec ((rsmOp h s).instr h) s = .next (reassemble h s) := by
  unfold rsmOp reassemble
  cases s.phase with
  | waiting | ended =>
    dsimp only
    repeat' split
    all_goals rfl
  | start | continuing =>
    dsimp only
    repeat' split
    all_goals rfl

/-- TS_EXTRACT and the adaptation field leave what the dispatch of the reassembly reads (rule R82). -/
theorem rsmOp_adaptation (h : TsHeader) (s : State) : rsmOp h (adaptation h (tsExtract h s)) = rsmOp h s := by
  obtain ⟨r, st, e⟩ := beforeReassembly h s
  rw [e]
  rfl

theorem decode_framePackets (s : State) :
    (framePackets s).mapM decode =
      .ok [.tsExtract (header s), (adaptationOp (header s)).instr (header s),
        (rsmOp (header s) s).instr (header s)] := by
  have hextract : decode (.ts .extract (headerWord s)) = .ok (.tsExtract (header s)) := decode_ts rfl
  have hadaptation : decode (.ts (adaptationOp (header s)) (headerWord s)) =
    .ok ((adaptationOp (header s)).instr (header s)) := decode_ts (adaptationOp_wf _)
  have hrsm : decode (.ts (rsmOp (header s) s) (headerWord s)) = .ok ((rsmOp (header s) s).instr (header s)) :=
    decode_ts (rsmOp_wf _ s)
  rw [framePackets_eq, List.mapM_cons, List.mapM_cons, List.mapM_cons, hextract, hadaptation, hrsm]
  rfl

theorem execAll_frame (s : State) :
    execAll [.tsExtract (header s), (adaptationOp (header s)).instr (header s), (rsmOp (header s) s).instr (header s)]
      s = .next (frameDecode s) := by
  have hextract : exec (.tsExtract (header s)) s = .next (tsExtract (header s) s) := rfl
  simp only [execAll, hextract, exec_adaptationOp]
  rw [← rsmOp_adaptation, exec_rsmOp, frameDecode_eq]

/-- Settles O29: the three packets decode to operations that together are the frame decode; a ShortRead runs none. -/
theorem decodeFrameCommand : Obligations.DecodeFrameCommand := by
  intro s
  have hheader : headerOf s.fb = header s := rfl
  refine ⟨fun hfill => ?_, fun hfill => ?_⟩
  · dsimp only
    rw [hheader, ← adaptationOp_instr, ← rsmOp_instr]
    exact ⟨decode_framePackets s, frameDecode s, execAll_frame s, congrArg Host.Outcome.next (decodeFrame_full hfill)⟩
  · exact ⟨_, congrArg Host.Outcome.next (decodeFrame_short hfill), rfl, stickyIs_raise .shortRead s⟩

/-! ## Every record register of a decoded frame is its own (rule R108) -/

/-- The state with other contents of the record registers that the adaptation field fills. -/
def withAdaptation (af : AfInfo) (stuff : Word) (pcr : PcrRegs) (s : State) : State :=
  { s with record := { s.record with af := af, afStuff := stuff, pcr := pcr } }

/-- The state with other contents of the record registers that the reassembly fills (rule R110). -/
def withAttachments (e : Event) (a : Bool) (n : BitVec 8) (s : State) : State :=
  { s with record := { s.record with event := e, attached := a, lastAppend := n } }

/-- TS_EXTRACT fills the other record registers, and reads none. -/
theorem tsExtract_withRecord (h : TsHeader) (r : Record) (s : State) :
    tsExtract h { s with record := r } =
      withAdaptation r.af r.afStuff r.pcr (withAttachments r.event r.attached r.lastAppend (tsExtract h s)) := by
  unfold tsExtract raiseIf
  split <;> rfl

/-- What AF_DECODE leaves (rules R94, R96). -/
theorem afDecode_eq (s : State) :
    afDecode s = { s with
      record := { s.record with
        af := { valid := true, pcrValid := (readByte s.fb 5).getLsbD 4, length := readByte s.fb 4,
                flags := readByte s.fb 5 },
        afStuff := BitVec.ofInt 32 (stuffing (readByte s.fb 4) ((readByte s.fb 5).getLsbD 4)),
        pcr := if (readByte s.fb 5).getLsbD 4 then (pcrDecode s).record.pcr else PcrRegs.zero },
      sticky := if decide (stuffing (readByte s.fb 4) ((readByte s.fb 5).getLsbD 4) < 0)
        then s.sticky ||| (1#9 <<< Cause.afNegStuff.index) else s.sticky } := by
  rw [afDecode_frame, afDecode_record, afDecode_sticky, raiseIf_sticky]

theorem adaptation_withAdaptation (h : TsHeader) (af : AfInfo) (stuff : Word) (pcr : PcrRegs) (s : State) :
    adaptation h (withAdaptation af stuff pcr s) = adaptation h s := by
  unfold adaptation
  split
  · rw [afDecode_eq, afDecode_eq]
    rfl
  · rfl

/-- The audio decode reads nothing that it or the attachments write. -/
theorem audioDecode_attach_audioDecode (e : Event) (n : Nat) (s : State) :
    (audioDecode (attach e n (audioDecode s))).aud = (audioDecode s).aud :=
  audioDecode_congr _ s (by rw [attach_bufLen, audioDecode_frame]) (by rw [attach_buf, audioDecode_frame])

/-- A Start ends with the audio decode and the attachments of the bytes that are then in the buffer (rule R113). -/
theorem rsmStart_eq_attach (h : TsHeader) (s : State) :
    ∃ u, rsmStart h s = attach .start (audioDecode u).bufLen (audioDecode u) := ⟨_, rfl⟩

/-- A Start's audio registers are the decode of the payload buffer that it leaves. -/
theorem rsmStart_aud (h : TsHeader) (s : State) : (rsmStart h s).aud = (audioDecode (rsmStart h s)).aud := by
  obtain ⟨u, e⟩ := rsmStart_eq_attach h s
  rw [e, audioDecode_attach_audioDecode, attach_aud]

theorem rsmStart_lastAppend (h : TsHeader) (s : State) :
    (rsmStart h s).record.lastAppend = BitVec.ofNat 8 (rsmStart h s).bufLen := by
  obtain ⟨u, e⟩ := rsmStart_eq_attach h s
  rw [e, attach_record, attach_bufLen]

section Attachments

variable (h : TsHeader) (e : Event) (a : Bool) (n : BitVec 8) (s : State)

theorem adaptation_withAttachments :
    adaptation h (withAttachments e a n s) = withAttachments e a n (adaptation h s) := by
  unfold adaptation
  split
  · rw [afDecode_eq, afDecode_eq]
    rfl
  · rfl

theorem rsmStart_withAttachments : rsmStart h (withAttachments e a n s) = rsmStart h s := by
  obtain ⟨k, hk⟩ : ∃ k, k = (readByte s.fb 14).toNat := ⟨_, rfl⟩
  have hnew := rsmStart_eq h (withAttachments e a n s) k hk
  have hold := rsmStart_eq h s k hk
  have haud : (rsmStart h (withAttachments e a n s)).aud = (rsmStart h s).aud := by
    rw [rsmStart_aud, rsmStart_aud h s]
    have hbufLen : (rsmStart h (withAttachments e a n s)).bufLen = (rsmStart h s).bufLen := by rw [hnew, hold]
    have hbuf : (rsmStart h (withAttachments e a n s)).buf = (rsmStart h s).buf := by
      rw [hnew, hold]
      simp only [withAttachments]
    exact audioDecode_congr _ _ hbufLen hbuf
  have hpes : (pesDecode (framePes (withAttachments e a n s)) (withAttachments e a n s)).pes =
    (pesDecode (framePes s) s).pes := rfl
  rw [haud, hpes] at hnew
  refine hnew.trans (Eq.trans ?_ hold.symm)
  simp only [withAttachments, raiseIf_sticky]

theorem rsmContinue_withAttachments : rsmContinue h (withAttachments e a n s) = rsmContinue h s := by
  rw [rsmContinue_eq, rsmContinue_eq]
  simp only [withAttachments]

theorem rsmEnd_withAttachments : rsmEnd h (withAttachments e a n s) = rsmEnd h s := by
  rw [rsmEnd_eq, rsmEnd_eq]
  simp only [withAttachments]

/-- Each of the six operations fills these registers, and reads none. -/
theorem reassemble_withAttachments : reassemble h (withAttachments e a n s) = reassemble h s := by
  have hpid : (withAttachments e a n s).targetPid = s.targetPid := rfl
  have hphase : (withAttachments e a n s).phase = s.phase := rfl
  have hcc : nextCc (withAttachments e a n s) = nextCc s := rfl
  have hnotTracked : rsmNotTracked (withAttachments e a n s) = rsmNotTracked s := rfl
  have hidle : rsmIdle (withAttachments e a n s) = rsmIdle s := rfl
  have hdisc : rsmDisc (withAttachments e a n s) = rsmDisc s := rfl
  simp only [reassemble, hpid, hphase, hcc, hnotTracked, hidle, hdisc, rsmStart_withAttachments,
    rsmContinue_withAttachments, rsmEnd_withAttachments]

end Attachments

theorem frameDecode_withRecord (r : Record) (s : State) : frameDecode { s with record := r } = frameDecode s := by
  have hheader : header { s with record := r } = header s := rfl
  rw [frameDecode_eq, hheader, tsExtract_withRecord, adaptation_withAdaptation, adaptation_withAttachments,
    reassemble_withAttachments, frameDecode_eq]

theorem decodeFrame_withRecord (r : Record) {s : State} (hfill : s.fill = 188) :
    decodeFrame { s with record := r } = decodeFrame s := by
  rw [decodeFrame_full hfill, decodeFrame_full (s := { s with record := r }) hfill, frameDecode_withRecord]

theorem FrameFields.valid_eq_false {r : Record} (h : FrameFields r) (hafc : r.ts.afc.toNat < 2) :
    r.af.valid = false := by
  rw [h.valid, Bool.eq_false_iff, Ne, ← two_le_afc_iff]
  omega

/-- A Start attaches the number of bytes that it left in the payload buffer (rules R41, R110). -/
theorem reassemble_start_lastAppend (h : TsHeader) (s : State) (he : (reassemble h s).record.event = .start) :
    (reassemble h s).record.lastAppend = BitVec.ofNat 8 (reassemble h s).bufLen := by
  rcases reassemble_cases h s with ⟨-, e⟩ | ⟨-, -, -, e⟩ | ⟨-, -, -, e⟩ | ⟨-, -, -, -, e⟩ | ⟨-, -, -, -, e⟩ | ⟨-, -, -, e⟩ <;>
    rw [e] at he ⊢
  case inr.inl => exact rsmStart_lastAppend h s
  all_goals cases he

theorem FrameOutcome.frameStart {s t : State} (ho : FrameOutcome s t) (he : t.record.event = .start) :
    FrameStart s t := by
  rcases ho with ho | ho | ho
  · rcases ho.event with e | e | e <;> cases e.symm.trans he
  · exact ho
  · rcases ho.outcome with ⟨-, -, e⟩ | ⟨-, -, e⟩ <;> cases e.symm.trans he

/-- LAST_APPEND of a Start is BUF_LEN, which fits its eight bits. -/
theorem frameDecode_start_lastAppend {s : State} (he : (frameDecode s).record.event = .start) :
    (frameDecode s).record.lastAppend.toNat = (frameDecode s).bufLen := by
  obtain ⟨ho, -, -⟩ := frameDecode_outcome s
  have hlen : (frameDecode s).bufLen ≤ 173 := (ho.frameStart he).bufLen
  rw [frameDecode_eq] at he hlen ⊢
  rw [reassemble_start_lastAppend _ _ he]
  exact Nat.mod_eq_of_lt (by omega)

/-- A frame that only reports leaves BUF_LEN (rules R112, R117, R118). -/
theorem FrameOutcome.bufLen_of_report {s t : State} (ho : FrameOutcome s t)
    (he : t.record.event = .notTracked ∨ t.record.event = .idle ∨ t.record.event = .disc) : t.bufLen = s.bufLen := by
  rcases ho with ho | ho | ho
  · exact ho.kept.bufLen
  · simp [ho.event] at he
  · rcases ho.outcome with ⟨-, -, e⟩ | ⟨-, -, e⟩ <;> simp [e] at he

/-- Settles O30: what the record held is replaced, and the cleared registers are those of the frame's outcome. -/
theorem freshRecordPerFrame : Obligations.FreshRecordPerFrame := by
  intro s r hfill
  obtain ⟨ho, hfields, hattached⟩ := frameDecode_outcome s
  have hevent := ho.eventFields hattached
  refine ⟨congrArg Host.Outcome.next (decodeFrame_withRecord r hfill), _,
    congrArg Host.Outcome.next (decodeFrame_full hfill), fun hafc => hfields.absent (hfields.valid_eq_false hafc),
    fun hpcr => hfields.noPcr ?_, fun hne => ?_, frameDecode_start_lastAppend,
    fun he => ⟨hevent.report he, ho.bufLen_of_report he⟩⟩
  · rw [hfields.pcrValid, Bool.and_eq_false_iff]
    exact hpcr.imp hfields.valid_eq_false id
  · exact hattached.trans (beq_false_of_ne hne)

end Sys2Proof.Machine
end

section
/-! PROOFS about the reassembly state machine (44_reassembly.md): when each of the six operations is selected, what
it leaves, and when a unit ends. -/

namespace Sys2Proof.Machine

/-! ## The selection of an operation (rule R82) -/

/-- A unit is running, or none is. -/
theorem phase_running_iff (p : Phase) : p = .start ∨ p = .continuing ↔ ¬ (p = .waiting ∨ p = .ended) := by
  cases p <;> decide

theorem rsmOp_eq (h : TsHeader) (s : State) :
    rsmOp h s =
      if h.pid ≠ s.targetPid then .notTracked
      else if s.phase = .waiting ∨ s.phase = .ended then if h.pusi = 1#1 then .start else .idle
      else if h.cc = nextCc s then if h.cc = 15#4 then .ends else .continues
      else .disc := by
  unfold rsmOp
  cases s.phase <;> rfl

section Selection

variable (h : TsHeader) (s : State)

theorem rsmOp_eq_notTracked_iff : rsmOp h s = .notTracked ↔ h.pid ≠ s.targetPid := by
  rw [rsmOp_eq]
  split_ifs <;> simp_all

theorem rsmOp_eq_start_iff :
    rsmOp h s = .start ↔ h.pid = s.targetPid ∧ (s.phase = .waiting ∨ s.phase = .ended) ∧ h.pusi = 1#1 := by
  rw [rsmOp_eq]
  split_ifs <;> simp_all

theorem rsmOp_eq_idle_iff :
    rsmOp h s = .idle ↔ h.pid = s.targetPid ∧ (s.phase = .waiting ∨ s.phase = .ended) ∧ h.pusi = 0#1 := by
  have hpusi : h.pusi = 0#1 ↔ h.pusi ≠ 1#1 := by
    rcases bit_cases h.pusi with e | e <;> rw [e] <;> decide
  rw [rsmOp_eq, hpusi]
  split_ifs <;> simp_all

theorem rsmOp_eq_disc_iff :
    rsmOp h s = .disc ↔ h.pid = s.targetPid ∧ (s.phase = .start ∨ s.phase = .continuing) ∧ h.cc ≠ nextCc s := by
  rw [rsmOp_eq, phase_running_iff]
  split_ifs <;> simp_all

theorem rsmOp_eq_continues_iff :
    rsmOp h s = .continues ↔ h.pid = s.targetPid ∧ (s.phase = .start ∨ s.phase = .continuing) ∧ h.cc = nextCc s ∧
      h.cc ≠ 15#4 := by
  rw [rsmOp_eq, phase_running_iff]
  split_ifs <;> simp_all

theorem rsmOp_eq_ends_iff :
    rsmOp h s = .ends ↔ h.pid = s.targetPid ∧ (s.phase = .start ∨ s.phase = .continuing) ∧ h.cc = nextCc s ∧
      h.cc = 15#4 := by
  rw [rsmOp_eq, phase_running_iff]
  split_ifs <;> simp_all

end Selection

/-! ## What each operation leaves -/

/-- Which conditions were raised is a matter of the sticky field alone. -/
theorem StickyIs.of_sticky_eq {s t u : State} {cs : List Cause} (hu : StickyIs u s cs) (e : t.sticky = u.sticky) :
    StickyIs t s cs := fun c => (raised_congr e c).trans (hu c)

/-- Settles O38: the three operations only attach their event, and RSM_DISC raises DISC before it. -/
theorem reassemblyReportsOnly : Obligations.ReassemblyReportsOnly := by
  intro h s
  refine ⟨rfl, rfl, ⟨rsmDisc s, rfl, rfl, (stickyIs_raise .disc s).of_sticky_eq rfl⟩, rsmOp_eq_notTracked_iff h s,
    rsmOp_eq_idle_iff h s, ?_⟩
  rw [rsmOp_eq_disc_iff, Ne, eq_nextCc_iff]

/-- An appended frame reads back from BUF_LEN on (rules R115, R116). -/
theorem readByte_appendFrame {s : State} (hw : Memory.wf s.buf) (i : Nat) :
    readByte (appendFrame s).buf i =
      if s.bufLen ≤ i ∧ i < s.bufLen + 184 then readByte s.fb (4 + (i - s.bufLen)) else readByte s.buf i := by
  rw [appendFrame, appendBytes_buf, readByte_writeSlice hw, show Config.frameBytes - 4 = 184 from rfl]

/-- Settles O39: the appended frame reads back, and the counter is compared as a number. -/
theorem rsmContinueResult : Obligations.RsmContinueResult := by
  intro h s hw
  have hbuf : (rsmContinue h s).buf = (appendFrame s).buf := by rw [rsmContinue, attach_buf]
  have h15 : h.cc ≠ 15#4 ↔ h.cc.toNat ≠ 15 := BitVec.toNat_inj.symm.not
  refine ⟨⟨rsmContinue h s, rfl, ?_, fun i => (congrArg (readByte · i) hbuf).trans (readByte_appendFrame hw i)⟩, ?_⟩
  · rw [rsmContinue_eq]
  · rw [rsmOp_eq_continues_iff, eq_nextCc_iff, h15]

/-- Settles O40: as a Continue, with the counter 15 accepted after 14 alone. -/
theorem rsmEndResult : Obligations.RsmEndResult := by
  intro h s hw
  have hbuf : (rsmEnd h s).buf = (appendFrame s).buf := by rw [rsmEnd, attach_buf, raise_buf]
  have hsticky : (rsmEnd h s).sticky = (raise .unitEnded s).sticky := by rw [rsmEnd_eq, raise_sticky]
  refine ⟨⟨rsmEnd h s, rfl, ?_, (stickyIs_raise .unitEnded s).of_sticky_eq hsticky,
    fun i => (congrArg (readByte · i) hbuf).trans (readByte_appendFrame hw i)⟩, ?_⟩
  · rw [rsmEnd_eq]
  · rw [rsmOp_eq_ends_iff, eq_nextCc_fifteen]

theorem stickyIs_raiseIf (b : Bool) (c : Cause) (s : State) : StickyIs (raiseIf b c s) s (if b then [c] else []) := by
  cases b with
  | false => exact fun d => (Bool.or_false _).symm
  | true => exact stickyIs_raise c s

/-- The new payload buffer of a Start holds the frame's bytes from offset 15 + f[14] on (rule R114). -/
theorem readByte_rsmStart_buf (h : TsHeader) {s : State} (hw : Memory.wf s.buf) (n : Nat)
    (hn : n = (readByte s.fb 14).toNat) (i : Nat) :
    readByte (rsmStart h s).buf i = if i < 173 - n then readByte s.fb (15 + n + i) else readByte s.buf i := by
  rw [rsmStart_eq h s n hn]
  dsimp only
  split
  · have hlen : 188 - (15 + n) = 173 - n := by omega
    rw [readByte_writeSlice hw, hlen]
    simp only [Nat.zero_le, true_and, Nat.zero_add, Nat.sub_zero]
  · next hover => rw [if_neg (by omega)]

/-- The audio decode has already run on the payload buffer that a Start leaves: running it again changes nothing
(rule R113). -/
theorem audioDecode_rsmStart (h : TsHeader) (s : State) : audioDecode (rsmStart h s) = rsmStart h s := by
  rw [audioDecode_frame, ← rsmStart_aud]

/-- Settles O41: the equation of a Start, its append read back, and its audio decode as a fixed point. -/
theorem rsmStartResult : Obligations.RsmStartResult := by
  intro h s hw
  refine ⟨⟨rsmStart h s, rfl, ?_⟩, rsmOp_eq_start_iff h s⟩
  obtain ⟨i, hdecode, hruns⟩ := audioPacket_runs (rsmStart h s)
  have haudio : exec i (rsmStart h s) = .next (rsmStart h s) := by
    rw [hruns (rsmStart h s) rfl rfl, audioDecode_rsmStart]
  have hbuf := readByte_rsmStart_buf h hw _ rfl
  have e := rsmStart_eq h s _ rfl
  generalize (readByte s.fb 14).toNat = n at *
  generalize rsmStart h s = t at *
  refine ⟨?_, ⟨framePes s, rfl, _, rfl, by rw [e]⟩, ?_, hbuf, i, hdecode, haudio⟩
  · rw [e]
  · simpa only [decide_eq_true_eq] using
      (stickyIs_raiseIf (decide (174 ≤ n)) .pesOverrun s).of_sticky_eq (by rw [e])

/-! ## Frames of one unit (rule R120) -/

/-- What an accepted frame leaves: it appends 184 bytes under the next counter, and counter 15 ends the unit. -/
structure FrameAccepted (s t : State) : Prop where
  targetPid : t.targetPid = s.targetPid
  lastCc : t.lastCc = nextCc s
  phase : t.phase = if nextCc s = 15#4 then .ended else .continuing
  unitEnded : raised .unitEnded t = (raised .unitEnded s || decide (nextCc s = 15#4))
  bufLen : t.bufLen = s.bufLen + 184

/-- In a running unit the reassembly accepts a tracked frame with the next counter (rules R115, R116). -/
theorem reassemble_frameAccepted {h : TsHeader} {s : State} (hphase : s.phase = .start ∨ s.phase = .continuing)
    (hpid : h.pid = s.targetPid) (hcc : h.cc = nextCc s) : FrameAccepted s (reassemble h s) := by
  have hnotIdle : ¬ (s.phase = .waiting ∨ s.phase = .ended) := (phase_running_iff _).1 hphase
  rcases reassemble_cases h s with ⟨hne, -⟩ | ⟨-, hidle, -⟩ | ⟨-, hidle, -⟩ | ⟨-, -, -, h15, e⟩ | ⟨-, -, -, h15, e⟩ |
    ⟨-, -, hne, -⟩
  · exact absurd hpid hne
  · exact absurd hidle hnotIdle
  · exact absurd hidle hnotIdle
  · rw [hcc] at h15
    rw [e, rsmEnd_eq]
    exact ⟨rfl, hcc, (if_pos h15).symm, by rw [decide_eq_true h15]; exact stickyIs_raise .unitEnded s .unitEnded, rfl⟩
  · rw [hcc] at h15
    rw [e, rsmContinue_eq]
    exact ⟨rfl, hcc, (if_neg h15).symm, by rw [decide_eq_false h15, Bool.or_false]; rfl, rfl⟩
  · exact absurd hcc hne

/-- The decode of the adaptation field raises AF_NEG_STUFF alone (rules R94, R96). -/
theorem raised_adaptation {c : Cause} (hc : c ≠ .afNegStuff) (h : TsHeader) (s : State) :
    raised c (adaptation h s) = raised c s := by
  unfold adaptation
  split
  · rw [afDecode_stickyIs]
    split <;> simp [hc]
  · rfl

/-- The engine step that decodes such a frame accepts it. -/
theorem decodeFrame_frameAccepted {f : List Host.Cell} {s : State} (hphase : s.phase = .start ∨ s.phase = .continuing)
    (hpid : (headerOf f).pid = s.targetPid) (hcc : (headerOf f).cc = nextCc s) :
    FrameAccepted s (decodeFrame (loadFrame f s)) := by
  have hheader : header (loadFrame f s) = headerOf f := rfl
  have hsticky : raised .unitEnded (adaptation (headerOf f) (tsExtract (headerOf f) (loadFrame f s))) =
      raised .unitEnded s := by
    rw [raised_adaptation (by decide), raised_tsExtract, beq_false_of_ne (by decide), Bool.and_false, Bool.or_false]
    rfl
  rw [decodeFrame_full (s := loadFrame f s) rfl, frameDecode_eq, hheader]
  obtain ⟨r, st, e⟩ := beforeReassembly (headerOf f) (loadFrame f s)
  rw [e] at hsticky ⊢
  obtain ⟨htarget, hlastCc, hnewPhase, hended, hbufLen⟩ :=
    reassemble_frameAccepted (s := { loadFrame f s with record := r, sticky := st }) hphase hpid hcc
  exact ⟨htarget, hlastCc, hnewPhase, hsticky ▸ hended, hbufLen⟩

theorem framesToEnd_eq_one_iff : ∀ cc : BitVec 4, framesToEnd cc = 1 ↔ cc + 1#4 = 15#4 := by decide

theorem framesToEnd_pos : ∀ cc : BitVec 4, 0 < framesToEnd cc := by decide

/-- An accepted frame that does not end the unit leaves one frame less to its end. -/
theorem framesToEnd_eq_succ : ∀ cc : BitVec 4, cc + 1#4 ≠ 15#4 → framesToEnd cc = framesToEnd (cc + 1#4) + 1 := by
  decide

theorem add_framesToEnd_mod : ∀ cc : BitVec 4, (cc.toNat + framesToEnd cc) % 16 = 15 := by decide

/-- Where `n` accepted frames, at least one, leave a unit that stood at `s` (rule R120). -/
structure UnitAfter (s : State) (n : Nat) (t : State) : Prop where
  phase : t.phase = if n = framesToEnd s.lastCc then .ended else .continuing
  lastCc : t.lastCc.toNat = (s.lastCc.toNat + n) % 16
  unitEnded : raised .unitEnded t = (raised .unitEnded s || decide (n = framesToEnd s.lastCc))
  bufLen : t.bufLen = s.bufLen + 184 * n

theorem FrameAccepted.unitAfter_one {s t : State} (h : FrameAccepted s t) : UnitAfter s 1 t := by
  have hend : nextCc s = 15#4 ↔ 1 = framesToEnd s.lastCc := by rw [eq_comm (a := 1), framesToEnd_eq_one_iff, nextCc]
  obtain ⟨-, hlastCc, hphase, hended, hbufLen⟩ := h
  simp only [hend] at hphase hended
  exact ⟨hphase, (eq_nextCc_iff _ _).1 hlastCc, hended, hbufLen⟩

/-- A frame before the last leaves the unit running, and the others go on from there. -/
theorem FrameAccepted.unitAfter_succ {s t u : State} {n : Nat} (h : FrameAccepted s t) (hnotLast : nextCc s ≠ 15#4)
    (hu : UnitAfter t n u) : UnitAfter s (n + 1) u := by
  have hcc := (eq_nextCc_iff _ _).1 h.lastCc
  have hend : n = framesToEnd t.lastCc ↔ n + 1 = framesToEnd s.lastCc := by
    rw [h.lastCc, framesToEnd_eq_succ _ hnotLast, nextCc, Nat.add_right_cancel_iff]
  have hkept : raised .unitEnded t = raised .unitEnded s := by
    rw [h.unitEnded, decide_eq_false hnotLast, Bool.or_false]
  obtain ⟨hphase, hlastCc, hended, hbufLen⟩ := hu
  simp only [hend, hkept] at hphase hended
  have hlen := h.bufLen
  exact ⟨hphase, by omega, hended, by omega⟩

theorem runFrames_cons (f : List Host.Cell) (fs : List (List Host.Cell)) (s : State) :
    runFrames (f :: fs) s = runFrames fs (decodeFrame (loadFrame f s)) := rfl

/-- Consecutive frames, up to the end of the unit, are all accepted. -/
theorem runFrames_unitAfter (fs : List (List Host.Cell)) {s : State} (hphase : s.phase = .start ∨ s.phase = .continuing)
    (hseq : InSequence s.targetPid s.lastCc fs) (hne : fs ≠ []) (hlen : fs.length ≤ framesToEnd s.lastCc) :
    Yields (runFrames fs s) (UnitAfter s fs.length) := by
  induction fs generalizing s with
  | nil => exact absurd rfl hne
  | cons f fs ih =>
    obtain ⟨hpid, hcc, hrest⟩ := hseq
    have hacc := decodeFrame_frameAccepted hphase hpid hcc
    rw [runFrames_cons]
    generalize decodeFrame (loadFrame f s) = t at *
    rw [List.length_cons] at hlen
    cases hfs : fs with
    | nil => exact ⟨t, rfl, hacc.unitAfter_one⟩
    | cons g gs =>
      rw [← hfs]
      have hpos : 0 < fs.length := by rw [hfs, List.length_cons]; omega
      have hnotLast : nextCc s ≠ 15#4 := fun e => by
        rw [(framesToEnd_eq_one_iff s.lastCc).2 e] at hlen
        omega
      have hshorter := framesToEnd_eq_succ s.lastCc hnotLast
      have hrun : t.phase = .start ∨ t.phase = .continuing := .inr (hacc.phase.trans (if_neg hnotLast))
      obtain ⟨u, hu, hafter⟩ := ih hrun (by rw [hacc.targetPid, hacc.lastCc]; exact hrest)
        (List.ne_nil_of_length_pos hpos) (by rw [hacc.lastCc, nextCc]; omega)
      exact ⟨u, hu, hacc.unitAfter_succ hnotLast hafter⟩

/-- Settles O42, by induction on the frames: each is accepted, and the last of framesToEnd has counter 15. -/
theorem unitEndsAtFifteen : Obligations.UnitEndsAtFifteen := by
  intro fs s hphase hseq
  refine ⟨fun hlen => ?_, fun hlen hne => ?_⟩
  · have hne : fs ≠ [] := List.ne_nil_of_length_pos (hlen ▸ framesToEnd_pos s.lastCc)
    obtain ⟨t, ht, hafter⟩ := runFrames_unitAfter fs hphase hseq hne hlen.le
    have hcc : t.lastCc.toNat = 15 := by rw [hafter.lastCc, hlen, add_framesToEnd_mod]
    exact ⟨t, ht, by rw [hafter.phase, if_pos hlen], BitVec.eq_of_toNat_eq hcc,
      by rw [hafter.unitEnded, decide_eq_true hlen, Bool.or_true], hafter.bufLen⟩
  · obtain ⟨t, ht, hafter⟩ := runFrames_unitAfter fs hphase hseq hne hlen.le
    exact ⟨t, ht, by rw [hafter.phase, if_neg hlen.ne], hafter.lastCc,
      by rw [hafter.unitEnded, decide_eq_false hlen.ne, Bool.or_false], hafter.bufLen⟩

end Sys2Proof.Machine
end

section
/-! PROOFS about the audio header's lookups and the outcomes of its decode (45_audio_header.md). -/

namespace Sys2Proof.Machine

/-! ## The bitrate lookup (rules R125, R127) -/

/-- The column by the numbers of the version and the layer. -/
theorem bitrateCol_eq_some : ∀ v l : BitVec 2, ¬ (v.toNat = 1 ∨ l.toNat = 0) →
    bitrateCol v l = some (match v.toNat, l.toNat with
      | 3, 3 => .v1l1
      | 3, 2 => .v1l2
      | 3, _ => .v1l3
      | _, 3 => .v2l1
      | _, 2 => .v2l2
      | _, _ => .v2l3) := by decide

theorem bitrateCol_eq_none : ∀ v l : BitVec 2, v.toNat = 1 ∨ l.toNat = 0 → bitrateCol v l = none := by decide

theorem bitrateTable_le (i : Nat) (c : BitrateCol) : bitrateTable i c ≤ 448 := by
  have hall : ∀ k ∈ bitrateColumn c, k ≤ 448 := by cases c <;> decide
  unfold bitrateTable
  rcases Nat.lt_or_ge (i - 1) (bitrateColumn c).length with h | h
  · rw [List.getD_eq_getElem _ _ h]
    exact hall _ (List.getElem_mem h)
  · rw [List.getD_eq_default _ _ h]
    exact Nat.zero_le _

theorem lookupBitrate_free {i : BitVec 4} {v l : BitVec 2} (h : i = 0#4) : lookupBitrate i v l = ⟨.free, 0#16⟩ :=
  if_pos h

theorem lookupBitrate_bad {i : BitVec 4} {v l : BitVec 2} (h : i = 15#4) : lookupBitrate i v l = ⟨.bad, 0#16⟩ := by
  subst h
  rfl

theorem lookupBitrate_unresolved {i : BitVec 4} {v l : BitVec 2} (h0 : i ≠ 0#4) (h15 : i ≠ 15#4)
    (hc : bitrateCol v l = none) : lookupBitrate i v l = ⟨.unresolved, 0#16⟩ := by
  rw [lookupBitrate, if_neg h0, if_neg h15, hc]
  rfl

theorem lookupBitrate_numeric {i : BitVec 4} {v l : BitVec 2} {c : BitrateCol} (h0 : i ≠ 0#4) (h15 : i ≠ 15#4)
    (hc : bitrateCol v l = some c) : lookupBitrate i v l = ⟨.numeric, BitVec.ofNat 16 (bitrateTable i.toNat c)⟩ := by
  rw [lookupBitrate, if_neg h0, if_neg h15, hc]

/-- Settles O46, branch by branch of the precedence; a table entry fits the 16 bits of KBPS. -/
theorem brLookupResult : Obligations.BrLookupResult := by
  intro a s
  refine ⟨brLookup a s, rfl, rfl, ?_⟩
  have hset : (brLookup a s).aud.bitrate = lookupBitrate a.codes.brIndex a.codes.version a.codes.layer := rfl
  simp only [hset]
  split_ifs with h0 h15 hcol
  · exact lookupBitrate_free (BitVec.eq_of_toNat_eq h0)
  · exact lookupBitrate_bad (BitVec.eq_of_toNat_eq h15)
  · exact lookupBitrate_unresolved (mt (congrArg BitVec.toNat) h0) (mt (congrArg BitVec.toNat) h15)
      (bitrateCol_eq_none _ _ hcol)
  · rw [lookupBitrate_numeric (mt (congrArg BitVec.toNat) h0) (mt (congrArg BitVec.toNat) h15)
      (bitrateCol_eq_some _ _ hcol)]
    exact ⟨rfl, Nat.mod_eq_of_lt ((bitrateTable_le _ _).trans_lt (by decide))⟩

/-! ## The sample-rate lookup (rules R126, R128) -/

theorem srateTable_eq_none_iff :
    ∀ r v : BitVec 2, srateTable r v = none ↔ r.toNat = 3 ∨ v.toNat = 1 := by decide

theorem srateTable_le {r v : BitVec 2} {hz : Nat} (h : srateTable r v = some hz) : hz ≤ 48000 := by
  have hall : ∀ r v : BitVec 2, ∀ hz ∈ srateTable r v, hz ≤ 48000 := by decide
  exact hall r v hz h

theorem lookupSrate_reserved {r v : BitVec 2} (h : srateTable r v = none) : lookupSrate r v = ⟨.reserved, 0#16⟩ := by
  rw [lookupSrate, h]
  rfl

theorem lookupSrate_numeric {r v : BitVec 2} {hz : Nat} (h : srateTable r v = some hz) :
    lookupSrate r v = ⟨.numeric, BitVec.ofNat 16 hz⟩ := by
  rw [lookupSrate, h]

/-- Settles O47, by whether the table has an entry; an entry fits the 16 bits of HZ. -/
theorem srLookupResult : Obligations.SrLookupResult := by
  intro a s
  refine ⟨srLookup a s, rfl, rfl, ?_⟩
  have hset : (srLookup a s).aud.srate = lookupSrate a.codes.srIndex a.codes.version := rfl
  simp only [hset, ← srateTable_eq_none_iff]
  cases h : srateTable a.codes.srIndex a.codes.version with
  | none => exact lookupSrate_reserved h
  | some hz =>
    have hfits : hz % 2 ^ 16 = hz := Nat.mod_eq_of_lt ((srateTable_le h).trans_lt (by decide))
    rw [if_neg nofun, lookupSrate_numeric h]
    exact ⟨rfl, congrArg some hfits.symm⟩

/-! ## The frame size (rules R129, R130) -/

theorem frameSize_not_numeric {b : Bitrate} {r : Srate} (h : ¬ (b.kind = .numeric ∧ r.kind = .numeric)) (p : Bit) :
    frameSize b r p = ⟨false, 0#16⟩ := if_neg h

theorem frameSize_valid {b : Bitrate} {r : Srate} (h : b.kind = .numeric ∧ r.kind = .numeric) (p : Bit) :
    (frameSize b r p).valid = true := by
  rw [frameSize, if_pos h]

/-- Settles O49: the registers of two lookups have a divisor, and a quotient that fits the 16 bits of SIZE. -/
theorem fsizeResult : Obligations.FsizeResult := by
  intro a s
  have hset : (fsize a s).aud.fsize = frameSize s.aud.bitrate s.aud.srate a.codes.padding := rfl
  refine ⟨fsize a s, rfl, rfl, fun hnot => ?_, fun hb hr => ⟨frameSize_valid ⟨hb, hr⟩ _, ?_⟩⟩
  · calc regWord 28 (fsize a s)
      _ = fsizeWord (frameSize s.aud.bitrate s.aud.srate a.codes.padding) := rfl
      _ = fsizeWord ⟨false, 0#16⟩ := by rw [frameSize_not_numeric hnot]
      _ = 0#32 := by decide
  · rintro ⟨i, v, l, hbit⟩ ⟨r, w, hrate⟩
    rw [hset, hbit, hrate]
    rw [hbit] at hb
    rw [hrate] at hr
    obtain ⟨-, hsize, -⟩ := frameSize_lookups i v l r w a.codes.padding
    exact ⟨(by decide : 0 < 8000).trans_le (le_lookupSrate_hz hr), hsize (frameSize_valid ⟨hb, hr⟩ _)⟩

/-- The bitrates of version 1 and of the other versions (rule R127). -/
theorem lookupBitrate_kbps_range {i : BitVec 4} {v l : BitVec 2} (h : (lookupBitrate i v l).kind = .numeric) :
    if v = 3#2 then 32 ≤ (lookupBitrate i v l).kbps.toNat ∧ (lookupBitrate i v l).kbps.toNat ≤ 448
    else 8 ≤ (lookupBitrate i v l).kbps.toNat ∧ (lookupBitrate i v l).kbps.toNat ≤ 256 := by
  revert i v l
  decide

/-- The sample rates of version 1 and of the other versions (rule R128). -/
theorem lookupSrate_hz_range {r v : BitVec 2} (h : (lookupSrate r v).kind = .numeric) :
    if v = 3#2 then 32000 ≤ (lookupSrate r v).hz.toNat ∧ (lookupSrate r v).hz.toNat ≤ 48000
    else 8000 ≤ (lookupSrate r v).hz.toNat ∧ (lookupSrate r v).hz.toNat ≤ 24000 := by
  revert r v
  decide

/-- A bitrate and a sample rate whose ratio lies in these bounds give a frame size from 48 to 4609. -/
theorem frameSizeNat_range {kbps hz : BitVec 16} (hpos : 0 < hz.toNat) (hlow : hz.toNat ≤ 3000 * kbps.toNat)
    (hhigh : 1000 * kbps.toNat ≤ 32 * hz.toNat) (p : Bit) :
    48 ≤ frameSizeNat kbps hz p ∧ frameSizeNat kbps hz p ≤ 4609 := by
  have hle : 48 ≤ 144 * kbps.toNat * 1000 / hz.toNat := (Nat.le_div_iff_mul_le hpos).2 (by omega)
  have hge : 144 * kbps.toNat * 1000 / hz.toNat ≤ 4608 := Nat.div_le_of_le_mul (by omega)
  have hp := p.isLt
  unfold frameSizeNat
  omega

/-- The lookups of one version keep the ratio in those bounds; lookups of two versions need not (rule R130). -/
theorem lookups_frameSizeNat_range {i : BitVec 4} {v l r : BitVec 2} (hb : (lookupBitrate i v l).kind = .numeric)
    (hr : (lookupSrate r v).kind = .numeric) (p : Bit) :
    48 ≤ frameSizeNat (lookupBitrate i v l).kbps (lookupSrate r v).hz p ∧
      frameSizeNat (lookupBitrate i v l).kbps (lookupSrate r v).hz p ≤ 4609 := by
  have hkbps := lookupBitrate_kbps_range hb
  have hhz := lookupSrate_hz_range hr
  split at hkbps
  · next hv =>
    rw [if_pos hv] at hhz
    exact frameSizeNat_range (by omega) (by omega) (by omega) p
  · next hv =>
    rw [if_neg hv] at hhz
    exact frameSizeNat_range (by omega) (by omega) (by omega) p

/-- Settles O48: the tables are evaluated, the ranges follow from the bounds of their entries. -/
theorem tableValuesAndRanges : Obligations.TableValuesAndRanges := by
  refine ⟨by decide, by decide, fun i v l r p hb hr => ⟨?_, lookups_frameSizeNat_range hb hr p⟩, by decide, by decide⟩
  have := lookupBitrate_kbps_le i v l
  omega

/-! ## The outcomes of the audio decode (rule R132) -/

/-- The three flags are the lowest bits of AUD_FIELDS (rule R43). -/
theorem audFieldsWord_flags (f : AudFields) :
    (audFieldsWord f).getLsbD 0 = f.valid ∧ (audFieldsWord f).getLsbD 1 = f.attempted ∧
      (audFieldsWord f).getLsbD 2 = f.short := by
  simp only [audFieldsWord, BitVec.getLsbD_append, BitVec.getLsbD_ofBool, Nat.reduceLT, Nat.reduceSub, if_true,
    if_false, decide_true, Bool.true_and, and_self]

section Outcome

variable (s : State)

theorem audioOutcome_eq_noDecode_iff : audioOutcome s = .noDecode ↔ s.aud.fields.attempted = false := by
  unfold audioOutcome
  split_ifs <;> simp_all

theorem audioOutcome_eq_tooShort_iff :
    audioOutcome s = .tooShort ↔ s.aud.fields.attempted = true ∧ s.aud.fields.short = true := by
  unfold audioOutcome
  split_ifs <;> simp_all

theorem audioOutcome_eq_syncMiss_iff :
    audioOutcome s = .syncMiss ↔
      s.aud.fields.attempted = true ∧ s.aud.fields.short = false ∧ s.aud.fields.valid = false := by
  unfold audioOutcome
  split_ifs <;> simp_all

theorem audioOutcome_eq_found_iff :
    audioOutcome s = .found ↔
      s.aud.fields.attempted = true ∧ s.aud.fields.short = false ∧ s.aud.fields.valid = true := by
  unfold audioOutcome
  split_ifs <;> simp_all

end Outcome

/-- Settles O50: each operation writes the flags of its outcome, and the bits of the word are those flags. -/
theorem audioOutcomesTellApart : Obligations.AudioOutcomesTellApart := by
  refine ⟨fun s => ⟨audShort s, rfl, rfl⟩, fun a s => ⟨audSyncMiss a s, rfl, rfl⟩,
    fun a s => ⟨audFields a s, rfl, rfl⟩, fun s => ⟨rsmReset s, rfl, rfl⟩, fun s => ?_⟩
  have hword : regWord 25 s = audFieldsWord s.aud.fields := rfl
  obtain ⟨hvalid, hattempted, hshort⟩ := audFieldsWord_flags s.aud.fields
  dsimp only
  rw [hword, hvalid, hattempted, hshort]
  exact ⟨audioOutcome_eq_noDecode_iff s, audioOutcome_eq_tooShort_iff s, audioOutcome_eq_syncMiss_iff s,
    audioOutcome_eq_found_iff s⟩

end Sys2Proof.Machine
end

section
/-! PROOFS about the host's commands and transactions (46_host_commands.md): the pushes, TARGET_PID, the issue of a
command, accesses while busy, and the engine steps that decode no frame. -/

namespace Sys2Proof.Machine

/-! ## Fields of the data word -/

/-- A field of a word is the word as a number, shifted down to the field's lowest bit. -/
theorem extractLsb'_eq_ofNat {n : Nat} (w : BitVec n) (i k : Nat) :
    w.extractLsb' i k = BitVec.ofNat k (w.toNat / 2 ^ i) := by
  apply BitVec.eq_of_toNat_eq
  rw [toNat_extract, BitVec.toNat_ofNat]

/-- The lowest bits of a word are its remainder. -/
theorem extractLsb'_zero_eq_ofNat_mod {n : Nat} (w : BitVec n) (k : Nat) :
    w.extractLsb' 0 k = BitVec.ofNat k (w.toNat % 2 ^ k) := by
  apply BitVec.eq_of_toNat_eq
  rw [toNat_extract, pow_zero, Nat.div_one, BitVec.toNat_ofNat, Nat.mod_mod]

/-! ## The pushes (rules R134, R135) -/

theorem exec_push8_idle (v : Word) {s : State} (h : s.pending = none) :
    exec (.push8 v) s = .next (pushByte (v.extractLsb' 0 8) s) :=
  congrArg Host.Outcome.next (guardWrite_idle _ h)

theorem exec_push32_idle (v : Word) {s : State} (h : s.pending = none) :
    exec (.push32 v) s = .next (pushBytes (wordBytes v) s) :=
  congrArg Host.Outcome.next (guardWrite_idle _ h)

/-- Settles O14: with nothing pending the byte is taken or discarded, by the fill. -/
theorem push8Result : Obligations.Push8Result := by
  intro v s hw
  refine ⟨fun hp hf => ?_, fun hp hf => ?_, fun hp => ignoredBusy_of_guard hp rfl⟩
  · rw [exec_push8_idle v hp, extractLsb'_zero_eq_ofNat_mod]
    rcases pushByte_cases (BitVec.ofNat 8 (v.toNat % 2 ^ 8)) s with ⟨-, e⟩ | ⟨hfull, -⟩
    · exact ⟨_, rfl, by rw [e], by rw [e]; exact readByte_writeByte hw _ _⟩
    · omega
  · rw [exec_push8_idle v hp]
    rcases pushByte_cases (v.extractLsb' 0 8) s with ⟨hroom, -⟩ | ⟨-, e⟩
    · omega
    · exact ⟨_, rfl, by rw [e]; rfl, by rw [e]; exact stickyIs_raise _ s⟩

/-- Byte j of a bus word, the first most significant (rule R60). -/
theorem wordBytes_getD (v : Word) {j : Nat} (hj : j < 4) :
    (wordBytes v).getD j 0 = BitVec.ofNat 8 (v.toNat / 256 ^ (3 - j)) := by
  rw [show 256 = 2 ^ 8 from rfl, ← pow_mul, ← extractLsb'_eq_ofNat]
  interval_cases j <;> rfl

/-- Settles O15: pushing a list of bytes, for the four bytes of the word. -/
theorem push32Result : Obligations.Push32Result := by
  intro v s hw
  refine ⟨fun hp => ?_, fun hp => ignoredBusy_of_guard hp rfl⟩
  obtain ⟨hstate, hsticky, -, hread⟩ := pushBytes_spec (wordBytes v) s hw
  rw [show (wordBytes v).length = 4 from rfl] at hstate hsticky hread
  have hall : min 4 (188 - s.fill) = 4 ↔ s.fill ≤ 184 := by omega
  refine ⟨_, exec_push32_idle v hp, hstate, by simpa only [hall] using hsticky, fun i => ?_⟩
  rw [hread i]
  by_cases hi : s.fill ≤ i ∧ i < s.fill + min 4 (188 - s.fill)
  · rw [if_pos hi, if_pos (by omega), wordBytes_getD v (by omega)]
  · rw [if_neg hi, if_neg (by omega)]

/-! ## TARGET_PID (rule R136) -/

theorem exec_wrTargetPid_idle (v : Word) {s : State} (h : s.pending = none) :
    exec (.wrTargetPid v) s = .next { s with targetPid := v.extractLsb' 0 13 } :=
  congrArg Host.Outcome.next (guardWrite_idle _ h)

theorem wrTargetPid_ignoredBusy (v : Word) {s : State} (h : s.pending ≠ none) : IgnoredBusy (.wrTargetPid v) s :=
  ignoredBusy_of_guard (f := fun t => { t with targetPid := v.extractLsb' 0 13 }) h rfl

/-- Settles O17: the 13 bits taken from the word are its remainder. -/
theorem writeTargetPidResult : Obligations.WriteTargetPidResult := by
  intro v s
  refine ⟨fun hp => ?_, wrTargetPid_ignoredBusy v⟩
  rw [exec_wrTargetPid_idle v hp, extractLsb'_zero_eq_ofNat_mod, show 2 ^ 13 = 8192 from rfl]

/-! ## The issue of a command (rules R140, R145) -/

/-- The command of a defined opcode. -/
theorem commandOf_of_le {op : BitVec 8} (h : op.toNat ≤ 3) :
    ∃ c, commandOf op = some c ∧
      some c = if op.toNat = 0 then some .nop else if op.toNat = 1 then some .decodeFrame
        else if op.toNat = 2 then some .rsmReset else some .clearSticky := by
  obtain rfl | rfl | rfl | rfl : op = 0x00#8 ∨ op = 0x01#8 ∨ op = 0x02#8 ∨ op = 0x03#8 := by bv_omega
  all_goals exact ⟨_, rfl, rfl⟩

theorem command_of_some {op : BitVec 8} {c : Command} (h : commandOf op = some c) (s : State) :
    command op s = issue c s := by
  simp only [command, h]

theorem command_of_none {op : BitVec 8} (h : commandOf op = none) (s : State) : command op s = badCommand s := by
  simp only [command, h]

/-- A refused opcode reports BAD_CMD in LAST_RESULT and by its sticky bit (rule R145). -/
theorem badCommand_eq (s : State) :
    badCommand s = { s with lastResult := .badCmd, sticky := (badCommand s).sticky } := rfl

theorem badCommand_stickyIs (s : State) : StickyIs (badCommand s) s [.badCmd] :=
  stickyIs_raise .badCmd { s with lastResult := .badCmd }

theorem exec_wrCmd_idle (v : Word) {s : State} (h : s.pending = none) :
    exec (.wrCmd v) s = .next (command (opcodeOf v) s) :=
  congrArg Host.Outcome.next (guardWrite_idle _ h)

/-- Settles O19: all six rows run the same guarded refusal. -/
theorem reservedOpcodeRefused : Obligations.ReservedOpcodeRefused := by
  intro op i s hi
  have he : exec i s = .next (guardWrite badCommand s) := by
    simp only [List.mem_cons, List.not_mem_nil, or_false] at hi
    obtain rfl | rfl | rfl | rfl | rfl | rfl := hi <;> rfl
  refine ⟨fun hp => ⟨badCommand s, ?_, badCommand_eq s, badCommand_stickyIs s⟩, fun hp => ignoredBusy_of_guard hp he⟩
  rw [he, guardWrite_idle _ hp]

/-- Only a write to the word of CMD is WR_CMD. -/
theorem write_cmd_of_accessInstr {a : Access} {v : Word} (h : accessInstr a = .wrCmd v) :
    a.write = true ∧ a.offset &&& 0x1FFC#13 = 0x0004#13 := by
  obtain ⟨write, off, data⟩ := a
  cases write with
  | false =>
    rw [accessInstr_read] at h
    split at h <;> cases h
  | true =>
    refine ⟨rfl, by_contra fun hoff => ?_⟩
    rw [accessInstr_write, if_neg hoff] at h
    split at h
    · cases h
    · split at h
      · cases h
      · split at h <;> cases h

/-- Where a transaction makes a command pending, it is WR_CMD. -/
theorem accessInstr_eq_wrCmd_of_issues {a : Access} {s t : State} (h : exec (accessInstr a) s = .next t)
    (hs : s.pending = none) (ht : t.pending ≠ none) : accessInstr a = .wrCmd a.data := by
  have keeps : ∀ {i u}, accessInstr a = i → exec i s = .next u → u.pending = s.pending → False := by
    rintro i u rfl hu hk
    obtain rfl := Host.Outcome.next.inj (h.symm.trans hu)
    exact ht (hk.trans hs)
  rcases accessInstr_cases a with ⟨off, e⟩ | ⟨off, e⟩ | e | e | e | e | ⟨off, e⟩
  · exact (keeps e (exec_rd_idle off hs) rfl).elim
  · exact (keeps e (exec_rdPayload_idle off hs) rfl).elim
  · exact e
  · exact (keeps e (exec_wrTargetPid_idle a.data hs) rfl).elim
  · exact (keeps e (exec_push8_idle a.data hs) (by rw [pushByte_frame])).elim
  · exact (keeps e (exec_push32_idle a.data hs) (pushBytes_pending _ s)).elim
  · exact (keeps e rfl rfl).elim

/-- WR_CMD makes a command pending for a defined opcode alone. -/
theorem opcode_le_of_issues {v : Word} {s t : State} (h : exec (.wrCmd v) s = .next t) (hs : s.pending = none)
    (ht : t.pending ≠ none) : (opcodeOf v).toNat ≤ 3 := by
  by_contra hop
  rw [exec_wrCmd_idle v hs, command_of_none (commandOf_of_ge (by omega))] at h
  obtain rfl := Host.Outcome.next.inj h
  exact ht hs

/-- Settles O18: the opcode decides what WR_CMD does, and of the moves of a step no other makes a command pending. -/
theorem commandIssue : Obligations.CommandIssue := by
  refine ⟨fun v s => ⟨fun hp hop => ?_, fun hp hop => ?_, fun hp => ignoredBusy_of_guard hp rfl⟩,
    fun s t h hs ht => ?_⟩
  · rw [← opcodeOf_toNat] at hop ⊢
    obtain ⟨c, hc, hname⟩ := commandOf_of_le hop
    exact ⟨issue c s, by rw [exec_wrCmd_idle v hp, command_of_some hc], rfl, hname⟩
  · rw [← opcodeOf_toNat] at hop
    exact ⟨badCommand s, by rw [exec_wrCmd_idle v hp, command_of_none (commandOf_of_ge hop)], badCommand_eq s,
      badCommand_stickyIs s⟩
  · rcases step_cases h with ⟨c, hm, -⟩ | ⟨a, hm, he⟩ | ⟨-, rfl⟩ | ⟨-, rfl⟩
    · exact nomatch hs.symm.trans (nextMove_engine hm).1
    · have hcmd := accessInstr_eq_wrCmd_of_issues he hs ht
      obtain ⟨hwrite, hoff⟩ := write_cmd_of_accessInstr hcmd
      rw [hcmd] at he
      have hop := opcode_le_of_issues he hs ht
      exact ⟨a, (hostMoves_of_nextMove hm).2, hwrite, hoff, opcodeOf_toNat a.data ▸ hop⟩
    · exact (ht rfl).elim
    · exact (ht hs).elim

/-! ## Accesses while BUSY = 1 (rules R138, R139) -/

/-- Settles O20, by the word that the write goes to. -/
theorem writesWhileBusy : Obligations.WritesWhileBusy := by
  intro off v s hp
  simp only [List.mem_cons, List.not_mem_nil, or_false, not_or]
  refine ⟨fun h => ?_, fun ⟨hcmd, hpid, hpush8, hpush32⟩ => ?_⟩
  · rw [accessInstr_write]
    rcases h with h | h | h | h <;> rw [h]
    · exact ignoredBusy_of_guard hp rfl
    · exact wrTargetPid_ignoredBusy v hp
    · exact ignoredBusy_of_guard hp rfl
    · exact ignoredBusy_of_guard hp rfl
  · rw [accessInstr_write_ignored (by simp [writable, hcmd, hpid, hpush8, hpush32])]
    rfl

/-- The registers from ID to FRAME_FILL are not volatile (rule R138). -/
theorem controlFields_not_volatile (s : State) : ∀ r ∈ controlFields s, volatileReg (r.off.toNat / 4) = false := by
  simp [controlFields, volatileReg]

/-- Settles O24: a volatile register and the window answer the next free value, every other register its word. -/
theorem readsWhileBusy : Obligations.ReadsWhileBusy := by
  intro off s hp
  refine ⟨fun hlo hhi => exec_rd_busy_volatile hp (decide_eq_true (by omega)), exec_rdPayload_busy off hp,
    fun h => exec_rd_reserved h s, fun r hr hfill => ?_⟩
  refine ⟨_, exec_rd (by rw [controlFields_not_volatile s r hr, Bool.and_false]), rfl, ?_⟩
  rw [respond_rdata, ← field_eq]
  exact controlFields_readIn hfill r hr

/-! ## Engine steps of the commands (rules R142 to R144) -/

/-- Settles O26: NOP only retires. -/
theorem nopCommand : Obligations.NopCommand := fun _ => rfl

/-- Settles O27: every condition's bit is one of the sticky field, which is 0. -/
theorem clearStickyCommand : Obligations.ClearStickyCommand :=
  fun _ => ⟨_, rfl, rfl, fun _ => BitVec.getLsbD_zero⟩

/-- With BUF_LEN 0 the PAYLOAD window reads 0 (rule R47). -/
theorem payloadWord_of_bufLen_eq_zero {s : State} (h : s.bufLen = 0) (k : Nat) : payloadWord k s = 0#32 := by
  have hbyte : ∀ i, payloadByte s i = 0#8 := fun i => if_neg (h ▸ Nat.not_lt_zero i)
  simp only [payloadWord, hbyte]
  rfl

/-- The registers that hold several fields read 0 with no unit and no event (rules R35, R39, R43). -/
theorem noUnit_words :
    pesInfoWord PesRegs.zero false = 0#32 ∧ audFieldsWord AudRegs.zero.fields = 0#32 ∧
      0#21 ++ Event.noEvent.code ++ 0#4 ++ 0#2 ++ Phase.waiting.code = 0#32 := by decide

/-- The unit registers, RSM_STATE and BUF_LEN read 0 after RSM_RESET (rule R143). -/
theorem regWord_rsmReset (s : State) :
    ∀ k ∈ [17, 18, 19, 20, 21, 22, 24, 25, 26, 27, 28], regWord k (rsmReset s) = 0#32 := by
  obtain ⟨hpes, haud, hrsm⟩ := noUnit_words
  obtain ⟨hbitrate, hsrate, hfsize⟩ := audRegs_zero_words
  simp only [List.forall_mem_cons, List.not_mem_nil, false_implies, implies_true, and_true]
  exact ⟨hpes, rfl, rfl, rfl, hrsm, rfl, rfl, haud, hbitrate, hsrate, hfsize⟩

/-- Settles O28: the registers it clears read 0 one by one, and the window is empty. -/
theorem rsmResetCommand : Obligations.RsmResetCommand :=
  fun s => ⟨rsmReset s, rfl, rfl, regWord_rsmReset s, payloadWord_of_bufLen_eq_zero rfl⟩

end Sys2Proof.Machine
end

section
/-! PROOFS of the statements about conditions and reset (60_exceptions.md, 70_reset_and_hazards.md): nothing stops the
machine, a raised sticky bit stays, and what the partial-reset sequence leaves. -/

namespace Sys2Proof.Machine

/-! ## No step stops (rules R151, R173) -/

theorem step_continues (s : State) : ∃ t, step s = .next t := by
  unfold step
  split
  · exact exec_continues _ _
  · exact exec_continues _ _
  · exact ⟨_, rfl⟩
  · exact ⟨_, rfl⟩

/-- Settles O8: a step is an operation, a reset or passing time, and each answers a next state. -/
theorem stepAlwaysContinues : Obligations.StepAlwaysContinues := ⟨step_continues, exec_continues⟩

/-! ## Sticky bits (rule R150) -/

/-- Every sticky bit that is 1 in `s` is 1 in `t`. -/
def StickyKept (s t : State) : Prop := ∀ c, raised c s = true → raised c t = true

theorem StickyKept.trans {s t u : State} (h : StickyKept s t) (k : StickyKept t u) : StickyKept s u :=
  fun c hc => k c (h c hc)

theorem StickyKept.of_sticky_eq {s t : State} (e : t.sticky = s.sticky) : StickyKept s t :=
  fun c hc => (raised_congr e c).trans hc

/-- What only raises conditions lowers none. -/
theorem StickyIs.stickyKept {s t : State} {cs : List Cause} (h : StickyIs t s cs) : StickyKept s t :=
  fun c hc => by rw [h c, hc, Bool.true_or]

theorem adaptation_stickyKept (h : TsHeader) (s : State) : StickyKept s (adaptation h s) := by
  unfold adaptation
  split
  · exact (afDecode_stickyIs s).stickyKept
  · exact .of_sticky_eq rfl

/-- Of the six operations a Start can raise PES_OVERRUN, an End raises UNIT_ENDED and a discontinuity DISC
(rules R114, R116, R117); none lowers a bit. -/
theorem reassemble_stickyKept (h : TsHeader) (s : State) : StickyKept s (reassemble h s) := by
  rcases reassemble_cases h s with ⟨-, e⟩ | ⟨-, -, -, e⟩ | ⟨-, -, -, e⟩ | ⟨-, -, -, -, e⟩ | ⟨-, -, -, -, e⟩ |
    ⟨-, -, -, e⟩ <;> rw [e]
  · exact .of_sticky_eq rfl
  · exact ((stickyIs_raiseIf _ .pesOverrun s).of_sticky_eq (by rw [rsmStart_eq h s _ rfl])).stickyKept
  · exact .of_sticky_eq rfl
  · exact ((stickyIs_raise .unitEnded s).of_sticky_eq (by rw [rsmEnd_eq]; rfl)).stickyKept
  · exact .of_sticky_eq (by rw [rsmContinue_eq])
  · exact (stickyIs_raise .disc s).stickyKept

theorem frameDecode_stickyKept (s : State) : StickyKept s (frameDecode s) := by
  have hextract : StickyKept s (tsExtract (header s) s) := (tsExtract_stickyIs _ s).stickyKept
  exact (hextract.trans (adaptation_stickyKept _ _)).trans (reassemble_stickyKept _ _)

/-- Settles O58: of everything a step can do, only CLEAR_STICKY and a reset lower a sticky bit. -/
theorem stickyBitsStay : Obligations.StickyBitsStay := by
  intro s t c hstep hraised
  rcases step_effects hstep with ⟨-, -, rfl⟩ | ⟨-, -, rfl⟩ | ⟨-, rfl⟩ | ⟨-, rfl⟩ | ⟨hclear, -⟩ | ⟨hreset, -⟩ |
    ⟨-, -, hkept, -⟩
  · exact .inl (frameDecode_stickyKept s c hraised)
  · exact .inl ((stickyIs_raise .shortRead s).stickyKept c hraised)
  · exact .inl hraised
  · exact .inl hraised
  · exact .inr (.inl hclear)
  · exact .inr (.inr hreset)
  · exact .inl (hkept c hraised)

/-! ## The partial-reset sequence (rule R162) -/

/-- A reset that leaves LAST_RESULT OK, keeps the record but for its event and ATTACHED, and does not touch the bytes
of the buffers. -/
def partialReset (s : State) : State :=
  { resetBlock s with
    lastResult := .ok, record := { s.record with event := .noEvent, attached := false }, fb := s.fb, buf := s.buf,
    latency := s.latency }

/-- With FILL below 188 the four operations are that partial reset: the ShortRead empties FILL and decodes nothing. -/
theorem execAll_partialReset {s : State} (h : s.fill ≠ 188) :
    execAll [.decodeFrame, .rsmReset, .clearSticky, .wrTargetPid 0x1FFF#32] s = .next (partialReset s) :=
  calc execAll [.decodeFrame, .rsmReset, .clearSticky, .wrTargetPid 0x1FFF#32] s
    _ = execAll [.rsmReset, .clearSticky, .wrTargetPid 0x1FFF#32] (decodeFrame s) := rfl
    _ = execAll [.rsmReset, .clearSticky, .wrTargetPid 0x1FFF#32]
          (retire .shortRead { raise .shortRead s with fill := 0 }) := by rw [decodeFrame_short h]
    _ = .next (partialReset s) := rfl

theorem regWord_two_partialReset (s : State) : regWord 2 (partialReset s) = 0x00000002#32 :=
  calc regWord 2 (partialReset s)
    _ = 0#15 ++ 0#9 ++ 0#5 ++ Result.ok.code ++ BitVec.ofBool false := rfl
    _ = 0x00000002#32 := by decide

/-- The words of the registers that hold nothing of LAST_RESULT and of the kept record are those of a reset. -/
theorem regWord_partialReset (s : State) :
    ∀ k ∈ [0, 1, 3, 4, 5, 6, 7, 17, 18, 19, 20, 21, 22, 24, 25, 26, 27, 28],
      regWord k (partialReset s) = regWord k State.reset := by
  simp only [List.forall_mem_cons, List.not_mem_nil, false_implies, implies_true, and_true]
  exact ⟨rfl, rfl, rfl, rfl, rfl, rfl, rfl, rfl, rfl, rfl, rfl, rfl, rfl, rfl, rfl, rfl, rfl, rfl⟩

/-- Settles O60: the sequence is a partial reset, whose words are compared with those of a reset. -/
theorem partialResetSequence : Obligations.PartialResetSequence := by
  intro s hfill
  refine ⟨partialReset s, execAll_partialReset (by omega), regWord_two_partialReset s, fun k hk => ?_,
    payloadWord_of_bufLen_eq_zero rfl⟩
  by_cases hmapped : k < 29
  · refine regWord_partialReset s k ?_
    simp only [List.mem_cons, List.not_mem_nil, or_false] at hk ⊢
    omega
  · rw [regWord_of_ge (by omega), regWord_of_ge (by omega)]

end Sys2Proof.Machine
end
